-- ==== Sys2Proof/Word.lean ====
section
/-!
DEFINITION. The word types of the block: bytes and 11-bit channel values (spec 00_scope.md R6, R8), and the
Channel Frame they make up (10_state.md R22, R26; 40_frame_codec.md, opening).
-/
namespace Sys2Proof

/-- A byte: 8 bits, unsigned (R8). -/
abbrev Byte := BitVec 8

/-- A channel value: 11 bits, unsigned, any value 0..2047 (R22, R24). -/
abbrev Chan := BitVec 11

/-- Sixteen values written out by index: the frame's array length "is always exactly 16" (R22). -/
def vec16 {α : Type} (f : Nat → α) : Vector α 16 :=
  #v[f 0, f 1, f 2, f 3, f 4, f 5, f 6, f 7, f 8, f 9, f 10, f 11, f 12, f 13, f 14, f 15]

/-- A Channel Frame: sixteen 11-bit channels and the four status flags in the order of R26. -/
structure ChannelFrame where
  /-- the sixteen channel values `ch[0..15]` (R22) -/
  ch : Vector Chan 16
  /-- first reserved channel (R26) -/
  ch17 : Bool
  /-- second reserved channel (R26) -/
  ch18 : Bool
  /-- frame-lost (R26) -/
  lost : Bool
  /-- failsafe (R26) -/
  fs : Bool
deriving DecidableEq, Repr

/-- Channel `n` of a frame; an index outside 0..15 names no channel and reads 0. -/
def ChannelFrame.chan (f : ChannelFrame) (n : Nat) : Chan :=
  if h : n < 16 then f.ch[n] else 0

/-- A byte of a sequence by index (R9). DESIGN CHOICE (log 21): past the end it reads 0, so that the function is total. The
byte functions of the record views alone could look there, on a payload shorter than their layout, and `Slot.view`
gives no value of such a payload. -/
def byteAt (s : List Byte) (k : Nat) : Byte := s.getD k 0

end Sys2Proof
end

