-- ==== Sys2Proof/Config.lean ====
section
/-!
DEFINITION. The implementation parameters of spec 00_scope.md R6: the "fixed" ones as constants, the "default" and
"OPEN" ones as the fields of one configuration record (kept in State in registers that no operation writes,
10_state.md R36; log 1), the constraints of R6, and the reference configuration (log 2).
-/
namespace Sys2Proof

/-! ## Fixed parameters (R6, kind "fixed") -/

/-- `FRAME_LEN`: bytes per wire frame. -/
abbrev frameLen : Nat := 25
/-- `CH_MIN`, the lowest legal channel value. -/
abbrev chMin : Nat := 172
/-- `CH_MID`, the channel midpoint. -/
abbrev chMid : Nat := 992
/-- `CH_MAX`, the highest legal channel value. -/
abbrev chMax : Nat := 1811
/-- `TLM_MAXLEN`, the largest legal telemetry length byte. -/
abbrev tlmMaxLen : Nat := 62
/-- `LEN_ATT`, payload bytes of an attitude record. -/
abbrev lenAtt : Nat := 6
/-- `LEN_CHAN`, payload bytes of a channels record. -/
abbrev lenChan : Nat := 22
/-- `TXPWR_MW[0..7]`, milliwatts. -/
def txPwrTable : List Nat := [0, 10, 25, 100, 500, 1000, 2000, 50]
/-- `GEAR_MAX`, the highest forward gear. -/
abbrev gearMax : Nat := 6

/-- The ten record kinds (10_state.md R39). -/
inductive Kind where
  | chan | gps | vario | batt | baro | link | lrx | ltx | att | fmode
deriving DecidableEq, Repr

/-- All ten kinds. -/
def Kind.all : List Kind :=
  [.chan, .gps, .vario, .batt, .baro, .link, .lrx, .ltx, .att, .fmode]

/-- The configuration function `scale` (R13): the default `rdiv` (round half up), or any function that keeps to
R13's weaker assumption. -/
inductive Scale where
  /-- `rdiv`, the default of R13 -/
  | halfUp
  /-- R13's weaker assumption only: an integer with `|scale(a, b) - a/b| < 1`, exact on multiples of `b` -/
  | withinOne
deriving DecidableEq, Repr

/-- FREE VALUE (log 11). Whether a scale function of kind `withinOne` rounds the inexact quotient `a / b` up: R13
leaves it open, so it has no body. -/
opaque Config.roundsUp : Nat → Nat → Bool

/-- The parameters of R6 of kind "default" and "OPEN". -/
structure Config where
  /-- `START`, start marker -/
  startMark : Byte
  /-- `END`, end marker -/
  endMark : Byte
  /-- `FB_CH17`, bit number of the flag in byte 23 -/
  fbCh17 : Nat
  /-- `FB_CH18` -/
  fbCh18 : Nat
  /-- `FB_LOST` -/
  fbLost : Nat
  /-- `FB_FS` -/
  fbFs : Nat
  /-- `N_RC`, number of framer instances (OPEN) -/
  nRc : Nat
  /-- `ADDR_SET`, the recognised addresses (OPEN); a set: order and repeats do not matter -/
  addrSet : List Byte
  /-- `CRC_POLY`, without the x^8 term -/
  crcPoly : Byte
  /-- `CRC_INIT` -/
  crcInit : Byte
  /-- `TAG_GPS` -/
  tagGps : Byte
  /-- `TAG_VARIO` -/
  tagVario : Byte
  /-- `TAG_BATT` -/
  tagBatt : Byte
  /-- `TAG_BARO` -/
  tagBaro : Byte
  /-- `TAG_LINK` -/
  tagLink : Byte
  /-- `TAG_CHAN` -/
  tagChan : Byte
  /-- `TAG_LRX` -/
  tagLrx : Byte
  /-- `TAG_LTX` -/
  tagLtx : Byte
  /-- `TAG_ATT` -/
  tagAtt : Byte
  /-- `TAG_FMODE` -/
  tagFmode : Byte
  /-- `LEN_LINK` -/
  lenLink : Nat
  /-- `LEN_GPS` -/
  lenGps : Nat
  /-- `LEN_VARIO` -/
  lenVario : Nat
  /-- `LEN_BATT` -/
  lenBatt : Nat
  /-- `LEN_BARO` -/
  lenBaro : Nat
  /-- `LEN_LRX` -/
  lenLrx : Nat
  /-- `LEN_LTX` -/
  lenLtx : Nat
  /-- `LEN_FMODE` (OPEN, 1 to 60) -/
  lenFmode : Nat
  /-- `GEAR_MODE` (OPEN): true = gear-aware (1), false = gear-less (0) -/
  gearMode : Bool
  /-- `AMT_MAX` -/
  amtMax : Nat
  /-- `NOISE_THR` -/
  noiseThr : Nat
  /-- `BRAKE_PULSE` -/
  brakePulse : Nat
  /-- `NUDGE` -/
  nudge : Nat
  /-- `HYST` -/
  hyst : Nat
  /-- `scale` (R13) -/
  scale : Scale
deriving DecidableEq, Repr

/-- `TAG_K` (30_encoding.md R88). -/
def Config.tagOf (c : Config) : Kind → Byte
  | .chan => c.tagChan
  | .gps => c.tagGps
  | .vario => c.tagVario
  | .batt => c.tagBatt
  | .baro => c.tagBaro
  | .link => c.tagLink
  | .lrx => c.tagLrx
  | .ltx => c.tagLtx
  | .att => c.tagAtt
  | .fmode => c.tagFmode

/-- `LEN_K` (30_encoding.md R88). -/
def Config.lenOf (c : Config) : Kind → Nat
  | .chan => lenChan
  | .gps => c.lenGps
  | .vario => c.lenVario
  | .batt => c.lenBatt
  | .baro => c.lenBaro
  | .link => c.lenLink
  | .lrx => c.lenLrx
  | .ltx => c.lenLtx
  | .att => lenAtt
  | .fmode => c.lenFmode

/-- The constraints of R6, which are all that may be refused (R283): the bounds of `NOISE_THR`, `BRAKE_PULSE`, `NUDGE`, `HYST`
and `LEN_FMODE`; each `FB_*` the number of a bit of byte 23, so 0..7; the ten tags pairwise different, as R88 says of these
parameters of R6 (log 10). R6 excludes neither `AMT_MAX` = 0 nor two flags on one bit, and such configurations run. -/
def Config.ok (c : Config) : Bool :=
  decide (5 ≤ c.noiseThr ∧ c.noiseThr ≤ 10 ∧
    chMin ≤ c.brakePulse ∧ c.brakePulse < chMid ∧
    1 ≤ c.nudge ∧ c.nudge ≤ chMax - chMid ∧
    c.hyst < chMid - chMin ∧
    1 ≤ c.lenFmode ∧ c.lenFmode ≤ 60 ∧
    c.fbCh17 < 8 ∧ c.fbCh18 < 8 ∧ c.fbLost < 8 ∧ c.fbFs < 8 ∧
    (Kind.all.map c.tagOf).Nodup)

/-- The reference configuration of R6. `LEN_FMODE` has no reference value: DESIGN CHOICE 5, the value the spec's own
vectors take (log 2). No statement rests on any of these values unless it names this configuration. -/
def Config.reference : Config where
  startMark := 0x0F
  endMark := 0x00
  fbCh17 := 7
  fbCh18 := 6
  fbLost := 5
  fbFs := 4
  nRc := 1
  addrSet := [0xC8, 0xEA, 0xEC, 0xEE]
  crcPoly := 0xD5
  crcInit := 0x00
  tagGps := 0x02
  tagVario := 0x07
  tagBatt := 0x08
  tagBaro := 0x09
  tagLink := 0x14
  tagChan := 0x16
  tagLrx := 0x1C
  tagLtx := 0x1D
  tagAtt := 0x1E
  tagFmode := 0x21
  lenLink := 10
  lenGps := 15
  lenVario := 2
  lenBatt := 8
  lenBaro := 2
  lenLrx := 5
  lenLtx := 6
  lenFmode := 5
  gearMode := true
  amtMax := 819
  noiseThr := 10
  brakePulse := 200
  nudge := 10
  hyst := 20
  scale := .halfUp

end Sys2Proof
end

