-- ==== Sys2Proof/Syntax.lean ====
section
/-!
DEFINITION. The operations of the block (spec 30_encoding.md R101) as one inductive, one constructor per row of
opcode_table.json: the six port operations and the ten record decoders that the type tag selects inside `TP.PUSH`
(R88; 43_telemetry_records.md).
-/
namespace Sys2Proof

/-- The two formats in which an operation is selected (R80): by `PSEL` on a port, or by the type tag of a message. -/
inductive Format where
  | port | tlm
deriving DecidableEq, Repr

/-- One operation with its operands. -/
inductive Instr where
  /-- `ENC f` (R110) -/
  | enc (f : ChannelFrame)
  /-- `DEC s` (R112) -/
  | dec (s : List Byte)
  /-- `FR.PUSH[i] b` (R130) -/
  | frPush (i : Nat) (b : Byte)
  /-- `TP.PUSH b` (R150) -/
  | tpPush (b : Byte)
  /-- `ESC.TICK TW` (R210), `TW` the 28-bit word of R100 -/
  | escTick (tw : BitVec 28)
  /-- `RST` (R300) -/
  | rst
  /-- `TR.GPS P` (R183) -/
  | trGps (p : List Byte)
  /-- `TR.VARIO P` (R185) -/
  | trVario (p : List Byte)
  /-- `TR.BATT P` (R187) -/
  | trBatt (p : List Byte)
  /-- `TR.BARO P` (R189) -/
  | trBaro (p : List Byte)
  /-- `TR.LINK P` (R191) -/
  | trLink (p : List Byte)
  /-- `TR.CHAN P` (R181) -/
  | trChan (p : List Byte)
  /-- `TR.LRX P` (R194) -/
  | trLrx (p : List Byte)
  /-- `TR.LTX P` (R196) -/
  | trLtx (p : List Byte)
  /-- `TR.ATT P` (R198) -/
  | trAtt (p : List Byte)
  /-- `TR.FMODE P` (R201) -/
  | trFmode (p : List Byte)
deriving DecidableEq, Repr

/-- The decoder `TR.K` applied to a payload. -/
def Instr.ofRecord : Kind → List Byte → Instr
  | .chan, p => .trChan p
  | .gps, p => .trGps p
  | .vario, p => .trVario p
  | .batt, p => .trBatt p
  | .baro, p => .trBaro p
  | .link, p => .trLink p
  | .lrx, p => .trLrx p
  | .ltx, p => .trLtx p
  | .att, p => .trAtt p
  | .fmode, p => .trFmode p

/-- The kind and payload of a record decoder; `none` for a port operation. -/
def Instr.record? : Instr → Option (Kind × List Byte)
  | .trChan p => some (.chan, p)
  | .trGps p => some (.gps, p)
  | .trVario p => some (.vario, p)
  | .trBatt p => some (.batt, p)
  | .trBaro p => some (.baro, p)
  | .trLink p => some (.link, p)
  | .trLrx p => some (.lrx, p)
  | .trLtx p => some (.ltx, p)
  | .trAtt p => some (.att, p)
  | .trFmode p => some (.fmode, p)
  | .enc _ => none
  | .dec _ => none
  | .frPush _ _ => none
  | .tpPush _ => none
  | .escTick _ => none
  | .rst => none

/-- The format that selects an operation (R80, R101). -/
def Instr.format (i : Instr) : Format :=
  match i.record? with
  | some _ => .tlm
  | none => .port

end Sys2Proof
end

