-- ==== Sys2Proof/WellFormed.lean ====
section
/-!
DEFINITION. Which operations the hardware can be asked (spec 60_exceptions.md R283, 30_encoding.md R101, R103): the
operand bounds that the operand types do not already carry.
-/
namespace Sys2Proof

/-- The operand bounds under a configuration. `ENC`, `TP.PUSH`, `ESC.TICK`, `RST`: the types say it all. `DEC`: a byte
sequence of length 0..255 (R101, D8). `FR.PUSH`: an instance `i < N_RC` (R283), however large `N_RC` is (R5). `TR.K`:
exactly `LEN_K` payload bytes (R180). -/
def Instr.wf (c : Config) : Instr → Bool
  | .enc _ => true
  | .dec s => decide (s.length ≤ 255)
  | .frPush i _ => decide (i < c.nRc)
  | .tpPush _ => true
  | .escTick _ => true
  | .rst => true
  | .trGps p => decide (p.length = c.lenOf .gps)
  | .trVario p => decide (p.length = c.lenOf .vario)
  | .trBatt p => decide (p.length = c.lenOf .batt)
  | .trBaro p => decide (p.length = c.lenOf .baro)
  | .trLink p => decide (p.length = c.lenOf .link)
  | .trChan p => decide (p.length = c.lenOf .chan)
  | .trLrx p => decide (p.length = c.lenOf .lrx)
  | .trLtx p => decide (p.length = c.lenOf .ltx)
  | .trAtt p => decide (p.length = c.lenOf .att)
  | .trFmode p => decide (p.length = c.lenOf .fmode)

end Sys2Proof
end

