-- ==== Sys2Proof/Decode.lean ====
section
/-!
DEFINITION. The decoder of port events (spec 30_encoding.md R101) and of record bodies (R85, R88), and after it the
encoder. The spec numbers the port operations with the 4-bit code `PSEL` and gives their operands no byte layout; the
layout below is the model's DESIGN CHOICE (log 3; the unbounded instance number log 16):

  byte 0        `PSEL` in bits 3..0, bits 7..4 zero
  ENC           sixteen channels, two bytes each, low byte first, bits 15..11 zero; then one byte with
                CH17, CH18, LOST, FS in bits 3, 2, 1, 0 and bits 7..4 zero
  DEC           the length n, then the n bytes of the operand
  FR.PUSH       the instance, any natural number: seven bits a byte, low bits first, bit 7 set where another byte
                follows; then the byte
  TP.PUSH       the byte
  ESC.TICK      TW, four bytes, low byte first, bits 31..28 zero
  RST           nothing

A record decoder is selected by its type tag: its words are the message body, tag and payload (R85), which is what
`TP.PUSH` collects; it is not a port event (43_telemetry_records.md R180).
-/
namespace Sys2Proof

/-- Why bytes spell no operation (R283): each a question the hardware cannot be asked. -/
inductive DecodeError where
  /-- no byte at all -/
  | empty
  /-- a reserved `PSEL` code (R101, R103) -/
  | reservedPsel (code : Byte)
  /-- an operand wider than its port, or a `PSEL` wider than 4 bits (R283) -/
  | operandTooWide
  /-- the operand bytes end too early -/
  | truncated
  /-- a body whose tag selects no decoder (R88) -/
  | unknownTag (tag : Byte)
deriving DecidableEq, Repr

/-- The first `n` bytes and the rest, when there are that many. -/
def takeBytes (n : Nat) (s : List Byte) : Option (List Byte × List Byte) :=
  if n ≤ s.length then some (s.take n, s.drop n) else none

/-- The natural number at the head and the rest: seven bits a byte, low bits first, until a byte with bit 7 clear. -/
def takeNat : List Byte → Option (Nat × List Byte)
  | [] => none
  | b :: t =>
    if b.toNat < 128 then some (b.toNat, t)
    else
      match takeNat t with
      | none => none
      | some (n, rest) => some (b.toNat - 128 + 128 * n, rest)

/-- Two bytes, low byte first, as one 16-bit value. -/
def le16 (lo hi : Byte) : BitVec 16 := hi ++ lo

/-- Channel `n` of an `ENC` operand. -/
def encOperandChan (s : List Byte) (n : Nat) : Chan :=
  (le16 (byteAt s (2 * n)) (byteAt s (2 * n + 1))).setWidth 11

/-- The operand of `ENC`: 33 bytes. -/
def decodeEnc (t : List Byte) : Except DecodeError (Instr × List Byte) :=
  match takeBytes 33 t with
  | none => .error .truncated
  | some (s, rest) =>
    if (List.range 16).all (fun n => decide ((byteAt s (2 * n + 1)).toNat < 8)) &&
        decide ((byteAt s 32).toNat < 16) then
      let fl := byteAt s 32
      .ok (.enc ⟨vec16 (encOperandChan s), fl.getLsbD 3, fl.getLsbD 2, fl.getLsbD 1, fl.getLsbD 0⟩, rest)
    else .error .operandTooWide

/-- The operand of `DEC`: a length and that many bytes. -/
def decodeDec : List Byte → Except DecodeError (Instr × List Byte)
  | [] => .error .truncated
  | n :: t =>
    match takeBytes n.toNat t with
    | none => .error .truncated
    | some (s, rest) => .ok (.dec s, rest)

/-- The operands of `FR.PUSH`: instance and byte. `N_RC` is OPEN and unbounded (R5, R6), and so is the instance. -/
def decodeFrPush (t : List Byte) : Except DecodeError (Instr × List Byte) :=
  match takeNat t with
  | none => .error .truncated
  | some (_, []) => .error .truncated
  | some (i, b :: rest) => .ok (.frPush i b, rest)

/-- The operand of `TP.PUSH`: a byte. -/
def decodeTpPush : List Byte → Except DecodeError (Instr × List Byte)
  | b :: rest => .ok (.tpPush b, rest)
  | [] => .error .truncated

/-- The operand of `ESC.TICK`: the 28-bit word `TW` in four bytes (R100). -/
def decodeEscTick : List Byte → Except DecodeError (Instr × List Byte)
  | b0 :: b1 :: b2 :: b3 :: rest =>
    if b3.toNat < 16 then .ok (.escTick ((b3 ++ b2 ++ b1 ++ b0 : BitVec 32).setWidth 28), rest)
    else .error .operandTooWide
  | _ => .error .truncated

/-- The port event at the head of a byte sequence, and the bytes after it (R101). -/
def decodePort : List Byte → Except DecodeError (Instr × List Byte)
  | [] => .error .empty
  | h :: t =>
    if 16 ≤ h.toNat then .error .operandTooWide
    else if h = 0x1 then decodeEnc t
    else if h = 0x2 then decodeDec t
    else if h = 0x3 then decodeFrPush t
    else if h = 0x4 then decodeTpPush t
    else if h = 0x5 then decodeEscTick t
    else if h = 0xF then .ok (.rst, t)
    else .error (.reservedPsel h)

/-- `kind_of(tag)`: the kind whose `TAG_K` equals the tag (42_telemetry_parser.md R165). -/
def kindOf (c : Config) (tag : Byte) : Option Kind :=
  Kind.all.find? (fun k => decide (c.tagOf k = tag))

/-- The record decoder that a message body (tag, then payload) selects, and the bytes after the body (R85, R88). -/
def decodeBody (c : Config) : List Byte → Except DecodeError (Instr × List Byte)
  | [] => .error .empty
  | tag :: t =>
    match kindOf c tag with
    | none => .error (.unknownTag tag)
    | some k =>
      match takeBytes (c.lenOf k) t with
      | none => .error .truncated
      | some (p, rest) => .ok (Instr.ofRecord k p, rest)

/-- The decoder, by format. -/
def decode (c : Config) : Format → List Byte → Except DecodeError (Instr × List Byte)
  | .port, s => decodePort s
  | .tlm, s => decodeBody c s

/-! ## The encoder -/

/-- One 16-bit value, low byte first. -/
def bytesLe16 (v : BitVec 16) : List Byte := [v.setWidth 8, (v >>> 8).setWidth 8]

/-- The bytes of a natural number as `takeNat` reads it; `fuel` bounds how many groups of seven bits follow the first. -/
def natGroups : (fuel : Nat) → Nat → List Byte
  | 0, n => [BitVec.ofNat 8 n]
  | k + 1, n =>
    if n < 128 then [BitVec.ofNat 8 n] else BitVec.ofNat 8 (128 + n % 128) :: natGroups k (n / 128)

/-- The bytes of a natural number; a number has no more groups of seven bits than its own value and one. -/
def natBytes (n : Nat) : List Byte := natGroups n n

/-- The flags byte of an `ENC` operand. -/
def encOperandFlags (f : ChannelFrame) : Byte :=
  (BitVec.ofBool f.ch17 ++ BitVec.ofBool f.ch18 ++ BitVec.ofBool f.lost ++ BitVec.ofBool f.fs : BitVec 4).setWidth 8

/-- The byte or bytes that select an operation: its `PSEL` code, or its type tag (R88, R101). -/
def opcode (c : Config) : Instr → Byte
  | .enc _ => 0x1
  | .dec _ => 0x2
  | .frPush _ _ => 0x3
  | .tpPush _ => 0x4
  | .escTick _ => 0x5
  | .rst => 0xF
  | .trGps _ => c.tagGps
  | .trVario _ => c.tagVario
  | .trBatt _ => c.tagBatt
  | .trBaro _ => c.tagBaro
  | .trLink _ => c.tagLink
  | .trChan _ => c.tagChan
  | .trLrx _ => c.tagLrx
  | .trLtx _ => c.tagLtx
  | .trAtt _ => c.tagAtt
  | .trFmode _ => c.tagFmode

/-- The bytes after the opcode byte. -/
def operandBytes : Instr → List Byte
  | .enc f => (List.range 16).flatMap (fun n => bytesLe16 ((f.chan n).setWidth 16)) ++ [encOperandFlags f]
  | .dec s => BitVec.ofNat 8 s.length :: s
  | .frPush i b => natBytes i ++ [b]
  | .tpPush b => [b]
  | .escTick tw => bytesLe16 (tw.setWidth 16) ++ bytesLe16 ((tw >>> 16).setWidth 16)
  | .rst => []
  | .trGps p => p
  | .trVario p => p
  | .trBatt p => p
  | .trBaro p => p
  | .trLink p => p
  | .trChan p => p
  | .trLrx p => p
  | .trLtx p => p
  | .trAtt p => p
  | .trFmode p => p

/-- The words of an operation: a port event, or a message body. -/
def encode (c : Config) (i : Instr) : List Byte := opcode c i :: operandBytes i

/-! ## Words of the opcode table -/

/-- The `n` low bytes of a number, low byte first. -/
def bytesOfNat : Nat → Nat → List Byte
  | 0, _ => []
  | n + 1, w => BitVec.ofNat 8 w :: bytesOfNat n (w / 256)

/-- Which format a table word is read in. The table's PORT rows have 4 bits and its TLM rows 8; when both are given in
whole bytes, the word 0x02 stands for two rows (`DEC`, `TR.GPS`). DESIGN CHOICE (log 6): a byte that is a type tag
of the reference configuration is read as a tag, every other one as a port event. -/
def tableFormat (c : Config) (nbits w : Nat) : Format :=
  if 4 < nbits ∧ w < 256 ∧ (kindOf c (BitVec.ofNat 8 w)).isSome then .tlm else .port

/-- The bytes of a table word, followed by zeros up to the longest operation (a `DEC` of 255 bytes). -/
def tableBytes (nbits w : Nat) : List Byte :=
  bytesOfNat (max 1 ((nbits + 7) / 8)) w ++ List.replicate 256 0

/-- The operation the decoder reads from a word of the opcode table, operand words zero. -/
def decodeTableWord (nbits w : Nat) : Option Instr :=
  match decode .reference (tableFormat .reference nbits w) (tableBytes nbits w) with
  | .ok (i, _) => some i
  | .error _ => none

end Sys2Proof
end

