-- ==== Sys2Proof/Machine/State.lean ====
section
/-!
DEFINITION. The state of the block (spec 10_state.md R20, R46), the event outputs (00_scope.md R11, 60_exceptions.md
R271), the reasons a step of the model can stop (60_exceptions.md R283), and the state after reset (R300).
-/
namespace Sys2Proof.Machine

/-- A byte buffer (20_memory.md R60): the cells that differ from `Memory.blank`, addresses strictly rising. -/
abbrev Memory := List Host.Cell

/-- What an unlisted address reads as: 0x00, the reset contents of both buffers (10_state.md R43, R44; log 12). -/
def Memory.blank : Byte := 0x00

/-- `FR_STATE` (10_state.md R29). -/
inductive FrState where
  | searching | accumulating
deriving DecidableEq, Repr

/-- The 1-bit coding of `FR_STATE` (R29). -/
def FrState.code : FrState → BitVec 1
  | .searching => 0
  | .accumulating => 1

/-- `TP_STATE` (10_state.md R31). -/
inductive TpState where
  | addr | len | block
deriving DecidableEq, Repr

/-- The 2-bit coding of `TP_STATE` (R31); the value 3 is never produced. -/
def TpState.code : TpState → BitVec 2
  | .addr => 0
  | .len => 1
  | .block => 2

/-- `ESC_PHASE` (10_state.md R35). -/
inductive Phase where
  | forward | brake | reverse
deriving DecidableEq, Repr

/-- The 2-bit coding of `ESC_PHASE` (R35); the value 3 is never produced. -/
def Phase.code : Phase → BitVec 2
  | .forward => 0
  | .brake => 1
  | .reverse => 2

/-- The `FormatError` outcomes of `DEC` with the information they carry (R272 to R274). -/
inductive FormatError where
  /-- the operand's length, not 25 -/
  | badLength (n : Nat)
  /-- byte 0, not `START` -/
  | badStart (x : Byte)
  /-- byte 24, not `END` -/
  | badEnd (x : Byte)
deriving DecidableEq, Repr

/-- The event outputs (R11), every outcome of the table of R271. -/
inductive Event where
  /-- `FormatError`, raised by a `DEC` request (R272 to R274) -/
  | formatError (e : FormatError)
  /-- `Dropped(x)` (R275) -/
  | dropped (x : Byte)
  /-- `DecodeFail(e)` (R276) -/
  | decodeFail (e : FormatError)
  /-- telemetry `BadLength(x)` (R277) -/
  | badLength (x : Byte)
  /-- `InvalidCRC8(got, want)` (R278) -/
  | invalidCrc8 (got want : Byte)
  /-- `FrameLength(K, n)` (R279) -/
  | frameLength (k : Kind) (n : Nat)
  /-- `None` -/
  | none
  /-- `Frame(f)` (R135) -/
  | frame (f : ChannelFrame)
  /-- `Skipped(x)` (R280) -/
  | skipped (x : Byte)
  /-- `Ignored(tag)`, or `Ignored(none)` when the block had no tag (R280) -/
  | ignored (tag : Option Byte)
  /-- `Record(K)` (R168) -/
  | record (k : Kind)
  /-- `Tick(drive, prio)` (R210) -/
  | tick (drive : Chan) (prio : Bool)
  /-- the 25 bytes `ENC` returns (R110) -/
  | wire (w : List Byte)
  /-- the Channel Frame `DEC` returns (R112) -/
  | decoded (f : ChannelFrame)
deriving DecidableEq, Repr

/-- One framer instance `FR[i]` with its frame register file (10_state.md R20). -/
structure Framer where
  /-- `FR_STATE` (R29) -/
  st : FrState
  /-- `FR_CNT` (R30) -/
  cnt : BitVec 5
  /-- `FR_BUF[0..24]` (R43) -/
  buf : Memory
  /-- `RXF` (R22) -/
  rxf : ChannelFrame
deriving DecidableEq, Repr

/-- The sequencing state and buffer of the telemetry parser (10_state.md R20). -/
structure Parser where
  /-- `TP_STATE` (R31) -/
  st : TpState
  /-- `TP_ADDR` (R32) -/
  addr : Byte
  /-- `TP_LEN` (R33) -/
  len : BitVec 6
  /-- `TP_CNT` (R34) -/
  cnt : BitVec 6
  /-- `TP_BUF[0..61]` (R44) -/
  buf : Memory
deriving DecidableEq, Repr

/-- One slot of the Telemetry Record Set (10_state.md R39). -/
structure Slot where
  /-- `TS.K.V` -/
  v : Bool
  /-- `TS.K.P`, `LEN_K` bytes -/
  p : List Byte
deriving DecidableEq, Repr

/-- The Telemetry Record Set: ten slots (10_state.md R39). -/
structure Slots where
  /-- `TS.CHAN` -/
  chan : Slot
  /-- `TS.GPS` -/
  gps : Slot
  /-- `TS.VARIO` -/
  vario : Slot
  /-- `TS.BATT` -/
  batt : Slot
  /-- `TS.BARO` -/
  baro : Slot
  /-- `TS.LINK` -/
  link : Slot
  /-- `TS.LRX` -/
  lrx : Slot
  /-- `TS.LTX` -/
  ltx : Slot
  /-- `TS.ATT` -/
  att : Slot
  /-- `TS.FMODE` -/
  fmode : Slot
deriving DecidableEq, Repr

/-- Slot `TS.K` by kind. -/
def Slots.get (ts : Slots) : Kind → Slot
  | .chan => ts.chan
  | .gps => ts.gps
  | .vario => ts.vario
  | .batt => ts.batt
  | .baro => ts.baro
  | .link => ts.link
  | .lrx => ts.lrx
  | .ltx => ts.ltx
  | .att => ts.att
  | .fmode => ts.fmode

/-- The status registers of the ESC machine (10_state.md R37). -/
structure Esc where
  /-- `ESC_PHASE` (R35) -/
  phase : Phase
  /-- `ESC_GEAR`, 4 bits two's complement (R37, R38) -/
  gear : BitVec 4
  /-- `ESC_DRIVE` (R37) -/
  drive : Chan
  /-- `ESC_PRIO` (R27) -/
  prio : Bool
deriving DecidableEq, Repr

/-- The state of the block, and three fields of the model's own: the parameter registers (log 1), the port events
still to be executed (log 3) and the event output of the last step (log 5). -/
structure State where
  /-- MODEL's own: the parameters of R6, in registers that no operation writes (R36) -/
  cfg : Config
  /-- the framer instances `FR[0]`, `FR[1]`, ... (R20, R21) -/
  fr : List Framer
  /-- the telemetry parser -/
  tp : Parser
  /-- the Telemetry Record Set `TS.*` -/
  ts : Slots
  /-- the ESC status registers -/
  esc : Esc
  /-- MODEL's own: the schedule still to be executed, as the bytes of its port events (R102) -/
  input : List Byte
  /-- MODEL's own: the event output of the last step (R11) -/
  out : Event
deriving DecidableEq, Repr

/-- Why the model stops with a fault: one reason, in states no run reaches (log 9). -/
inductive Fault where
  /-- Raised by `FR.PUSH` and `TP.PUSH` when a count register points outside its buffer: 20_memory.md R60 defines no such
  access and R64 says no rule makes one. Safe: nothing is computed from an access the spec does not define. -/
  | outsideBuffer (a : Nat)
deriving DecidableEq, Repr

/-- Why the model refuses: questions the hardware cannot be asked (60_exceptions.md R283). -/
inductive Refusal where
  /-- An operation without a meaning yet; raised by no arm of `exec`. Safe. -/
  | notModelled (mnemonic : String)
  /-- Raised by `step` for bytes that spell no port event: a reserved `PSEL` or an over-wide operand (R283), or bytes that
  end too early in the model's own layout (log 3). Safe: the hardware has no such port. -/
  | badEvent (e : DecodeError)
  /-- Raised by `FR.PUSH` for an instance `i >= N_RC` (R283). Safe: the hardware has no such port. -/
  | noSuchInstance (i : Nat)
  /-- Raised by a record decoder asked with a payload of a length other than `LEN_K` (R180: the length was tested before
  the decoder is invoked; log 8). Safe: `TP.PUSH` never asks it. -/
  | payloadLength (k : Kind) (n : Nat)
  /-- Raised by `step` for a configuration that breaks the constraints of R6 (R283; log 10). Safe. -/
  | illegalConfig
deriving DecidableEq, Repr

/-- The outcome of one operation. -/
abbrev Result := Host.Outcome State Fault Refusal

/-! ## Reset -/

/-- The Channel Frame `RXF` holds after reset (10_state.md R25). -/
def ChannelFrame.reset : ChannelFrame := ⟨vec16 (fun _ => BitVec.ofNat 11 chMid), false, false, false, false⟩

/-- A framer after reset (R300). -/
def Framer.reset : Framer := ⟨.searching, 0, [], ChannelFrame.reset⟩

/-- The parser after reset (R300). -/
def Parser.reset : Parser := ⟨.addr, 0x00, 0, 0, []⟩

/-- A slot after reset: not valid, `n` bytes 0x00 (10_state.md R41). -/
def Slot.reset (n : Nat) : Slot := ⟨false, List.replicate n 0x00⟩

/-- The Telemetry Record Set after reset (R300). -/
def Slots.reset (c : Config) : Slots where
  chan := .reset (c.lenOf .chan)
  gps := .reset (c.lenOf .gps)
  vario := .reset (c.lenOf .vario)
  batt := .reset (c.lenOf .batt)
  baro := .reset (c.lenOf .baro)
  link := .reset (c.lenOf .link)
  lrx := .reset (c.lenOf .lrx)
  ltx := .reset (c.lenOf .ltx)
  att := .reset (c.lenOf .att)
  fmode := .reset (c.lenOf .fmode)

/-- The ESC registers after reset (R300). -/
def Esc.reset : Esc := ⟨.forward, 0, BitVec.ofNat 11 chMid, false⟩

/-- The state after reset under a configuration (R300, R301), with nothing pending. -/
def State.resetAt (c : Config) : State where
  cfg := c
  fr := List.replicate c.nRc Framer.reset
  tp := Parser.reset
  ts := Slots.reset c
  esc := Esc.reset
  input := []
  out := .none

/-- The machine right after reset, at the reference configuration of R6 (log 2). -/
def State.reset : State := State.resetAt Config.reference

end Sys2Proof.Machine
end

