-- ==== Sys2Proof/Machine/Operands.lean ====
section
/-!
DEFINITION. The operand forms and pure functions of the block: bitstreams (spec 00_scope.md R9, 20_memory.md R63),
big-endian fields (30_encoding.md R89), the CRC8 (42_telemetry_parser.md R159), the fields of the tick word
(30_encoding.md R100, 44_esc_state_machine.md R211), gear selection (R213), pedal classification (R214) and
scaling (00_scope.md R13, 44_esc_state_machine.md R215).
-/
namespace Sys2Proof.Machine

/-! ## Bits and bitstreams -/

/-- The `w`-bit value whose bit `j` is `g j`. -/
def bitsLE : (w : Nat) → (Nat → Bool) → BitVec w
  | 0, _ => 0#0
  | w + 1, g => BitVec.cons (g w) (bitsLE w g)

/-- Bit `k` of the bitstream over a byte sequence: `s[k div 8][k mod 8]` (R9, "LSB-first"). -/
def streamBit (s : List Byte) (k : Nat) : Bool := (byteAt s (k / 8)).getLsbD (k % 8)

/-- The 11-bit value at stream bits `11n .. 11n + 10` (R63, R82). -/
def unpackChan (s : List Byte) (n : Nat) : Chan := bitsLE 11 (fun j => streamBit s (11 * n + j))

/-- Byte `k` of the packed bitstream of sixteen channels: its bit `m` is stream bit `8k + m`, bit `(8k + m) mod 11` of
channel `(8k + m) div 11` (R82). -/
def packByte (f : ChannelFrame) (k : Nat) : Byte :=
  bitsLE 8 (fun m => (f.chan ((8 * k + m) / 11)).getLsbD ((8 * k + m) % 11))

/-- The 22 packed bytes of sixteen channels (R82). -/
def packChans (f : ChannelFrame) : List Byte := (List.range 22).map (packByte f)

/-! ## Big-endian fields of telemetry records -/

/-- Unsigned 16-bit field at payload index `a` (R89). -/
def be16 (p : List Byte) (a : Nat) : BitVec 16 := byteAt p a ++ byteAt p (a + 1)

/-- Unsigned 24-bit field at payload index `a` (R89). -/
def be24 (p : List Byte) (a : Nat) : BitVec 24 := byteAt p a ++ byteAt p (a + 1) ++ byteAt p (a + 2)

/-- Unsigned 32-bit field at payload index `a` (R89). -/
def be32 (p : List Byte) (a : Nat) : BitVec 32 :=
  byteAt p a ++ byteAt p (a + 1) ++ byteAt p (a + 2) ++ byteAt p (a + 3)

/-! ## CRC8 -/

/-- One of the eight bit steps of R159. -/
def crcBit (poly c : Byte) : Byte := if c.getLsbD 7 then (c <<< 1) ^^^ poly else c <<< 1

/-- `n` bit steps. -/
def crcBits (poly : Byte) : Nat → Byte → Byte
  | 0, c => c
  | n + 1, c => crcBits poly n (crcBit poly c)

/-- One byte of R159: exclusive-or it in, then eight bit steps. -/
def crcByte (poly c x : Byte) : Byte := crcBits poly 8 (c ^^^ x)

/-- `crc8(s)` (R159) under the configured polynomial and start value. -/
def crc8 (c : Config) (s : List Byte) : Byte := s.foldl (crcByte c.crcPoly) c.crcInit

/-- The table entry `T[x] = crc8([x])` of R161, which is stated for start value 0. -/
def crcTable (poly x : Byte) : Byte := crcByte poly 0 x

/-! ## The tick word -/

/-- `G`: bits 27..18 of `TW`, saturated at `AMT_MAX` (R100, R211). -/
def gasAmount (c : Config) (tw : BitVec 28) : Nat := min (tw.extractLsb' 18 10).toNat c.amtMax

/-- `B`: bits 17..8 of `TW`, saturated at `AMT_MAX` (R100, R211). -/
def brakeAmount (c : Config) (tw : BitVec 28) : Nat := min (tw.extractLsb' 8 10).toNat c.amtMax

/-- `REV`: bit 7 of `TW` (R100). -/
def revButton (tw : BitVec 28) : Bool := tw.getLsbD 7

/-- `GB[k]`: bit `k` of `TW`, k in 0..6 (R100). -/
def gearButton (tw : BitVec 28) (k : Nat) : Bool := tw.getLsbD k

/-- `select_gear`: the first active gear-button slot, else reverse, else neutral (R213). -/
def selectGear (tw : BitVec 28) : Int :=
  match (List.range 7).find? (gearButton tw) with
  | some k => (k : Int)
  | none => if revButton tw then -1 else 0

/-- The pedal classes of R214. -/
inductive Pedals where
  | idle | throttle | brake
deriving DecidableEq, Repr

/-- The pedal class of a pair of saturated amounts (R214). -/
def classify (c : Config) (g b : Nat) : Pedals :=
  if g ≤ c.noiseThr ∧ b ≤ c.noiseThr then .idle
  else if b < g then .throttle
  else .brake

/-! ## Scaling -/

/-- `rdiv(a, b)`: the quotient rounded to the nearest integer, halves up (R13). -/
def rdiv (a b : Nat) : Nat := (2 * a + b) / (2 * b)

/-- The configuration function `scale` (R13): `rdiv`, or the floor or the ceiling of the quotient, which are the only
integers within 1 of it; which one is a free value (log 11). -/
def Config.scaled (c : Config) (a b : Nat) : Nat :=
  match c.scale with
  | .halfUp => rdiv a b
  | .withinOne => if a % b = 0 then a / b else a / b + (Config.roundsUp a b).toNat

/-- `up(a, g)`: an amount in gear `g` mapped to the upper half range `UP = MAX - MID` (R215). R13 divides by a positive number
only; under `AMT_MAX` = 0 both amounts are 0 and every tick is idle or in gear 0 (R214, R217), so no tick asks for it. -/
def scaleUp (c : Config) (a g : Nat) : Nat := Config.scaled c ((chMax - chMid) * a * g) (c.amtMax * gearMax)

/-- `dn(a)`: an amount mapped to the lower half range `DN = MID - MIN` (R215). -/
def scaleDown (c : Config) (a : Nat) : Nat := Config.scaled c ((chMid - chMin) * a) c.amtMax

/-- `clamp(d, MIN, MAX)` as a channel value (R12, R233). -/
def clampDrive (d : Int) : Chan := BitVec.ofNat 11 (max (chMin : Int) (min d (chMax : Int))).toNat

end Sys2Proof.Machine
end

