-- ==== Sys2Proof/Machine/Flags.lean ====
section
/-!
DEFINITION. The flag computations: the flags byte of a wire frame (spec 30_encoding.md R84), the priority flag
(44_esc_state_machine.md R232), and the outcome codes with their error class (60_exceptions.md R271).
-/
namespace Sys2Proof.Machine

/-- One flag at its bit position in byte 23. -/
def flagAt (b : Bool) (pos : Nat) : Byte := (BitVec.ofBool b).setWidth 8 <<< pos

/-- The flags byte `w[23]` that `ENC` writes (R84). -/
def flagsByte (c : Config) (f : ChannelFrame) : Byte :=
  flagAt f.ch17 c.fbCh17 ||| flagAt f.ch18 c.fbCh18 ||| flagAt f.lost c.fbLost ||| flagAt f.fs c.fbFs

/-- The frame with the four flags of a flags byte (R84): every other bit of the byte is ignored. -/
def withFlags (c : Config) (x : Byte) (ch : Vector Chan 16) : ChannelFrame :=
  ⟨ch, x.getLsbD c.fbCh17, x.getLsbD c.fbCh18, x.getLsbD c.fbLost, x.getLsbD c.fbFs⟩

/-- `ESC_PRIO` of a tick: 1 exactly when the tick changes the phase (R232). -/
def prioFlag (old new : Phase) : Bool := decide (new ≠ old)

/-- The code of a `FormatError` (R271). -/
def FormatError.code : FormatError → BitVec 8
  | .badLength _ => 0x01
  | .badStart _ => 0x02
  | .badEnd _ => 0x03

/-- The numeric code of an outcome (R271). -/
def Event.code : Event → BitVec 8
  | .formatError e => e.code
  | .dropped _ => 0x10
  | .decodeFail _ => 0x11
  | .badLength _ => 0x20
  | .invalidCrc8 _ _ => 0x21
  | .frameLength _ _ => 0x22
  | .none => 0x40
  | .frame _ => 0x41
  | .skipped _ => 0x42
  | .ignored _ => 0x43
  | .record _ => 0x44
  | .tick _ _ => 0x45
  | .wire _ => 0x46
  | .decoded _ => 0x47

/-- The error outcomes: codes 0x01 to 0x3F (R271). -/
def Event.isError (e : Event) : Bool := decide (1 ≤ e.code.toNat ∧ e.code.toNat ≤ 0x3F)

end Sys2Proof.Machine
end

