-- ==== Sys2Proof/Machine/Ops.lean ====
section
/-!
DEFINITION. The named operations over buffers, slots and events: `MemRead` and `MemWrite` (spec 00_scope.md R10,
20_memory.md R60), the slot write (10_state.md R40), the reads of the environment (20_memory.md R67), the event
output of an operation, which is also how an error outcome is taken (60_exceptions.md R270), and the fetch of the
next port event.
-/
namespace Sys2Proof.Machine

/-! ## Buffers -/

/-- One byte of a buffer. -/
def Memory.read : Memory → Nat → Byte
  | [], _ => Memory.blank
  | (k, v) :: m, a => if k = a then v else Memory.read m a

/-- Write one byte of a buffer, keeping addresses rising and no cell that equals what an unlisted address reads as. -/
def Memory.write : Memory → Nat → Byte → Memory
  | [], a, v => if v = Memory.blank then [] else [(a, v)]
  | (k, x) :: m, a, v =>
    if a < k then (if v = Memory.blank then (k, x) :: m else (a, v) :: (k, x) :: m)
    else if a = k then (if v = Memory.blank then m else (a, v) :: m)
    else (k, x) :: Memory.write m a v

/-- `MemRead(B, a, n)`: the `n` bytes from address `a` (R10). -/
def Memory.readN (m : Memory) (a n : Nat) : List Byte := (List.range n).map (fun k => m.read (a + k))

/-- `MemWrite(B, a, n, s)`: the bytes of `s` from address `a` on (R10). -/
def Memory.writeN (m : Memory) (a : Nat) : List Byte → Memory
  | [] => m
  | x :: s => Memory.writeN (m.write a x) (a + 1) s

/-- The canonical form: addresses strictly rising, no cell equal to what an unlisted address reads as. -/
def Memory.wf : Memory → Bool
  | [] => true
  | (k, v) :: m => decide (v ≠ Memory.blank) && m.all (fun c => decide (k < c.1)) && Memory.wf m

/-- Every listed address lies in a buffer of `n` bytes (20_memory.md R60, R64). -/
def Memory.within (n : Nat) (m : Memory) : Bool := m.all (fun c => decide (c.1 < n))

/-- Size of `FR_BUF` (R43). -/
abbrev frBufSize : Nat := frameLen

/-- Size of `TP_BUF` (R44). -/
abbrev tpBufSize : Nat := tlmMaxLen

/-! ## Events -/

/-- The event output of an operation (R11). Taking an error outcome is this and nothing more: nothing is saved, no
control is transferred, there is no handler and no return operation (R270). -/
def State.emit (s : State) (e : Event) : State := { s with out := e }

/-- The next state of an operation that ends with event output `e`. -/
def done (s : State) (e : Event) : Result := .next (s.emit e)

/-! ## Framers and slots -/

/-- Replace framer instance `i`. -/
def State.setFramer (s : State) (i : Nat) (f : Framer) : State := { s with fr := s.fr.set i f }

/-- Replace slot `TS.K`. -/
def Slots.put (ts : Slots) (k : Kind) (x : Slot) : Slots :=
  match k with
  | .chan => { ts with chan := x }
  | .gps => { ts with gps := x }
  | .vario => { ts with vario := x }
  | .batt => { ts with batt := x }
  | .baro => { ts with baro := x }
  | .link => { ts with link := x }
  | .lrx => { ts with lrx := x }
  | .ltx => { ts with ltx := x }
  | .att => { ts with att := x }
  | .fmode => { ts with fmode := x }

/-- The common part of every record decoder (43_telemetry_records.md R180): payload and valid bit written together, event
`Record(K)` (R168). A payload of another length is refused: the length was tested before a decoder is invoked (log 8). -/
def recordInto (k : Kind) (p : List Byte) (s : State) : Result :=
  if p.length = s.cfg.lenOf k then done { s with ts := s.ts.put k ⟨true, p⟩ } (.record k)
  else .refused (.payloadLength k p.length)

/-! ## Reads of the environment (R67) -/

/-- The environment's read of `RXF[i]` with its flags. -/
def readRxf (s : State) (i : Nat) : Option ChannelFrame := (s.fr[i]?).map (·.rxf)

/-- The environment's read of slot `TS.K`. -/
def readSlot (s : State) (k : Kind) : Slot := s.ts.get k

/-- The environment's read of the four `ESC_*` registers together. -/
def readEsc (s : State) : Esc := s.esc

/-! ## Fetching the next port event -/

/-- What the next step finds on the ports. -/
inductive Fetched where
  /-- no event is pending: the block keeps its state (70_reset_and_hazards.md R305, 60_exceptions.md R288; log 4) -/
  | idle
  /-- an operation, and the state with its bytes consumed -/
  | run (i : Instr) (s : State)
  /-- a question the hardware cannot be asked (R283) -/
  | refuse (r : Refusal)

/-- The next port event of the schedule (R102), after the check of the configuration that R283 allows (log 10). -/
def fetch (s : State) : Fetched :=
  if s.cfg.ok then
    match s.input with
    | [] => .idle
    | b :: bs =>
      match decodePort (b :: bs) with
      | .ok (i, rest) => .run i { s with input := rest }
      | .error e => .refuse (.badEvent e)
  else .refuse .illegalConfig

end Sys2Proof.Machine
end

