-- ==== Sys2Proof/Machine/EscMachine.lean ====
section
/-!
DEFINITION. The ESC (throttle / brake / reverse) State Machine: `ESC.TICK` (spec 44_esc_state_machine.md R210 to R238).
The drive value is computed as an exact integer and clamped at the end (R233).
-/
namespace Sys2Proof.Machine

/-- `MID` as an integer. -/
def midI : Int := chMid

/-- Gear-less mode (R228 to R231): the new phase and the drive value. -/
def gearlessTick (c : Config) (g b : Nat) : Phase × Int :=
  match classify c g b with
  | .idle => (.forward, midI)
  | .throttle => (.forward, midI + scaleUp c g gearMax)
  | .brake => (.brake, midI - scaleDown c b)

/-- Gear -1 (R219 to R223, and R218 when idle in `Forward`). -/
def reverseGearTick (c : Config) (ph : Phase) (g b : Nat) : Phase × Int :=
  match classify c g b, ph with
  | .idle, .forward => (.forward, midI)
  | .idle, .brake => (.forward, midI + c.nudge)
  | .idle, .reverse => (.forward, midI + c.nudge)
  | .throttle, .forward => (.brake, c.brakePulse)
  | .throttle, .brake => (.reverse, midI)
  | .throttle, .reverse => (.reverse, midI - scaleDown c g)
  | .brake, _ => (.brake, midI + scaleUp c b gearMax)

/-- A forward gear 1..6 (R218, R219, R224 to R227). -/
def forwardGearTick (c : Config) (ph : Phase) (gear g b : Nat) : Phase × Int :=
  match classify c g b with
  | .idle => (.forward, if ph = .forward then midI else midI + c.nudge)
  | .throttle => (.forward, midI + scaleUp c g gear)
  | .brake =>
    let d := midI - scaleDown c b
    (if d < midI - c.hyst then .brake else ph, d)

/-- Gear-aware mode in the order of R216: the gear, then idle, then dominance. Gear 0 holds the phase (R217). -/
def gearAwareTick (c : Config) (ph : Phase) (gear : Int) (g b : Nat) : Phase × Int :=
  if gear = 0 then (ph, midI)
  else if gear = -1 then reverseGearTick c ph g b
  else forwardGearTick c ph gear.toNat g b

/-- The new phase and the drive value of a tick (R210). -/
def tickTarget (c : Config) (ph : Phase) (tw : BitVec 28) : Phase × Int :=
  if c.gearMode then gearAwareTick c ph (selectGear tw) (gasAmount c tw) (brakeAmount c tw)
  else gearlessTick c (gasAmount c tw) (brakeAmount c tw)

/-- `ESC_GEAR` after a tick: the selected gear in gear-aware mode (R213), never written in gear-less mode (R231). -/
def tickGear (c : Config) (old : BitVec 4) (tw : BitVec 28) : BitVec 4 :=
  if c.gearMode then BitVec.ofInt 4 (selectGear tw) else old

/-- The ESC registers after a tick (R210, R232, R233). -/
def Esc.tick (c : Config) (e : Esc) (tw : BitVec 28) : Esc where
  phase := (tickTarget c e.phase tw).1
  gear := tickGear c e.gear tw
  drive := clampDrive (tickTarget c e.phase tw).2
  prio := prioFlag e.phase (tickTarget c e.phase tw).1

/-- `ESC.TICK TW` (R210): total, event `Tick(drive, prio)`. -/
def execEscTick (tw : BitVec 28) (s : State) : Result :=
  let e := s.esc.tick s.cfg tw
  done { s with esc := e } (.tick e.drive e.prio)

end Sys2Proof.Machine
end

