-- ==== Sys2Proof/Machine/ResetUnit.lean ====
section
/-!
DEFINITION. The reset operation `RST` (spec 70_reset_and_hazards.md R300 to R304).
-/
namespace Sys2Proof.Machine

/-- `RST` (R300): every register at its reset value in one step; the parameters are not touched; event `None`. The
events still pending on the ports are the environment's and stay (log 18). -/
def execRst (s : State) : Result := done { State.resetAt s.cfg with input := s.input } .none

end Sys2Proof.Machine
end

