-- ==== Sys2Proof/Machine/Codec.lean ====
section
/-!
DEFINITION. The Frame Codec: `ENC` and `DEC` (spec 40_frame_codec.md R110 to R121).
-/
namespace Sys2Proof.Machine

/-- The 25-byte wire frame of a Channel Frame (R110; layout R81, R82, R84). -/
def encFrame (c : Config) (f : ChannelFrame) : List Byte :=
  c.startMark :: (packChans f ++ [flagsByte c f, c.endMark])

/-- The Channel Frame of 25 bytes whose markers have been tested (R112): channels from bytes 1..22, flags from byte 23. -/
def unpackFrame (c : Config) (s : List Byte) : ChannelFrame :=
  withFlags c (byteAt s 23) (vec16 (unpackChan (s.drop 1)))

/-- `DEC s` as a function (R112), the checks in the order of R116. -/
def decFrame (c : Config) (s : List Byte) : Except FormatError ChannelFrame :=
  if s.length ≠ frameLen then .error (.badLength s.length)
  else if byteAt s 0 ≠ c.startMark then .error (.badStart (byteAt s 0))
  else if byteAt s 24 ≠ c.endMark then .error (.badEnd (byteAt s 24))
  else .ok (unpackFrame c s)

/-- The event output of a `DEC` request (R271). -/
def decEvent : Except FormatError ChannelFrame → Event
  | .ok f => .decoded f
  | .error e => .formatError e

/-- `ENC f` (R110): no state is read but the parameters, none is written; total. -/
def execEnc (f : ChannelFrame) (s : State) : Result := done s (.wire (encFrame s.cfg f))

/-- `DEC s` (R112): no state is read but the parameters, none is written. -/
def execDec (w : List Byte) (s : State) : Result := done s (decEvent (decFrame s.cfg w))

end Sys2Proof.Machine
end

