-- ==== Sys2Proof/Machine/StreamFramer.lean ====
section
/-!
DEFINITION. The Stream Framer: `FR.PUSH` (spec 41_stream_framer.md R130 to R143).
-/
namespace Sys2Proof.Machine

/-- The address of `FR_BUF` that a pushed byte is stored to: 0 for a start marker met while searching (R132), `FR_CNT`
while accumulating (R130, R133); a discarded byte is stored nowhere (R131). -/
def Framer.storeAddr (c : Config) (f : Framer) (b : Byte) : Option Nat :=
  match f.st with
  | .searching => if b = c.startMark then some 0 else none
  | .accumulating => some f.cnt.toNat

/-- The framer with the pushed byte stored. -/
def Framer.stored (c : Config) (f : Framer) (b : Byte) : Framer :=
  match f.storeAddr c b with
  | some a => { f with buf := f.buf.write a b }
  | none => f

/-- The 25th byte (R134): the end marker is tested first (R136), then `DEC` of the 25 buffered bytes (R135, R137). In every
outcome the framer ends in `Searching` with `FR_CNT = 0`. `f` is the framer before the push. -/
def Framer.complete (c : Config) (f : Framer) (b : Byte) : Framer × Event :=
  let g : Framer := { f.stored c b with st := .searching, cnt := 0 }
  if b ≠ c.endMark then (g, .dropped b)
  else
    match decFrame c (f.buf.readN 0 24 ++ [b]) with
    | .ok fr => ({ g with rxf := fr }, .frame fr)
    | .error e => (g, .decodeFail e)

/-- One byte pushed to a framer (R130); `none` when `FR_CNT` points outside `FR_BUF` (log 9). -/
def Framer.push (c : Config) (f : Framer) (b : Byte) : Option (Framer × Event) :=
  match f.st with
  | .searching =>
    if b = c.startMark then some ({ f.stored c b with st := .accumulating, cnt := 1 }, .none)
    else some (f, .none)
  | .accumulating =>
    if frBufSize ≤ f.cnt.toNat then none
    else if f.cnt.toNat + 1 < frameLen then some ({ f.stored c b with cnt := f.cnt + 1 }, .none)
    else some (f.complete c b)

/-- `FR.PUSH[i] b` (R130). An instance `i >= N_RC` is refused (R283). -/
def execFrPush (i : Nat) (b : Byte) (s : State) : Result :=
  match s.fr[i]? with
  | none => .refused (.noSuchInstance i)
  | some f =>
    match f.push s.cfg b with
    | none => .fault (.outsideBuffer f.cnt.toNat)
    | some (g, e) => done (s.setFramer i g) e

end Sys2Proof.Machine
end

