-- ==== Sys2Proof/Machine/Records.lean ====
section
/-!
DEFINITION. The ten record decoders `TR.*` (spec 43_telemetry_records.md R180 to R203): each writes its own slot.
-/
namespace Sys2Proof.Machine

/-- `TR.GPS P` (R183, R180). -/
def execTrGps (p : List Byte) (s : State) : Result := recordInto .gps p s

/-- `TR.VARIO P` (R185, R180). -/
def execTrVario (p : List Byte) (s : State) : Result := recordInto .vario p s

/-- `TR.BATT P` (R187, R180). -/
def execTrBatt (p : List Byte) (s : State) : Result := recordInto .batt p s

/-- `TR.BARO P` (R189, R180). -/
def execTrBaro (p : List Byte) (s : State) : Result := recordInto .baro p s

/-- `TR.LINK P` (R191, R180). -/
def execTrLink (p : List Byte) (s : State) : Result := recordInto .link p s

/-- `TR.CHAN P` (R181, R180): it does not write `RXF` (R182). -/
def execTrChan (p : List Byte) (s : State) : Result := recordInto .chan p s

/-- `TR.LRX P` (R194, R180). -/
def execTrLrx (p : List Byte) (s : State) : Result := recordInto .lrx p s

/-- `TR.LTX P` (R196, R180). -/
def execTrLtx (p : List Byte) (s : State) : Result := recordInto .ltx p s

/-- `TR.ATT P` (R198, R180). -/
def execTrAtt (p : List Byte) (s : State) : Result := recordInto .att p s

/-- `TR.FMODE P` (R201, R180). -/
def execTrFmode (p : List Byte) (s : State) : Result := recordInto .fmode p s

/-- The decoder of a kind: how `TP.PUSH` invokes `TR.K` (42_telemetry_parser.md R168). -/
def runRecord (k : Kind) (p : List Byte) (s : State) : Result :=
  match k with
  | .chan => execTrChan p s
  | .gps => execTrGps p s
  | .vario => execTrVario p s
  | .batt => execTrBatt p s
  | .baro => execTrBaro p s
  | .link => execTrLink p s
  | .lrx => execTrLrx p s
  | .ltx => execTrLtx p s
  | .att => execTrAtt p s
  | .fmode => execTrFmode p s

end Sys2Proof.Machine
end

