-- ==== Sys2Proof/Machine/Telemetry.lean ====
section
/-!
DEFINITION. The Telemetry Parser: `TP.PUSH` (spec 42_telemetry_parser.md R150 to R172).
-/
namespace Sys2Proof.Machine

/-- `finish(blk)` with `blk = body ++ [got]` (R158): the CRC first (R162), then a missing tag (R164), an unrecognised tag
(R166), a wrong payload length (R167), and last the record decoder (R168). -/
def finishBlock (body : List Byte) (got : Byte) (s : State) : Result :=
  if got ≠ crc8 s.cfg body then done s (.invalidCrc8 got (crc8 s.cfg body))
  else
    match body with
    | [] => done s (.ignored none)
    | tag :: p =>
      match kindOf s.cfg tag with
      | none => done s (.ignored (some tag))
      | some k =>
        if p.length ≠ s.cfg.lenOf k then done s (.frameLength k p.length)
        else runRecord k p s

/-- The address of `TP_BUF` that a pushed byte is stored to: `TP_CNT` while a block is read (R150), else nowhere. -/
def Parser.storeAddr (p : Parser) : Option Nat :=
  match p.st with
  | .addr => none
  | .len => none
  | .block => some p.cnt.toNat

/-- The parser with the pushed byte stored. -/
def Parser.stored (p : Parser) (b : Byte) : Parser :=
  match p.storeAddr with
  | some a => { p with buf := p.buf.write a b }
  | none => p

/-- The block bytes before the last one: `TP_BUF[0 .. TP_LEN-2]` (R150). -/
def Parser.body (p : Parser) : List Byte := p.buf.readN 0 (p.len.toNat - 1)

/-- The parser after the last byte of a block (R157). -/
def Parser.closed (p : Parser) (b : Byte) : Parser := { p.stored b with st := .addr, cnt := 0 }

/-- `TP.PUSH b` (R150), by the three states of R151. -/
def execTpPush (b : Byte) (s : State) : Result :=
  match s.tp.st with
  | .addr =>
    if b ∈ s.cfg.addrSet then done { s with tp := { s.tp with addr := b, st := .len } } .none
    else done s (.skipped b)
  | .len =>
    if b = 0 ∨ tlmMaxLen < b.toNat then done { s with tp := { s.tp with st := .addr } } (.badLength b)
    else done { s with tp := { s.tp with len := b.setWidth 6, cnt := 0, st := .block } } .none
  | .block =>
    if tpBufSize ≤ s.tp.cnt.toNat then .fault (.outsideBuffer s.tp.cnt.toNat)
    else if s.tp.cnt.toNat + 1 < s.tp.len.toNat then
      done { s with tp := { s.tp.stored b with cnt := s.tp.cnt + 1 } } .none
    else finishBlock s.tp.body b { s with tp := s.tp.closed b }

/-- The state just before the last byte of a message with this tag and a payload of zeros: the parser has collected the
message body and the CRC8 byte is the pending input (used to place a type-tag word of the opcode table, log 7). -/
def State.messagePending (s : State) (tag : Byte) : State :=
  match kindOf s.cfg tag with
  | none => s
  | some k =>
    let body := tag :: List.replicate (s.cfg.lenOf k) 0x00
    { s with
      tp := { s.tp with
        st := .block
        len := BitVec.ofNat 6 (body.length + 1)
        cnt := BitVec.ofNat 6 body.length
        buf := Memory.writeN [] 0 body }
      input := encode s.cfg (.tpPush (crc8 s.cfg body)) }

end Sys2Proof.Machine
end

