-- ==== Sys2Proof/Machine/Dispatch.lean ====
section
/-!
DEFINITION. The meaning of every operation of the opcode table, one arm per constructor of `Instr`.
-/
namespace Sys2Proof.Machine

def exec (i : Instr) (s : State) : Host.Outcome State Fault Refusal :=
  match i with
  | .enc f => Sys2Proof.Machine.execEnc f s
  | .dec w => Sys2Proof.Machine.execDec w s
  | .frPush n b => Sys2Proof.Machine.execFrPush n b s
  | .tpPush b => Sys2Proof.Machine.execTpPush b s
  | .escTick tw => Sys2Proof.Machine.execEscTick tw s
  | .rst => Sys2Proof.Machine.execRst s
  | .trGps p => Sys2Proof.Machine.execTrGps p s
  | .trVario p => Sys2Proof.Machine.execTrVario p s
  | .trBatt p => Sys2Proof.Machine.execTrBatt p s
  | .trBaro p => Sys2Proof.Machine.execTrBaro p s
  | .trLink p => Sys2Proof.Machine.execTrLink p s
  | .trChan p => Sys2Proof.Machine.execTrChan p s
  | .trLrx p => Sys2Proof.Machine.execTrLrx p s
  | .trLtx p => Sys2Proof.Machine.execTrLtx p s
  | .trAtt p => Sys2Proof.Machine.execTrAtt p s
  | .trFmode p => Sys2Proof.Machine.execTrFmode p s

end Sys2Proof.Machine
end

