-- ==== Sys2Proof/Machine/Step.lean ====
section
/-!
DEFINITION. One step of the model: the next port event of the schedule, decoded and executed as one atomic operation
(spec 20_memory.md R66, 30_encoding.md R102), and the placing of an opcode-table word where the next step finds it.
-/
namespace Sys2Proof.Machine

/-- One step. With no event pending the block keeps its state and outputs no event (log 4). -/
def step (s : State) : Host.Outcome State Fault Refusal :=
  match fetch s with
  | .idle => done s .none
  | .run i t => exec i t
  | .refuse r => .refused r

/-- The table word placed where `step` finds it (log 7). A port word becomes the pending input. A type-tag word names a
record decoder, which only a message can select (43_telemetry_records.md R180): the parser is put in the middle of
that message, tag and zero payload collected, and the message's last byte, its CRC8, becomes the pending input. -/
def State.withFetchWord (s : State) (nbits w : Nat) : State :=
  match tableFormat s.cfg nbits w with
  | .port => { s with input := tableBytes nbits w }
  | .tlm => s.messagePending (BitVec.ofNat 8 w)

end Sys2Proof.Machine
end

