-- ==== Sys2Proof/Machine/Views.lean ====
section
/-!
DEFINITION. The typed views of the telemetry slots (spec 43_telemetry_records.md): pure functions of the payload,
meaningful only when the slot is valid (R180, 10_state.md R41). Nothing of the machine reads them. Layouts the source
does not give are the spec's from general knowledge (93_implementation_defined.md U16; log 13). The spec gives each view
at the default `LEN_K` only; what a view is at another `LEN_K` is the model's choice, made in `Slot.view` (log 21).
-/
namespace Sys2Proof.Machine

/-- A view of a slot whose layout takes the first `n` payload bytes: no value while `V = 0` (R41). DESIGN CHOICE (log 21):
no value either where `LEN_K` is configured shorter than the layout, and where it is longer the bytes after the layout
play no part; the spec says neither. -/
def Slot.view {α : Type} (n : Nat) (f : List Byte → α) (x : Slot) : Option α :=
  if x.v ∧ n ≤ x.p.length then some (f x.p) else none

/-- Payload bytes of the layout of each view: the default lengths of R181, R183, R185, R187, R189, R191, R194, R196, R198;
the flight-mode text takes whatever the payload holds (R201). -/
def layoutLen : Kind → Nat
  | .chan => 22
  | .gps => 15
  | .vario => 2
  | .batt => 8
  | .baro => 2
  | .link => 10
  | .lrx => 5
  | .ltx => 6
  | .att => 6
  | .fmode => 0

/-- The view `f` of slot `TS.K`. -/
def Slots.view {α : Type} (ts : Slots) (k : Kind) (f : List Byte → α) : Option α := (ts.get k).view (layoutLen k) f

/-! ## Channels (R181) -/

/-- `TS.CHAN.ch[n]`: the LSB-first bitstream over the 22 payload bytes. -/
def chanView (p : List Byte) : Vector Chan 16 := vec16 (unpackChan p)

/-! ## GPS (R183, R184) -/

/-- The GPS fields. -/
structure GpsView where
  lat : Int
  lon : Int
  gspd : Nat
  hdg : Nat
  alt : Nat
  sats : Nat
deriving DecidableEq, Repr

/-- The GPS view (R183; positions from general knowledge). -/
def gpsView (p : List Byte) : GpsView where
  lat := (be32 p 0).toInt
  lon := (be32 p 4).toInt
  gspd := (be16 p 8).toNat
  hdg := (be16 p 10).toNat
  alt := (be16 p 12).toNat
  sats := (byteAt p 14).toNat

/-- Latitude or longitude in degrees from the raw integer, as an exact rational (R184; log 14). -/
def gpsDegrees (raw : Int) : Rat := (raw : Rat) / 10000000

/-! ## Vario (R185) -/

/-- `vspd_raw`, cm/s. -/
def varioView (p : List Byte) : Int := (be16 p 0).toInt

/-! ## Battery (R187, R188: no scaled view) -/

/-- The battery fields. -/
structure BattView where
  volt : Nat
  curr : Nat
  cap : Nat
  remain : Nat
deriving DecidableEq, Repr

/-- The battery view (R187; positions from general knowledge). -/
def battView (p : List Byte) : BattView where
  volt := (be16 p 0).toNat
  curr := (be16 p 2).toNat
  cap := (be24 p 4).toNat
  remain := (byteAt p 7).toNat

/-! ## Barometer (R189) -/

/-- `alt_raw`, the packed altitude. -/
def baroView (p : List Byte) : Nat := (be16 p 0).toNat

/-! ## Link stats (R191 to R193) -/

/-- The link-stats fields. -/
structure LinkView where
  upRssi1 : Nat
  upRssi2 : Nat
  upLq : Nat
  upSnr : Int
  ant : Nat
  rfMode : Nat
  txPwr : Nat
  dnRssi : Nat
  dnLq : Nat
  dnSnr : Int
deriving DecidableEq, Repr

/-- The link-stats view (R191; positions from general knowledge). -/
def linkView (p : List Byte) : LinkView where
  upRssi1 := (byteAt p 0).toNat
  upRssi2 := (byteAt p 1).toNat
  upLq := (byteAt p 2).toNat
  upSnr := (byteAt p 3).toInt
  ant := (byteAt p 4).toNat
  rfMode := (byteAt p 5).toNat
  txPwr := (byteAt p 6).toNat
  dnRssi := (byteAt p 7).toNat
  dnLq := (byteAt p 8).toNat
  dnSnr := (byteAt p 9).toInt

/-- The RSSI in dBm of an RSSI field with raw value `u`: `-u` (R192). -/
def rssiDbm (u : Nat) : Int := -(u : Int)

/-- `tx_pwr_mw`: the table entry, no value for an index above 7 (R193). -/
def txPowerMw (idx : Nat) : Option Nat := txPwrTable[idx]?

/-! ## Link-rx and link-tx (R194, R196) -/

/-- The link-rx fields; link-tx has them too. -/
structure LrxView where
  rssiDb : Nat
  rssiPct : Nat
  lq : Nat
  snr : Int
  rfPwrDb : Nat
deriving DecidableEq, Repr

/-- The link-rx view (R194; positions from general knowledge). -/
def lrxView (p : List Byte) : LrxView where
  rssiDb := (byteAt p 0).toNat
  rssiPct := (byteAt p 1).toNat
  lq := (byteAt p 2).toNat
  snr := (byteAt p 3).toInt
  rfPwrDb := (byteAt p 4).toNat

/-- The link-tx view: the five fields of link-rx and `fps` (R196; positions from general knowledge). -/
def ltxView (p : List Byte) : LrxView × Nat := (lrxView p, (byteAt p 5).toNat)

/-! ## Attitude (R198 to R200) -/

/-- The attitude fields, radians times 10000. -/
structure AttView where
  pitch : Int
  roll : Int
  yaw : Int
deriving DecidableEq, Repr

/-- The attitude view: three signed 16-bit big-endian fields (R198). -/
def attView (p : List Byte) : AttView where
  pitch := (be16 p 0).toInt
  roll := (be16 p 2).toInt
  yaw := (be16 p 4).toInt

/-- The exact degree value `d` of a raw angle: `raw / 10000 * (180 / pi)` (R199; log 14). -/
def IsDegrees (raw : Int) (d : Real) : Prop := d = (raw : Real) / 10000 * (180 / Real.pi)

/-! ## Flight mode (R201) -/

/-- `text`: the bytes before the first 0x00, or all of them. -/
def fmodeView (p : List Byte) : List Byte := p.takeWhile (fun x => decide (x ≠ 0x00))

end Sys2Proof.Machine
end

