-- ==== Sys2Proof/Machine/Schedule.lean ====
section
/-!
DEFINITION. Schedules (spec 30_encoding.md R102, 70_reset_and_hazards.md R305): lists of operations executed in order,
the event list of a run, and the pseudo-operations, each an abbreviation and nothing more.
-/
namespace Sys2Proof.Machine

/-- A schedule executed in order: the end state and the event outputs in schedule order (R305); no value if an operation
stops. -/
def runSchedule : List Instr → State → Option (State × List Event)
  | [], s => some (s, [])
  | i :: is, s =>
    match exec i s with
    | .next t =>
      match runSchedule is t with
      | some (u, es) => some (u, t.out :: es)
      | none => none
    | .fault _ => none
    | .refused _ => none

/-- `FR.STREAM[i]` (R102). -/
def frStream (i : Nat) (s : List Byte) : List Instr := s.map (Instr.frPush i)

/-- `TP.STREAM` (R102). -/
def tpStream (s : List Byte) : List Instr := s.map Instr.tpPush

/-- `FR.CHUNKS[i]`: a chunk boundary has no effect (R102, R139). -/
def frChunks (i : Nat) (chunks : List (List Byte)) : List Instr := frStream i chunks.flatten

/-- The event output of a stream: the list of the event outputs other than `None`, in order (R102). -/
def reported (es : List Event) : List Event := es.filter (fun e => decide (e ≠ .none))

/-- A schedule executed as a stream pseudo-operation: its end state and its event output (R102). -/
def runStream (is : List Instr) (s : State) : Option (State × List Event) :=
  (runSchedule is s).map (fun r => (r.1, reported r.2))

/-- `FR.STREAM[i]` executed (R102). -/
def runFrStream (i : Nat) (w : List Byte) (s : State) : Option (State × List Event) := runStream (frStream i w) s

/-- `TP.STREAM` executed (R102). -/
def runTpStream (w : List Byte) (s : State) : Option (State × List Event) := runStream (tpStream w) s

/-- `FR.CHUNKS[i]` executed (R102). -/
def runFrChunks (i : Nat) (chunks : List (List Byte)) (s : State) : Option (State × List Event) :=
  runStream (frChunks i chunks) s

/-- `ESC.IDLE` (R102). -/
def escIdle : Instr := .escTick 0

/-- The bytes of a schedule: its port events one after another (log 3). -/
def assemble (c : Config) (is : List Instr) : List Byte := is.flatMap (encode c)

/-- A whole telemetry message of kind `K` (30_encoding.md R85): address, length, tag, payload, crc8. -/
def tlmMessage (c : Config) (addr : Byte) (k : Kind) (p : List Byte) : List Byte :=
  let body := c.tagOf k :: p
  addr :: BitVec.ofNat 8 (p.length + 2) :: (body ++ [crc8 c body])

end Sys2Proof.Machine
end

