-- ==== Sys2Proof/Safety.lean ====
section
/-!
DEFINITION. What the claims about the block are stated in: the invariant of every state a run reaches (spec 10_state.md
R30, R33 to R35, R37, R39, R41; 20_memory.md R64), the agents that own the state (00_scope.md R5, 10_state.md R20),
and the classes of event outputs.
-/
namespace Sys2Proof.Machine

/-- The four flags have a bit of byte 23 each, as at R6's default positions. R6 does not ask it of a configuration; where two
flags share a bit, `ENC` writes the or of them (R84) and the round trip of R117 cannot tell them apart. -/
def flagsApart (c : Config) : Bool := decide ([c.fbCh17, c.fbCh18, c.fbLost, c.fbFs].Nodup)

/-- A framer as R30 and R43 say it is between operations; while accumulating, the first buffered byte is the start
marker that began the candidate (R132). -/
def Framer.wf (c : Config) (f : Framer) : Bool :=
  decide ((f.st = .searching ↔ f.cnt = 0) ∧ f.cnt.toNat ≤ 24 ∧
    (f.st = .accumulating → f.buf.read 0 = c.startMark)) &&
  f.buf.wf && f.buf.within frBufSize

/-- The parser as R33, R34 and R44 say it is between operations. -/
def Parser.wf (p : Parser) : Bool :=
  decide ((p.st = .block → 1 ≤ p.len.toNat ∧ p.len.toNat ≤ tlmMaxLen ∧ p.cnt.toNat < p.len.toNat) ∧
    p.cnt.toNat ≤ 61) &&
  p.buf.wf && p.buf.within tpBufSize

/-- Every slot holds a payload of exactly `LEN_K` bytes (R39). -/
def Slots.wf (c : Config) (ts : Slots) : Bool :=
  Kind.all.all (fun k => decide ((ts.get k).p.length = c.lenOf k))

/-- The ESC registers hold legal values (R37); in gear-less mode the gear keeps 0 (R38) and `Reverse` does not occur
(44_esc_state_machine.md R231). -/
def Esc.wf (c : Config) (e : Esc) : Bool :=
  decide (chMin ≤ e.drive.toNat ∧ e.drive.toNat ≤ chMax ∧ -1 ≤ e.gear.toInt ∧ e.gear.toInt ≤ 6 ∧
    (c.gearMode = false → e.gear = 0 ∧ e.phase ≠ .reverse))

/-- The invariant of the block: legal parameters (R6), `N_RC` framers (R20), and every unit as its rules say. -/
def State.inv (s : State) : Bool :=
  s.cfg.ok && decide (s.fr.length = s.cfg.nRc) && s.fr.all (Framer.wf s.cfg) && s.tp.wf && s.ts.wf s.cfg &&
    s.esc.wf s.cfg

/-- A step that does not fault. -/
def State.safe (s : State) : Prop := ∀ r, step s ≠ .fault r

/-- The agents of R5: the owner of the state an operation works on. -/
inductive Agent where
  | codec
  | framer (i : Nat)
  | parser
  | esc
  | reset
deriving DecidableEq, Repr

/-- The agent that executes an operation (R5); the record decoders are operations of the parser (30_encoding.md R101). -/
def agentOf : Instr → Agent
  | .enc _ => .codec
  | .dec _ => .codec
  | .frPush i _ => .framer i
  | .tpPush _ => .parser
  | .escTick _ => .esc
  | .rst => .reset
  | .trGps _ => .parser
  | .trVario _ => .parser
  | .trBatt _ => .parser
  | .trBaro _ => .parser
  | .trLink _ => .parser
  | .trChan _ => .parser
  | .trLrx _ => .parser
  | .trLtx _ => .parser
  | .trAtt _ => .parser
  | .trFmode _ => .parser

/-- A `Frame(f)` event output (60_exceptions.md R271, code 0x41). -/
def Event.isFrame (e : Event) : Bool := decide (e.code = 0x41)

end Sys2Proof.Machine
end

