-- ==== Sys2Proof/Certificates/Slice0/Obligations.lean ====
section
/-!
DEFINITION. The statements for the provers. Each says which rule of spec/ it formalises; one that rests on a choice of the
model names its log entry. Unless a statement says otherwise it holds for EVERY configuration that keeps the constraints
of 00_scope.md R6, so none rests on a default or reference value.
-/

open Sys2Proof Sys2Proof.Machine

/-! ## Encoding, decoding, step -/

/-- Decoding the words of a well-formed operation gives it back, with the bytes after it, in both formats (PORT, R101;
TLM, R85, R88). The byte layout of port operands is the model's choice (log 3). -/
def Obligations.DecodeOfEncodeIsTheOperation : Prop :=
  ∀ (c : Config) (i : Instr) (rest : List Byte), c.ok = true → i.wf c = true →
    decode c i.format (encode c i ++ rest) = .ok (i, rest)

/-- Words written out by hand decode to the operations they stand for: PSEL codes of R101, the fields of TW28 (R100) with
gear 3 and G = 410, and bodies of the reference tags (R88). Byte layout: log 3. -/
def Obligations.WrittenWordsDecodeToTheirOperations : Prop :=
  decodePort [0x02, 0x02, 0x0F, 0x00] = .ok (.dec [0x0F, 0x00], []) ∧
  decodePort [0x03, 0x00, 0x37] = .ok (.frPush 0 0x37, []) ∧
  decodePort [0x03, 0x82, 0x02, 0x37] = .ok (.frPush 258 0x37, []) ∧
  decodePort [0x04, 0xC8] = .ok (.tpPush 0xC8, []) ∧
  decodePort [0x05, 0x08, 0x00, 0x68, 0x06] = .ok (.escTick 0x6680008, []) ∧
  decodePort [0x0F] = .ok (.rst, []) ∧
  decodeBody Config.reference [0x07, 0xFF, 0x6A] = .ok (.trVario [0xFF, 0x6A], []) ∧
  decodeBody Config.reference [0x1E, 0x03, 0xE8, 0xF6, 0x3C, 0x3D, 0x5C] =
    .ok (.trAtt [0x03, 0xE8, 0xF6, 0x3C, 0x3D, 0x5C], [])

/-- A step runs the decoded operation: where the pending bytes decode to `i`, the step is `exec` of `i` on the state with
those bytes consumed, and nothing else (R66, R102; the pending bytes are log 3). -/
def Obligations.StepRunsTheDecodedOperation : Prop :=
  ∀ (s : State) (i : Instr) (rest : List Byte), s.cfg.ok = true → decodePort s.input = .ok (i, rest) →
    step s = exec i { s with input := rest }

/-- With nothing pending a step keeps every register (R288, R305); that this is a step at all is log 4. -/
def Obligations.StepWithNothingPendingKeepsTheState : Prop :=
  ∀ s : State, s.cfg.ok = true → s.input = [] → step s = .next { s with out := .none }

/-- Every stop of the model is by name, and the stops are these and no others. What `step` refuses: a configuration that
breaks R6; a reserved PSEL code (R101, R103); an operand wider than its port, in `PSEL`, `TW` or `ENC` (all four R283; the
byte form is log 3); bytes that are a proper beginning of an event (log 3). What `exec` refuses: a framer instance that does
not exist (R283), and a record decoder asked with a payload of another length than `LEN_K` (log 8). Where `exec` faults: a
count register that points outside its buffer (R64 says no rule does that; log 9). -/
def Obligations.StopsAreByName : Prop :=
  (∀ s : State, s.cfg.ok = false → step s = .refused .illegalConfig) ∧
  (∀ (s : State) (h : Byte) (t : List Byte), s.cfg.ok = true → s.input = h :: t →
    (h.toNat = 0 ∨ (6 ≤ h.toNat ∧ h.toNat ≤ 14) → step s = .refused (.badEvent (.reservedPsel h))) ∧
    (16 ≤ h.toNat → step s = .refused (.badEvent .operandTooWide))) ∧
  (∀ (s : State) (b0 b1 b2 b3 : Byte) (t : List Byte), s.cfg.ok = true →
    s.input = 0x05 :: b0 :: b1 :: b2 :: b3 :: t → 16 ≤ b3.toNat →
    step s = .refused (.badEvent .operandTooWide)) ∧
  (∀ (s : State) (w t : List Byte), s.cfg.ok = true → s.input = 0x01 :: (w ++ t) → w.length = 33 →
    ((∃ n, n < 16 ∧ 8 ≤ (byteAt w (2 * n + 1)).toNat) ∨ 16 ≤ (byteAt w 32).toNat) →
    step s = .refused (.badEvent .operandTooWide)) ∧
  (∀ (s : State) (i : Instr) (rest : List Byte), s.cfg.ok = true → i.format = .port → i.wf s.cfg = true →
    encode s.cfg i = s.input ++ rest → s.input ≠ [] → rest ≠ [] → step s = .refused (.badEvent .truncated)) ∧
  (∀ (s : State) (i : Nat) (b : Byte), s.fr.length ≤ i → exec (.frPush i b) s = .refused (.noSuchInstance i)) ∧
  (∀ (s : State) (k : Kind) (p : List Byte), p.length ≠ s.cfg.lenOf k →
    exec (Instr.ofRecord k p) s = .refused (.payloadLength k p.length)) ∧
  (∀ (s : State) (i : Nat) (f : Framer) (b : Byte), s.fr[i]? = some f → f.st = .accumulating → 25 ≤ f.cnt.toNat →
    exec (.frPush i b) s = .fault (.outsideBuffer f.cnt.toNat)) ∧
  (∀ (s : State) (b : Byte), s.tp.st = .block → 62 ≤ s.tp.cnt.toNat →
    exec (.tpPush b) s = .fault (.outsideBuffer s.tp.cnt.toNat)) ∧
  (∀ (s : State) (i : Instr) (r : Refusal), exec i s = .refused r →
    (∃ n b, i = .frPush n b ∧ s.fr.length ≤ n ∧ r = .noSuchInstance n) ∨
    (∃ k p, i = Instr.ofRecord k p ∧ p.length ≠ s.cfg.lenOf k ∧ r = .payloadLength k p.length)) ∧
  (∀ (s : State) (i : Instr) (r : Fault), exec i s = .fault r →
    (∃ n b f, i = .frPush n b ∧ s.fr[n]? = some f ∧ f.st = .accumulating ∧ 25 ≤ f.cnt.toNat ∧
      r = .outsideBuffer f.cnt.toNat) ∨
    (∃ b, i = .tpPush b ∧ s.tp.st = .block ∧ 62 ≤ s.tp.cnt.toNat ∧ r = .outsideBuffer s.tp.cnt.toNat)) ∧
  (∀ (s : State) (r : Refusal), step s = .refused r →
    (s.cfg.ok = false ∧ r = .illegalConfig) ∨
    (∃ e, s.cfg.ok = true ∧ s.input ≠ [] ∧ decodePort s.input = .error e ∧ r = .badEvent e ∧
      (e = .truncated ∨ e = .operandTooWide ∨ ∃ h, s.input.head? = some h ∧ e = .reservedPsel h)) ∨
    (∃ n b rest, s.cfg.ok = true ∧ decodePort s.input = .ok (.frPush n b, rest) ∧ s.fr.length ≤ n ∧
      r = .noSuchInstance n)) ∧
  (∀ (s : State) (r : Fault), step s = .fault r →
    ∃ i rest, s.cfg.ok = true ∧ decodePort s.input = .ok (i, rest) ∧ exec i { s with input := rest } = .fault r)

/-- A schedule of port events runs in order, one event a step (R102, R305): stepping the machine on the assembled bytes
reaches the end state of the schedule. The byte form is log 3. -/
def Obligations.AssembledScheduleRunsInOrder : Prop :=
  ∀ (is : List Instr) (s u : State) (es : List Event) (rest : List Byte), s.cfg.ok = true →
    (∀ i ∈ is, i.format = .port ∧ i.wf s.cfg = true) → s.input = assemble s.cfg is ++ rest →
    runSchedule is { s with input := rest } = some (u, es) →
    Host.Core.run Sys2Proof.core is.length s = .next u

/-! ## Frame Codec -/

/-- `ENC f` returns 25 bytes: `START`, the sixteen channels with stream bit `11n + j` equal to bit `j` of channel `n`, the
four flags shifted to their places in byte 23, `END`; no state changes. And the rule's example. -/
def Obligations.EncReturnsTheWireFrame : Prop :=
  (∀ (s : State) (f : ChannelFrame), ∃ w : List Byte,
    exec (.enc f) s = .next { s with out := .wire w } ∧ w.length = 25 ∧
    w[0]? = some s.cfg.startMark ∧ w[24]? = some s.cfg.endMark ∧
    w[23]? = some (((BitVec.ofBool f.ch17).setWidth 8 <<< s.cfg.fbCh17) |||
      ((BitVec.ofBool f.ch18).setWidth 8 <<< s.cfg.fbCh18) |||
      ((BitVec.ofBool f.lost).setWidth 8 <<< s.cfg.fbLost) |||
      ((BitVec.ofBool f.fs).setWidth 8 <<< s.cfg.fbFs)) ∧
    ∀ (n j : Nat) (hn : n < 16), j < 11 →
      (byteAt w (1 + (11 * n + j) / 8)).getLsbD ((11 * n + j) % 8) = (f.ch[n]).getLsbD j) ∧
  (∀ s : State, s.cfg = Config.reference →
    let w : List Byte :=
      [0x0F, 0xE0, 0x03, 0x1F, 0xF8, 0xC0, 0x07, 0x3E, 0xF0, 0x81, 0x0F, 0x7C, 0xE0,
       0x03, 0x1F, 0xF8, 0xC0, 0x07, 0x3E, 0xF0, 0x81, 0x0F, 0x7C, 0x00, 0x00]
    exec (.enc ⟨vec16 (fun _ => 992), false, false, false, false⟩) s = .next { s with out := .wire w })

/-- `DEC` tests the length, then the start marker, then the end marker, and reports the first that fails with what it
carries; no state changes (R113 to R116). -/
def Obligations.DecReportsTheFirstFailedCheck : Prop :=
  ∀ (s : State) (w : List Byte),
    (w.length ≠ 25 → exec (.dec w) s = .next { s with out := .formatError (.badLength w.length) }) ∧
    (∀ x, w.length = 25 → w[0]? = some x → x ≠ s.cfg.startMark →
      exec (.dec w) s = .next { s with out := .formatError (.badStart x) }) ∧
    (∀ x, w.length = 25 → w[0]? = some s.cfg.startMark → w[24]? = some x → x ≠ s.cfg.endMark →
      exec (.dec w) s = .next { s with out := .formatError (.badEnd x) })

/-- `DEC` of 25 bytes with both markers returns the frame: bit `j` of channel `n` is stream bit `11n + j` of bytes 1..22,
the flags are their bits of byte 23, every other bit of byte 23 ignored; no state changes (R112, R82, R84). -/
def Obligations.DecReturnsTheFrame : Prop :=
  ∀ (s : State) (w : List Byte), w.length = 25 → w[0]? = some s.cfg.startMark → w[24]? = some s.cfg.endMark →
    ∃ f : ChannelFrame, exec (.dec w) s = .next { s with out := .decoded f } ∧
      (∀ (n j : Nat) (hn : n < 16), j < 11 →
        (f.ch[n]).getLsbD j = (byteAt w (1 + (11 * n + j) / 8)).getLsbD ((11 * n + j) % 8)) ∧
      f.ch17 = (byteAt w 23).getLsbD s.cfg.fbCh17 ∧ f.ch18 = (byteAt w 23).getLsbD s.cfg.fbCh18 ∧
      f.lost = (byteAt w 23).getLsbD s.cfg.fbLost ∧ f.fs = (byteAt w 23).getLsbD s.cfg.fbFs

/-- R117: `DEC(ENC(f)) = f` for every Channel Frame: sixteen values 0..2047 and four flags, in every configuration that gives
each flag a bit of its own, as R6's defaults do; in every other legal one the sixteen values still come back. -/
def Obligations.DecodeOfEncodeIsTheFrame : Prop :=
  ∀ (s : State) (f : ChannelFrame), s.cfg.ok = true → ∃ (w : List Byte) (g : ChannelFrame),
    exec (.enc f) s = .next { s with out := .wire w } ∧
    exec (.dec w) s = .next { s with out := .decoded g } ∧
    g.ch = f.ch ∧ (flagsApart s.cfg = true → g = f)

/-- R118 (the spec's own inference from R82, R84, R110, R112): with the flags in bits 7..4, `ENC(DEC(w))` is `w` with the
low nibble of byte 23 cleared, and so is `w` itself exactly when that nibble is 0. -/
def Obligations.EncodeOfDecodeClearsTheLowNibble : Prop :=
  ∀ (s : State) (w : List Byte), s.cfg.fbCh17 = 7 → s.cfg.fbCh18 = 6 → s.cfg.fbLost = 5 → s.cfg.fbFs = 4 →
    w.length = 25 → w[0]? = some s.cfg.startMark → w[24]? = some s.cfg.endMark →
    ∃ (f : ChannelFrame) (v : List Byte), exec (.dec w) s = .next { s with out := .decoded f } ∧
      exec (.enc f) s = .next { s with out := .wire v } ∧
      v = w.set 23 (byteAt w 23 &&& 0xF0) ∧ (v = w ↔ (byteAt w 23).extractLsb' 0 4 = 0)

/-- The unpack expressions of the table of R83, all sixteen rows (the spec's own inference from R82). -/
def Obligations.UnpackedChannelsMatchTheByteExpressions : Prop :=
  ∀ (s : State) (w : List Byte) (f : ChannelFrame), exec (.dec w) s = .next { s with out := .decoded f } →
    let b : Nat → BitVec 24 := fun k => (byteAt w k).setWidth 24
    f.chan 0 = (b 1 ||| b 2 <<< 8).setWidth 11 ∧
    f.chan 1 = (b 2 >>> 3 ||| b 3 <<< 5).setWidth 11 ∧
    f.chan 2 = (b 3 >>> 6 ||| b 4 <<< 2 ||| b 5 <<< 10).setWidth 11 ∧
    f.chan 3 = (b 5 >>> 1 ||| b 6 <<< 7).setWidth 11 ∧
    f.chan 4 = (b 6 >>> 4 ||| b 7 <<< 4).setWidth 11 ∧
    f.chan 5 = (b 7 >>> 7 ||| b 8 <<< 1 ||| b 9 <<< 9).setWidth 11 ∧
    f.chan 6 = (b 9 >>> 2 ||| b 10 <<< 6).setWidth 11 ∧
    f.chan 7 = (b 10 >>> 5 ||| b 11 <<< 3).setWidth 11 ∧
    f.chan 8 = (b 12 ||| b 13 <<< 8).setWidth 11 ∧
    f.chan 9 = (b 13 >>> 3 ||| b 14 <<< 5).setWidth 11 ∧
    f.chan 10 = (b 14 >>> 6 ||| b 15 <<< 2 ||| b 16 <<< 10).setWidth 11 ∧
    f.chan 11 = (b 16 >>> 1 ||| b 17 <<< 7).setWidth 11 ∧
    f.chan 12 = (b 17 >>> 4 ||| b 18 <<< 4).setWidth 11 ∧
    f.chan 13 = (b 18 >>> 7 ||| b 19 <<< 1 ||| b 20 <<< 9).setWidth 11 ∧
    f.chan 14 = (b 20 >>> 2 ||| b 21 <<< 6).setWidth 11 ∧
    f.chan 15 = (b 21 >>> 5 ||| b 22 <<< 3).setWidth 11

/-! ## Stream Framer -/

/-- R131: searching, a byte other than `START` is discarded; no state changes; event `None`. -/
def Obligations.SearchingFramerDiscardsOtherBytes : Prop :=
  ∀ (s : State) (i : Nat) (f : Framer) (b : Byte), s.fr[i]? = some f → f.st = .searching → b ≠ s.cfg.startMark →
    exec (.frPush i b) s = .next { s with out := .none }

/-- R132: searching, `START` begins a new buffer with that byte. -/
def Obligations.StartMarkerBeginsACandidate : Prop :=
  ∀ (s : State) (i : Nat) (f : Framer) (b : Byte), s.fr[i]? = some f → f.st = .searching → b = s.cfg.startMark →
    exec (.frPush i b) s = .next
      { s with
        fr := s.fr.set i { st := .accumulating, cnt := 1, buf := f.buf.write 0 b, rxf := f.rxf }
        out := .none }

/-- R133: accumulating with `FR_CNT + 1 < 25`, any byte is appended. -/
def Obligations.AccumulatingFramerAppendsTheByte : Prop :=
  ∀ (s : State) (i : Nat) (f : Framer) (b : Byte), s.fr[i]? = some f → f.st = .accumulating →
    f.cnt.toNat + 1 < 25 →
    exec (.frPush i b) s = .next
      { s with
        fr := s.fr.set i
          { st := .accumulating, cnt := f.cnt + 1, buf := f.buf.write f.cnt.toNat b, rxf := f.rxf }
        out := .none }

/-- R135: the 25th byte is `END` and `DEC` of the 25 buffered bytes returns a frame: `RXF` takes it as a whole, unclamped,
and the framer is back in `Searching`. -/
def Obligations.GoodFrameIsWrittenToTheFrameRegisters : Prop :=
  ∀ (s : State) (i : Nat) (f : Framer) (b : Byte) (fr : ChannelFrame), s.fr[i]? = some f →
    f.st = .accumulating → f.cnt.toNat = 24 → b = s.cfg.endMark →
    exec (.dec (f.buf.readN 0 24 ++ [b])) s = .next { s with out := .decoded fr } →
    exec (.frPush i b) s = .next
      { s with
        fr := s.fr.set i { st := .searching, cnt := 0, buf := f.buf.write 24 b, rxf := fr }
        out := .frame fr }

/-- R136: the 25th byte is not `END`: the whole buffer is discarded, `RXF` unchanged, event `Dropped(b)`; also when the
byte equals `START`. -/
def Obligations.BadEndDiscardsTheCandidate : Prop :=
  ∀ (s : State) (i : Nat) (f : Framer) (b : Byte), s.fr[i]? = some f → f.st = .accumulating → f.cnt.toNat = 24 →
    b ≠ s.cfg.endMark →
    exec (.frPush i b) s = .next
      { s with
        fr := s.fr.set i { st := .searching, cnt := 0, buf := f.buf.write 24 b, rxf := f.rxf }
        out := .dropped b }

/-- R137 (the spec's own inference), the effect: the 25th byte is `END` but `DEC` returns an error: dropped, `RXF`
unchanged, event `DecodeFail(e)`. -/
def Obligations.DecodeFailureDropsTheCandidate : Prop :=
  ∀ (s : State) (i : Nat) (f : Framer) (b : Byte) (e : FormatError), s.fr[i]? = some f → f.st = .accumulating →
    f.cnt.toNat = 24 → b = s.cfg.endMark →
    exec (.dec (f.buf.readN 0 24 ++ [b])) s = .next { s with out := .formatError e } →
    exec (.frPush i b) s = .next
      { s with
        fr := s.fr.set i { st := .searching, cnt := 0, buf := f.buf.write 24 b, rxf := f.rxf }
        out := .decodeFail e }

/-- R137 (the spec's own inference), R276: framer and codec share their parameters, so `DecodeFail` cannot happen in a state that keeps the
invariant. -/
def Obligations.DecodeFailDoesNotHappen : Prop :=
  ∀ (s t : State) (i : Nat) (b : Byte) (e : FormatError), s.inv = true → exec (.frPush i b) s = .next t →
    t.out ≠ .decodeFail e

/-- The frame of `FR.PUSH` (R23, R64, R68): only instance `i` changes; in it, of the buffer only the byte at the address
stored to, and `RXF` only in the step that emits a `Frame`, to that frame. -/
def Obligations.FramerPushChangesOnlyItsInstance : Prop :=
  ∀ (s t : State) (i : Nat) (b : Byte) (f : Framer), s.fr[i]? = some f → f.buf.wf = true →
    exec (.frPush i b) s = .next t →
    t.cfg = s.cfg ∧ t.tp = s.tp ∧ t.ts = s.ts ∧ t.esc = s.esc ∧ t.input = s.input ∧
    t.fr.length = s.fr.length ∧ (∀ j, j ≠ i → t.fr[j]? = s.fr[j]?) ∧
    ∃ g, t.fr[i]? = some g ∧
      (∀ a, f.storeAddr s.cfg b = some a → g.buf.read a = b) ∧
      (∀ a, f.storeAddr s.cfg b ≠ some a → g.buf.read a = f.buf.read a) ∧
      ((∃ fr, t.out = .frame fr ∧ g.rxf = fr) ∨ ((∀ fr, t.out ≠ .frame fr) ∧ g.rxf = f.rxf))

/-- The bytes of `ENC f` sent in index order (R62, R143) to a framer that is searching come back as one `Frame`, that of
`DEC(ENC f)`, and it is in the frame registers (R132, R133, R135); it is `f` where each flag has a bit of its own, and has
the channels of `f` in every legal configuration (R117). -/
def Obligations.FramerReceivesEveryEncodedFrame : Prop :=
  ∀ (s : State) (i : Nat) (f : Framer) (fr : ChannelFrame), s.cfg.ok = true → s.fr[i]? = some f →
    f.st = .searching → f.buf.wf = true →
    ∃ (u : State) (g : Framer) (got : ChannelFrame),
      runSchedule (frStream i (encFrame s.cfg fr)) s = some (u, List.replicate 24 .none ++ [.frame got]) ∧
      u.fr = s.fr.set i g ∧ g.st = .searching ∧ g.cnt = 0 ∧ g.rxf = got ∧ u.tp = s.tp ∧ u.ts = s.ts ∧ u.esc = s.esc ∧
      exec (.dec (encFrame s.cfg fr)) s = .next { s with out := .decoded got } ∧
      got.ch = fr.ch ∧ (flagsApart s.cfg = true → got = fr)

/-- R141 (the spec's own inference), the resynchronisation property: noise without `START`, one encoded frame, then a second
candidate that is truncated (under 25 bytes) or corrupted in a marker, start or end: the event output of the stream (R102)
holds exactly one frame, `DEC` of the encoded one, which is the frame itself where each flag has a bit of its own (R117). -/
def Obligations.ResynchronisationEmitsExactlyOneFrame : Prop :=
  ∀ (s : State) (i : Nat) (f : Framer) (fr : ChannelFrame) (noise tail : List Byte), s.cfg.ok = true →
    s.fr[i]? = some f → f.st = .searching → f.buf.wf = true → (∀ x ∈ noise, x ≠ s.cfg.startMark) →
    (tail.length < 25 ∨
      (tail.length = 25 ∧ (tail[0]? ≠ some s.cfg.startMark ∨ tail[24]? ≠ some s.cfg.endMark))) →
    ∃ (u : State) (es : List Event) (got : ChannelFrame),
      runFrStream i (noise ++ encFrame s.cfg fr ++ tail) s = some (u, es) ∧
      (∀ e ∈ es, e ≠ .none) ∧ es.filter Event.isFrame = [.frame got] ∧
      got.ch = fr.ch ∧ (flagsApart s.cfg = true → got = fr)

/-- R21, R68 (3), R139, R170, R306: the next registers and the events of a framer depend on its own registers, its bytes and
the parameters alone: not on the other units, not on the number of the instance, not on how the bytes are cut into chunks.
Likewise the parser's registers and events; and of a slot only whether and what it is written. For one byte take
`[[b]]` and `[b]`. -/
def Obligations.FramerAndParserDependOnTheirOwnRegistersAlone : Prop :=
  (∀ (s s' : State) (i j : Nat) (f : Framer) (chunks chunks' : List (List Byte)), s.cfg = s'.cfg →
    s.fr[i]? = some f → s'.fr[j]? = some f → chunks.flatten = chunks'.flatten →
    (runSchedule (frChunks i chunks) s).map (fun r => (r.1.fr[i]?, r.2)) =
      (runSchedule (frChunks j chunks') s').map (fun r => (r.1.fr[j]?, r.2))) ∧
  (∀ (s s' : State) (w : List Byte), s.cfg = s'.cfg → s.tp = s'.tp →
    (runSchedule (tpStream w) s).map (fun r => (r.1.tp, r.2)) =
      (runSchedule (tpStream w) s').map (fun r => (r.1.tp, r.2)) ∧
    ∀ (u u' : State) (es es' : List Event), runSchedule (tpStream w) s = some (u, es) →
      runSchedule (tpStream w) s' = some (u', es') → ∀ k : Kind,
        u.ts.get k = u'.ts.get k ∨ (u.ts.get k = s.ts.get k ∧ u'.ts.get k = s'.ts.get k))

/-- R311 (the spec's own inference), persistent mis-lock, for the markers 0x0F and 0x00: a searching framer that meets the all-`CH_MID` frame at
`w[10]` never emits a frame while the stream repeats it: each 25 bytes give one `Dropped(0x81)` and leave it searching
at the same place, `RXF` untouched. -/
def Obligations.MisLockedFramerNeverEmitsAFrame : Prop :=
  ∀ (s : State) (i : Nat) (f : Framer) (n : Nat), s.cfg.startMark = 0x0F → s.cfg.endMark = 0x00 →
    s.fr[i]? = some f → f.st = .searching →
    let period : List Byte :=
      [0x0F, 0x7C, 0xE0, 0x03, 0x1F, 0xF8, 0xC0, 0x07, 0x3E, 0xF0, 0x81, 0x0F, 0x7C, 0x00, 0x00,
       0x0F, 0xE0, 0x03, 0x1F, 0xF8, 0xC0, 0x07, 0x3E, 0xF0, 0x81]
    ∃ (u : State) (g : Framer),
      runSchedule (frStream i (List.replicate n period).flatten) s =
        some (u, (List.replicate n (List.replicate 24 Event.none ++ [.dropped 0x81])).flatten) ∧
      u.fr[i]? = some g ∧ g.st = .searching ∧ g.rxf = f.rxf

/-! ## Telemetry Parser -/

/-- R152, R153: waiting for an address, a byte of `ADDR_SET` is taken as the address of a new message, every other byte is
discarded with event `Skipped(b)` and no state change. -/
def Obligations.AddressBytesAreTakenOrSkipped : Prop :=
  ∀ (s : State) (b : Byte), s.tp.st = .addr →
    (b ∈ s.cfg.addrSet →
      exec (.tpPush b) s = .next { s with tp := { s.tp with addr := b, st := .len }, out := .none }) ∧
    (b ∉ s.cfg.addrSet → exec (.tpPush b) s = .next { s with out := .skipped b })

/-- R154, R155: a length byte 0 or above 62 is rejected and consumed; one in 1..62 opens the block. -/
def Obligations.LengthBytesAreRejectedOrOpenTheBlock : Prop :=
  ∀ (s : State) (b : Byte), s.tp.st = .len →
    (b.toNat = 0 ∨ 62 < b.toNat →
      exec (.tpPush b) s = .next { s with tp := { s.tp with st := .addr }, out := .badLength b }) ∧
    (1 ≤ b.toNat → b.toNat ≤ 62 →
      exec (.tpPush b) s = .next
        { s with tp := { s.tp with len := BitVec.ofNat 6 b.toNat, cnt := 0, st := .block }, out := .none })

/-- R156: inside a block with more to come, any byte is stored at `TP_CNT`. -/
def Obligations.BlockBytesAreCollected : Prop :=
  ∀ (s : State) (b : Byte), s.tp.st = .block → s.tp.cnt.toNat + 1 < s.tp.len.toNat →
    exec (.tpPush b) s = .next
      { s with
        tp := { s.tp with buf := s.tp.buf.write s.tp.cnt.toNat b, cnt := s.tp.cnt + 1 }
        out := .none }

/-- R162, with R157: the last byte of a block differs from the CRC8 of the bytes before it: no slot changes, the parser
is back in `Addr`, event `InvalidCRC8(got, want)`. -/
def Obligations.BadCrcIsRejected : Prop :=
  ∀ (s : State) (b : Byte), s.tp.st = .block → s.tp.cnt.toNat + 1 = s.tp.len.toNat → s.tp.len.toNat ≤ 62 →
    b ≠ crc8 s.cfg (s.tp.buf.readN 0 (s.tp.len.toNat - 1)) →
    exec (.tpPush b) s = .next
      { s with
        tp := { s.tp with buf := s.tp.buf.write s.tp.cnt.toNat b, cnt := 0, st := .addr }
        out := .invalidCrc8 b (crc8 s.cfg (s.tp.buf.readN 0 (s.tp.len.toNat - 1))) }

/-- R164: a block of length 1 is a CRC8 byte alone, compared with 0x00: no slot changes either way. (`CRC_INIT` = 0x00 is
the rule's own premise: `crc8([]) = 0x00`.) -/
def Obligations.BlockOfLengthOneChangesNoSlot : Prop :=
  ∀ (s : State) (b : Byte), s.cfg.crcInit = 0x00 → s.tp.st = .block → s.tp.cnt = 0 → s.tp.len = 1 →
    exec (.tpPush b) s = .next
      { s with
        tp := { s.tp with buf := s.tp.buf.write 0 b, cnt := 0, st := .addr }
        out := if b = 0x00 then .ignored none else .invalidCrc8 b 0x00 }

/-- R166: good CRC and a tag of no kind: no slot changes whatever the payload length, event `Ignored(tag)`. -/
def Obligations.UnrecognisedTagIsIgnored : Prop :=
  ∀ (s : State) (b : Byte), s.tp.st = .block → s.tp.cnt.toNat + 1 = s.tp.len.toNat → 2 ≤ s.tp.len.toNat →
    s.tp.len.toNat ≤ 62 → b = crc8 s.cfg (s.tp.buf.readN 0 (s.tp.len.toNat - 1)) →
    (∀ k, s.cfg.tagOf k ≠ s.tp.buf.read 0) →
    exec (.tpPush b) s = .next
      { s with
        tp := { s.tp with buf := s.tp.buf.write s.tp.cnt.toNat b, cnt := 0, st := .addr }
        out := .ignored (some (s.tp.buf.read 0)) }

/-- R167: good CRC, the tag of kind `K`, payload length `n = L - 2` other than `LEN_K`: no slot changes, event
`FrameLength(K, n)`. -/
def Obligations.WrongPayloadLengthIsRejected : Prop :=
  ∀ (s : State) (b : Byte) (k : Kind), s.cfg.ok = true → s.tp.st = .block →
    s.tp.cnt.toNat + 1 = s.tp.len.toNat → 2 ≤ s.tp.len.toNat → s.tp.len.toNat ≤ 62 →
    b = crc8 s.cfg (s.tp.buf.readN 0 (s.tp.len.toNat - 1)) → s.cfg.tagOf k = s.tp.buf.read 0 →
    s.tp.len.toNat - 2 ≠ s.cfg.lenOf k →
    exec (.tpPush b) s = .next
      { s with
        tp := { s.tp with buf := s.tp.buf.write s.tp.cnt.toNat b, cnt := 0, st := .addr }
        out := .frameLength k (s.tp.len.toNat - 2) }

/-- R168: good CRC, the tag of kind `K` and `LEN_K` payload bytes: the step is the decoder `TR.K` applied to the payload
on the parser back in `Addr`; payload and valid bit of slot `K` are written together, no other slot changes, event
`Record(K)`. -/
def Obligations.AcceptedRecordIsWrittenToItsSlot : Prop :=
  ∀ (s : State) (b : Byte) (k : Kind), s.cfg.ok = true → s.tp.st = .block →
    s.tp.cnt.toNat + 1 = s.tp.len.toNat → s.tp.len.toNat ≤ 62 →
    b = crc8 s.cfg (s.tp.buf.readN 0 (s.tp.len.toNat - 1)) → s.cfg.tagOf k = s.tp.buf.read 0 →
    s.tp.len.toNat = s.cfg.lenOf k + 2 →
    let closed : State :=
      { s with tp := { s.tp with buf := s.tp.buf.write s.tp.cnt.toNat b, cnt := 0, st := .addr } }
    let p := s.tp.buf.readN 1 (s.cfg.lenOf k)
    exec (.tpPush b) s = exec (Instr.ofRecord k p) closed ∧
    ∃ t, exec (.tpPush b) s = .next t ∧ t.ts.get k = ⟨true, p⟩ ∧ (∀ j, j ≠ k → t.ts.get j = s.ts.get j) ∧
      t = { closed with ts := t.ts, out := .record k }

/-- The frame of `TP.PUSH` (R40, R64, R68): no other unit changes; of the buffer only the byte at the address stored to;
of the slots only that of the kind in the event `Record(K)`. -/
def Obligations.ParserPushChangesOnlyTheParserAndOneSlot : Prop :=
  ∀ (s t : State) (b : Byte), s.tp.buf.wf = true → exec (.tpPush b) s = .next t →
    t.cfg = s.cfg ∧ t.fr = s.fr ∧ t.esc = s.esc ∧ t.input = s.input ∧
    (∀ a, s.tp.storeAddr = some a → t.tp.buf.read a = b) ∧
    (∀ a, s.tp.storeAddr ≠ some a → t.tp.buf.read a = s.tp.buf.read a) ∧
    (∀ k, t.out ≠ .record k → t.ts.get k = s.ts.get k)

/-- A whole message of kind `K` (R85) pushed byte by byte to a parser that waits for an address ends in its slot: one
`Record(K)` with the last byte, `None` before, every other slot and unit untouched (R152, R155 to R158, R168). -/
def Obligations.WholeMessageReachesItsSlot : Prop :=
  ∀ (s : State) (a : Byte) (k : Kind) (p : List Byte), s.cfg.ok = true → s.tp.st = .addr → s.tp.buf.wf = true →
    a ∈ s.cfg.addrSet → p.length = s.cfg.lenOf k → p.length ≤ 60 →
    ∃ u : State, runSchedule (tpStream (tlmMessage s.cfg a k p)) s =
        some (u, List.replicate (p.length + 3) .none ++ [.record k]) ∧
      u.ts.get k = ⟨true, p⟩ ∧ (∀ j, j ≠ k → u.ts.get j = s.ts.get j) ∧
      u.tp.st = .addr ∧ u.tp.cnt = 0 ∧ u.tp.addr = a ∧ u.fr = s.fr ∧ u.esc = s.esc ∧ u.cfg = s.cfg

/-- R163 (the spec's own inference from R159, R160, R162), the single-bit property, for every polynomial with a constant term (0xD5 has one): where a block would pass its
CRC, one flipped bit of the type tag or the payload makes it `InvalidCRC8`, and every slot stays as it was. -/
def Obligations.EverySingleBitFlipIsRejected : Prop :=
  ∀ (s : State) (b : Byte) (a m : Nat), s.cfg.crcPoly.getLsbD 0 = true → s.tp.buf.wf = true → s.tp.st = .block →
    s.tp.cnt.toNat + 1 = s.tp.len.toNat → s.tp.len.toNat ≤ 62 →
    b = crc8 s.cfg (s.tp.buf.readN 0 (s.tp.len.toNat - 1)) → a + 1 < s.tp.len.toNat → m < 8 →
    let flipped : State :=
      { s with tp := { s.tp with buf := s.tp.buf.write a (s.tp.buf.read a ^^^ ((1 : Byte) <<< m)) } }
    ∃ (t : State) (want : Byte), exec (.tpPush b) flipped = .next t ∧ want ≠ b ∧
      t.out = .invalidCrc8 b want ∧ t.ts = s.ts

/-- The check values of R159, under the reference polynomial and start value. -/
def Obligations.CrcGivesTheCheckValues : Prop :=
  crc8 Config.reference [] = 0x00 ∧ crc8 Config.reference [0x00] = 0x00 ∧ crc8 Config.reference [0x01] = 0xD5 ∧
  crc8 Config.reference [0x80] = 0xEF ∧ crc8 Config.reference [0xFF] = 0xF9 ∧
  crc8 Config.reference [0x31, 0x32, 0x33, 0x34, 0x35, 0x36, 0x37, 0x38, 0x39] = 0xBC

/-- R40, over every step of the machine: a slot changes only in a `TP.PUSH` that finishes a block of its kind whose CRC
matched and whose payload has `LEN_K` bytes, payload and valid bit together, or in an `RST`; and no valid bit is
cleared but by `RST`. -/
def Obligations.SlotsChangeOnlyByAValidatedRecord : Prop :=
  ∀ (s t : State) (k : Kind), step s = .next t → t.ts.get k ≠ s.ts.get k →
    (∃ rest, decodePort s.input = .ok (.rst, rest)) ∨
    ∃ (b : Byte) (p rest : List Byte), decodePort s.input = .ok (.tpPush b, rest) ∧ s.tp.st = .block ∧
      t.out = .record k ∧ t.ts.get k = ⟨true, p⟩ ∧ p.length = s.cfg.lenOf k ∧
      s.tp.buf.readN 0 (s.tp.len.toNat - 1) = s.cfg.tagOf k :: p ∧ b = crc8 s.cfg (s.cfg.tagOf k :: p)

/-- R32: no rule reads `TP_ADDR`. For every operation: two runs that differ in `TP_ADDR` alone stop alike, or complete with
the same event and the same registers but for `TP_ADDR`, which each keeps unless `TP.PUSH` writes the byte to both or `RST`
writes 0x00 to both. -/
def Obligations.ParserAddressIsNeverRead : Prop :=
  ∀ (i : Instr) (s : State) (a : Byte),
    let other : State := { s with tp := { s.tp with addr := a } }
    (∀ t, exec i s = .next t → ∃ t', exec i other = .next t' ∧
      t' = { t with tp := { t.tp with addr := t'.tp.addr } } ∧
      ((t.tp.addr = s.tp.addr ∧ t'.tp.addr = a) ∨
        (∃ b, i = .tpPush b ∧ t.tp.addr = b ∧ t'.tp.addr = b) ∨
        (i = .rst ∧ t.tp.addr = 0x00 ∧ t'.tp.addr = 0x00))) ∧
    (∀ r, exec i s = .fault r → exec i other = .fault r) ∧
    (∀ r, exec i s = .refused r → exec i other = .refused r)

/-! ## Record decoders -/

/-- R180: each of the ten decoders, given exactly `LEN_K` payload bytes, writes payload and valid bit of its own slot and
nothing else; event `Record(K)` (R168). -/
def Obligations.RecordDecodersWriteTheirOwnSlot : Prop :=
  ∀ (s : State) (p : List Byte),
    (p.length = 22 → exec (.trChan p) s =
      .next { s with ts := { s.ts with chan := ⟨true, p⟩ }, out := .record .chan }) ∧
    (p.length = s.cfg.lenGps → exec (.trGps p) s =
      .next { s with ts := { s.ts with gps := ⟨true, p⟩ }, out := .record .gps }) ∧
    (p.length = s.cfg.lenVario → exec (.trVario p) s =
      .next { s with ts := { s.ts with vario := ⟨true, p⟩ }, out := .record .vario }) ∧
    (p.length = s.cfg.lenBatt → exec (.trBatt p) s =
      .next { s with ts := { s.ts with batt := ⟨true, p⟩ }, out := .record .batt }) ∧
    (p.length = s.cfg.lenBaro → exec (.trBaro p) s =
      .next { s with ts := { s.ts with baro := ⟨true, p⟩ }, out := .record .baro }) ∧
    (p.length = s.cfg.lenLink → exec (.trLink p) s =
      .next { s with ts := { s.ts with link := ⟨true, p⟩ }, out := .record .link }) ∧
    (p.length = s.cfg.lenLrx → exec (.trLrx p) s =
      .next { s with ts := { s.ts with lrx := ⟨true, p⟩ }, out := .record .lrx }) ∧
    (p.length = s.cfg.lenLtx → exec (.trLtx p) s =
      .next { s with ts := { s.ts with ltx := ⟨true, p⟩ }, out := .record .ltx }) ∧
    (p.length = 6 → exec (.trAtt p) s =
      .next { s with ts := { s.ts with att := ⟨true, p⟩ }, out := .record .att }) ∧
    (p.length = s.cfg.lenFmode → exec (.trFmode p) s =
      .next { s with ts := { s.ts with fmode := ⟨true, p⟩ }, out := .record .fmode })

/-- R198: pitch, roll and yaw are the payload's three signed 16-bit big-endian fields, in this order. -/
def Obligations.AttitudeFieldsAreSignedBigEndian : Prop :=
  let signed (hi lo : Byte) : Int :=
    if 128 ≤ hi.toNat then (hi.toNat * 256 + lo.toNat : Int) - 65536 else (hi.toNat * 256 + lo.toNat : Int)
  ∀ b0 b1 b2 b3 b4 b5 : Byte,
    attView [b0, b1, b2, b3, b4, b5] = ⟨signed b0 b1, signed b2 b3, signed b4 b5⟩

/-- R193: the TX power view is the source's table of eight entries and has no value above index 7; the record itself is
accepted and stored whatever its TX power byte. -/
def Obligations.TxPowerIsTheTableOrNoValue : Prop :=
  txPowerMw 0 = some 0 ∧ txPowerMw 1 = some 10 ∧ txPowerMw 2 = some 25 ∧ txPowerMw 3 = some 100 ∧
  txPowerMw 4 = some 500 ∧ txPowerMw 5 = some 1000 ∧ txPowerMw 6 = some 2000 ∧ txPowerMw 7 = some 50 ∧
  (∀ n, 7 < n → txPowerMw n = none) ∧
  (∀ (s : State) (p : List Byte), p.length = s.cfg.lenLink → ∃ t, exec (.trLink p) s = .next t ∧
    t.ts.link = ⟨true, p⟩)

/-- R181: the sixteen channels of a channels record are packed as in the wire frame, the stream starting at payload byte 0:
the view of wire bytes 1..22 of any encoded frame is that frame's channels, and bit `j` of channel `n` is stream bit
`11n + j` of the payload. -/
def Obligations.ChannelsRecordIsPackedLikeTheWireFrame : Prop :=
  (∀ (c : Config) (f : ChannelFrame), chanView (((encFrame c f).drop 1).take 22) = f.ch) ∧
  (∀ (p : List Byte) (n j : Nat) (hn : n < 16), j < 11 →
    ((chanView p)[n]).getLsbD j = (byteAt p ((11 * n + j) / 8)).getLsbD ((11 * n + j) % 8))

/-! ## ESC machine -/

/-- R213: the gear is the first active gear-button slot in the order 0..6; with none active the reverse slot gives -1, else
0; every gear-aware tick writes it to `ESC_GEAR`, whatever it held. -/
def Obligations.GearIsTheFirstActiveButton : Prop :=
  (∀ (tw : BitVec 28) (k : Nat), k < 7 → tw.getLsbD k = true → (∀ j, j < k → tw.getLsbD j = false) →
    selectGear tw = k) ∧
  (∀ tw : BitVec 28, (∀ j, j < 7 → tw.getLsbD j = false) → selectGear tw = if tw.getLsbD 7 then -1 else 0) ∧
  (∀ (s : State) (tw : BitVec 28), s.cfg.gearMode = true →
    ∃ t, exec (.escTick tw) s = .next t ∧ t.esc.gear = BitVec.ofInt 4 (selectGear tw))

/-- R217, R218, R219: gear-aware, neutral holds the drive at the midpoint and the phase as it is, whatever the pedals; at
rest in another gear the drive is the midpoint in `Forward`, and the midpoint plus `NUDGE` with a flip to `Forward` and
priority in `Brake` and `Reverse`. -/
def Obligations.NeutralAndIdleTicks : Prop :=
  ∀ (s : State) (tw : BitVec 28), s.cfg.ok = true → s.cfg.gearMode = true →
    let G := min (tw.extractLsb' 18 10).toNat s.cfg.amtMax
    let B := min (tw.extractLsb' 8 10).toNat s.cfg.amtMax
    let gear := BitVec.ofInt 4 (selectGear tw)
    (selectGear tw = 0 → exec (.escTick tw) s =
      .next { s with esc := ⟨s.esc.phase, gear, 992, false⟩, out := .tick 992 false }) ∧
    (selectGear tw ≠ 0 → G ≤ s.cfg.noiseThr → B ≤ s.cfg.noiseThr →
      (s.esc.phase = .forward → exec (.escTick tw) s =
        .next { s with esc := ⟨.forward, gear, 992, false⟩, out := .tick 992 false }) ∧
      (s.esc.phase ≠ .forward → exec (.escTick tw) s =
        .next { s with
          esc := ⟨.forward, gear, BitVec.ofNat 11 (992 + s.cfg.nudge), true⟩
          out := .tick (BitVec.ofNat 11 (992 + s.cfg.nudge)) true }))

/-- R220 to R223: gear -1. Throttle dominating: from `Forward` the brake pulse, from `Brake` the midpoint, each with a phase
change and priority, and only in `Reverse` an inverted throttle value below the midpoint. Brake dominating: a value
above the midpoint in `Brake`, priority when the phase was another. -/
def Obligations.ReverseGearTicks : Prop :=
  ∀ (s : State) (tw : BitVec 28), s.cfg.ok = true → s.cfg.gearMode = true → selectGear tw = -1 →
    let G := min (tw.extractLsb' 18 10).toNat s.cfg.amtMax
    let B := min (tw.extractLsb' 8 10).toNat s.cfg.amtMax
    (s.cfg.noiseThr < G ∨ s.cfg.noiseThr < B) →
    let pulse := BitVec.ofNat 11 s.cfg.brakePulse
    let back := BitVec.ofNat 11 (992 - scaleDown s.cfg G)
    let braking := BitVec.ofNat 11 (992 + scaleUp s.cfg B 6)
    (B < G →
      (s.esc.phase = .forward → exec (.escTick tw) s =
        .next { s with esc := ⟨.brake, -1, pulse, true⟩, out := .tick pulse true }) ∧
      (s.esc.phase = .brake → exec (.escTick tw) s =
        .next { s with esc := ⟨.reverse, -1, 992, true⟩, out := .tick 992 true }) ∧
      (s.esc.phase = .reverse → exec (.escTick tw) s =
        .next { s with esc := ⟨.reverse, -1, back, false⟩, out := .tick back false })) ∧
    (G ≤ B → exec (.escTick tw) s =
      .next { s with
        esc := ⟨.brake, -1, braking, decide (s.esc.phase ≠ .brake)⟩
        out := .tick braking (decide (s.esc.phase ≠ .brake)) })

/-- R224: gear 1..6, throttle dominating: the amount scaled by the gear into the upper half, `Forward`, priority when the
phase was another. -/
def Obligations.ForwardGearThrottleTicks : Prop :=
  ∀ (s : State) (tw : BitVec 28), s.cfg.ok = true → s.cfg.gearMode = true → 1 ≤ selectGear tw →
    let G := min (tw.extractLsb' 18 10).toNat s.cfg.amtMax
    let B := min (tw.extractLsb' 8 10).toNat s.cfg.amtMax
    s.cfg.noiseThr < G → B < G →
    let drive := BitVec.ofNat 11 (992 + scaleUp s.cfg G (selectGear tw).toNat)
    exec (.escTick tw) s = .next { s with
      esc := ⟨.forward, BitVec.ofInt 4 (selectGear tw), drive, decide (s.esc.phase ≠ .forward)⟩
      out := .tick drive (decide (s.esc.phase ≠ .forward)) }

/-- R225 to R227: gear 1..6, brake dominating: the amount mapped into the lower half, whatever the gear; below the midpoint
by more than `HYST` the phase becomes `Brake` (priority when it was another), otherwise it holds. -/
def Obligations.ForwardGearBrakeTicks : Prop :=
  ∀ (s : State) (tw : BitVec 28), s.cfg.ok = true → s.cfg.gearMode = true → 1 ≤ selectGear tw →
    let G := min (tw.extractLsb' 18 10).toNat s.cfg.amtMax
    let B := min (tw.extractLsb' 8 10).toNat s.cfg.amtMax
    s.cfg.noiseThr < B → G ≤ B →
    let d := 992 - scaleDown s.cfg B
    let drive := BitVec.ofNat 11 d
    let gear := BitVec.ofInt 4 (selectGear tw)
    (d < 992 - s.cfg.hyst → exec (.escTick tw) s =
      .next { s with
        esc := ⟨.brake, gear, drive, decide (s.esc.phase ≠ .brake)⟩
        out := .tick drive (decide (s.esc.phase ≠ .brake)) }) ∧
    (992 - s.cfg.hyst ≤ d → exec (.escTick tw) s =
      .next { s with esc := ⟨s.esc.phase, gear, drive, false⟩, out := .tick drive false })

/-- R228 to R230: gear-less mode: idle gives the midpoint and `Forward`, throttle the full upper half and `Forward`, brake
the lower half and `Brake`; priority exactly when the phase changes; buttons ignored, `ESC_GEAR` not written (R231). -/
def Obligations.GearlessTicks : Prop :=
  ∀ (s : State) (tw : BitVec 28), s.cfg.ok = true → s.cfg.gearMode = false →
    let G := min (tw.extractLsb' 18 10).toNat s.cfg.amtMax
    let B := min (tw.extractLsb' 8 10).toNat s.cfg.amtMax
    let up := BitVec.ofNat 11 (992 + scaleUp s.cfg G 6)
    let down := BitVec.ofNat 11 (992 - scaleDown s.cfg B)
    let flip := decide (s.esc.phase ≠ .forward)
    let brakes := decide (s.esc.phase ≠ .brake)
    (G ≤ s.cfg.noiseThr → B ≤ s.cfg.noiseThr → exec (.escTick tw) s =
      .next { s with esc := ⟨.forward, s.esc.gear, 992, flip⟩, out := .tick 992 flip }) ∧
    (s.cfg.noiseThr < G → B < G → exec (.escTick tw) s =
      .next { s with esc := ⟨.forward, s.esc.gear, up, flip⟩, out := .tick up flip }) ∧
    (s.cfg.noiseThr < B → G ≤ B → exec (.escTick tw) s =
      .next { s with esc := ⟨.brake, s.esc.gear, down, brakes⟩, out := .tick down brakes })

/-- R232, R233: every tick completes; `ESC_PRIO` is 1 exactly when the tick changed the phase; the drive value is the value
the rules compute, which the clamp to 172..1811 never changes in a legal configuration; nothing but the ESC registers
changes. -/
def Obligations.EveryTickGivesALegalDriveAndItsPriority : Prop :=
  ∀ (s : State) (tw : BitVec 28), s.cfg.ok = true →
    ∃ t, exec (.escTick tw) s = .next t ∧ (t.esc.drive.toNat : Int) = (tickTarget s.cfg s.esc.phase tw).2 ∧
      172 ≤ t.esc.drive.toNat ∧ t.esc.drive.toNat ≤ 1811 ∧
      (t.esc.prio = true ↔ t.esc.phase ≠ s.esc.phase) ∧
      t = { s with esc := t.esc, out := .tick t.esc.drive t.esc.prio }

/-- R234, R236 (the spec's own inferences) and R231, over every step: `Reverse` is entered from `Brake` alone, by a gear-aware tick in gear -1 that outputs
the midpoint with priority: there is no edge from `Forward` to `Reverse`, and none at all in gear-less mode. -/
def Obligations.ReverseIsEnteredOnlyFromBrake : Prop :=
  ∀ s t : State, step s = .next t → t.esc.phase = .reverse → s.esc.phase ≠ .reverse →
    s.esc.phase = .brake ∧ s.cfg.gearMode = true ∧ t.esc.gear = -1 ∧ t.esc.drive = 992 ∧ t.esc.prio = true

/-- R38: the machine never reads `ESC_GEAR`: a gear-aware tick writes the gear selected in it and gives the same next state
whatever the register held; a gear-less tick never writes it. -/
def Obligations.EscGearIsNeverRead : Prop :=
  ∀ (s : State) (tw : BitVec 28) (g : BitVec 4),
    (s.cfg.gearMode = true →
      (∃ t, exec (.escTick tw) s = .next t ∧ t.esc.gear = BitVec.ofInt 4 (selectGear tw)) ∧
      exec (.escTick tw) { s with esc := { s.esc with gear := g } } = exec (.escTick tw) s) ∧
    (s.cfg.gearMode = false → ∃ t, exec (.escTick tw) s = .next t ∧ t.esc.gear = s.esc.gear ∧
      exec (.escTick tw) { s with esc := { s.esc with gear := g } } =
        .next { t with esc := { t.esc with gear := g } })

/-! ## Reset, invariants, the whole machine -/

/-- R300: `RST` sets every register to its reset value in one step, whatever was in progress; the parameters are not
touched. -/
def Obligations.ResetRestoresEveryRegister : Prop :=
  ∀ s : State, ∃ t, exec .rst s = .next t ∧ t.cfg = s.cfg ∧ t.out = .none ∧ t.fr.length = s.cfg.nRc ∧
    (∀ (i : Nat) (f : Framer), t.fr[i]? = some f → f.st = .searching ∧ f.cnt = 0 ∧ (∀ a, f.buf.read a = 0x00) ∧
      (∀ n, n < 16 → f.rxf.chan n = 992) ∧ f.rxf.ch17 = false ∧ f.rxf.ch18 = false ∧ f.rxf.lost = false ∧
      f.rxf.fs = false) ∧
    t.tp.st = .addr ∧ t.tp.addr = 0x00 ∧ t.tp.len = 0 ∧ t.tp.cnt = 0 ∧ (∀ a, t.tp.buf.read a = 0x00) ∧
    (∀ k, (t.ts.get k).v = false ∧ (t.ts.get k).p = List.replicate (s.cfg.lenOf k) 0x00) ∧
    t.esc.phase = .forward ∧ t.esc.gear = 0 ∧ t.esc.drive = 992 ∧ t.esc.prio = false

/-- The reset state keeps the invariant in every legal configuration, and `State.reset` is that of the reference
configuration, which is legal (logs 1, 2). -/
def Obligations.ResetStateKeepsTheInvariant : Prop :=
  (∀ c : Config, c.ok = true → (State.resetAt c).inv = true) ∧
  State.reset = State.resetAt Config.reference ∧ State.reset.inv = true

/-- Every step keeps the invariant (R30, R33 to R35, R37 to R39, R231): counters in range and consistent with the
sequencing state, canonical buffers, slot payloads of their lengths, legal ESC registers, legal parameters. -/
def Obligations.EveryStepKeepsTheInvariant : Prop :=
  ∀ s t : State, s.inv = true → step s = .next t → t.inv = true

/-- R64, R283: from a state that keeps the invariant no step faults: no access falls outside a buffer. -/
def Obligations.NoStepFaultsUnderTheInvariant : Prop :=
  ∀ s : State, s.inv = true → s.safe

/-- R73, R283: every unit is total: under the invariant every well-formed operation, of every row of the opcode table,
completes in its one step. -/
def Obligations.EveryWellFormedOperationCompletes : Prop :=
  ∀ (s : State) (i : Instr), s.inv = true → i.wf s.cfg = true → ∃ t, exec i s = .next t

/-- R36, R321: no operation writes a parameter, and none changes the number of framer instances but to `N_RC`; the pending
events are consumed by the fetch alone (parameter registers and pending events in State are the model's: logs 1, 3, 18). -/
def Obligations.ParametersNeverChange : Prop :=
  ∀ (s t : State) (i : Instr), exec i s = .next t →
    t.cfg = s.cfg ∧ t.input = s.input ∧ (t.fr.length = s.fr.length ∨ t.fr.length = s.cfg.nRc)

/-- R68, R306 (the spec's own inferences from R66, R20): operations of two different agents (reset apart) commute: in either order they give the same registers of
every unit, and each its own event. -/
def Obligations.DifferentAgentsCommute : Prop :=
  ∀ (s s1 s2 : State) (a b : Instr), agentOf a ≠ agentOf b → agentOf a ≠ .reset → agentOf b ≠ .reset →
    exec a s = .next s1 → exec b s1 = .next s2 →
    ∃ s1' s2', exec b s = .next s1' ∧ exec a s1' = .next s2' ∧
      s2' = { s2 with out := s2'.out } ∧ s1'.out = s2.out ∧ s2'.out = s1.out

/-- Two buffers in canonical form that read the same at every address are the same data (R60; the form is log 12). -/
def Obligations.CanonicalBuffersThatReadEqualAreEqual : Prop :=
  ∀ m n : Memory, m.wf = true → n.wf = true → (∀ a, m.read a = n.read a) → m = n

/-- R13, R215: what the scaled amounts of the ESC ticks are. With `scale` = `rdiv`, `up(a, g)` is `UP * a * g / (AMT_MAX * 6)`
and `dn(a)` is `DN * a / AMT_MAX`, each rounded to the nearest integer, halves up (`UP` = 819, `DN` = 820); under any
`scale` that R13 allows they are within 1 of those quotients and equal to them where they are whole. And R235 (the spec's
own inference): half throttle in gear 3 from `Forward`, `G` = 409 or 410 at `AMT_MAX` = 819, gives 1197 and stays
`Forward`. -/
def Obligations.AmountsScaleIntoTheHalfRanges : Prop :=
  (∀ (c : Config) (a g : Nat), c.scale = .halfUp →
    scaleUp c a g = (2 * (819 * a * g) + c.amtMax * 6) / (2 * (c.amtMax * 6)) ∧
    scaleDown c a = (2 * (820 * a) + c.amtMax) / (2 * c.amtMax)) ∧
  (∀ (c : Config) (a g : Nat), 1 ≤ c.amtMax →
    scaleUp c a g * (c.amtMax * 6) < 819 * a * g + c.amtMax * 6 ∧
    819 * a * g < (scaleUp c a g + 1) * (c.amtMax * 6) ∧
    (∀ k, 819 * a * g = k * (c.amtMax * 6) → scaleUp c a g = k) ∧
    scaleDown c a * c.amtMax < 820 * a + c.amtMax ∧
    820 * a < (scaleDown c a + 1) * c.amtMax ∧
    (∀ k, 820 * a = k * c.amtMax → scaleDown c a = k)) ∧
  (∀ (s : State) (tw : BitVec 28), s.cfg.ok = true → s.cfg.gearMode = true → s.cfg.scale = .halfUp →
    s.cfg.amtMax = 819 → s.esc.phase = .forward → selectGear tw = 3 →
    ((tw.extractLsb' 18 10).toNat = 409 ∨ (tw.extractLsb' 18 10).toNat = 410) →
    (tw.extractLsb' 8 10).toNat < (tw.extractLsb' 18 10).toNat →
    exec (.escTick tw) s = .next { s with esc := ⟨.forward, 3, 1197, false⟩, out := .tick 1197 false })
end

