-- ==== Sys2Proof/Laws/State.lean ====
section
/-!
SUPPORT. One lemma per field per update of State and its parts, true by `rfl`: later proofs unfold no record update.
-/
namespace Sys2Proof.Machine

section emit
variable (s : State) (e : Event)
@[simp] theorem emit_cfg : (s.emit e).cfg = s.cfg := rfl
@[simp] theorem emit_fr : (s.emit e).fr = s.fr := rfl
@[simp] theorem emit_tp : (s.emit e).tp = s.tp := rfl
@[simp] theorem emit_ts : (s.emit e).ts = s.ts := rfl
@[simp] theorem emit_esc : (s.emit e).esc = s.esc := rfl
@[simp] theorem emit_input : (s.emit e).input = s.input := rfl
@[simp] theorem emit_out : (s.emit e).out = e := rfl
end emit

section setFramer
variable (s : State) (i : Nat) (f : Framer)
@[simp] theorem setFramer_cfg : (s.setFramer i f).cfg = s.cfg := rfl
@[simp] theorem setFramer_fr : (s.setFramer i f).fr = s.fr.set i f := rfl
@[simp] theorem setFramer_tp : (s.setFramer i f).tp = s.tp := rfl
@[simp] theorem setFramer_ts : (s.setFramer i f).ts = s.ts := rfl
@[simp] theorem setFramer_esc : (s.setFramer i f).esc = s.esc := rfl
@[simp] theorem setFramer_input : (s.setFramer i f).input = s.input := rfl
@[simp] theorem setFramer_out : (s.setFramer i f).out = s.out := rfl
end setFramer

section resetAt
variable (c : Config)
@[simp] theorem resetAt_cfg : (State.resetAt c).cfg = c := rfl
@[simp] theorem resetAt_fr : (State.resetAt c).fr = List.replicate c.nRc Framer.reset := rfl
@[simp] theorem resetAt_tp : (State.resetAt c).tp = Parser.reset := rfl
@[simp] theorem resetAt_ts : (State.resetAt c).ts = Slots.reset c := rfl
@[simp] theorem resetAt_esc : (State.resetAt c).esc = Esc.reset := rfl
@[simp] theorem resetAt_input : (State.resetAt c).input = [] := rfl
@[simp] theorem resetAt_out : (State.resetAt c).out = .none := rfl
end resetAt

/-! Slots -/

@[simp] theorem get_put_same (ts : Slots) (k : Kind) (x : Slot) : (ts.put k x).get k = x := by
  cases k <;> rfl

theorem get_put_other (ts : Slots) (k j : Kind) (x : Slot) (h : j ≠ k) : (ts.put k x).get j = ts.get j := by
  cases k <;> cases j <;> first | rfl | exact absurd rfl h

@[simp] theorem get_reset (c : Config) (k : Kind) : (Slots.reset c).get k = Slot.reset (c.lenOf k) := by
  cases k <;> rfl

/-- Two record sets are equal when every slot is. -/
theorem Slots.ext_get (a b : Slots) (h : ∀ k, a.get k = b.get k) : a = b := by
  cases a; cases b
  have := h .chan; have := h .gps; have := h .vario; have := h .batt; have := h .baro
  have := h .link; have := h .lrx; have := h .ltx; have := h .att; have := h .fmode
  simp_all [Slots.get]

/-! Buffers of a framer and of the parser after a stored byte -/

section stored
variable (c : Config) (f : Framer) (p : Parser) (b : Byte)
@[simp] theorem stored_st : (f.stored c b).st = f.st := by unfold Framer.stored; split <;> rfl
@[simp] theorem stored_cnt : (f.stored c b).cnt = f.cnt := by unfold Framer.stored; split <;> rfl
@[simp] theorem stored_rxf : (f.stored c b).rxf = f.rxf := by unfold Framer.stored; split <;> rfl
@[simp] theorem parser_stored_st : (p.stored b).st = p.st := by unfold Parser.stored; split <;> rfl
@[simp] theorem parser_stored_cnt : (p.stored b).cnt = p.cnt := by unfold Parser.stored; split <;> rfl
@[simp] theorem parser_stored_len : (p.stored b).len = p.len := by unfold Parser.stored; split <;> rfl
@[simp] theorem parser_stored_addr : (p.stored b).addr = p.addr := by unfold Parser.stored; split <;> rfl

theorem stored_searching (h : f.st = .searching) (hb : b = c.startMark) :
    f.stored c b = { f with buf := f.buf.write 0 b } := by
  simp [Framer.stored, Framer.storeAddr, h, hb]

theorem stored_accumulating (h : f.st = .accumulating) :
    f.stored c b = { f with buf := f.buf.write f.cnt.toNat b } := by
  simp [Framer.stored, Framer.storeAddr, h]

theorem parser_stored_block (h : p.st = .block) :
    p.stored b = { p with buf := p.buf.write p.cnt.toNat b } := by
  simp [Parser.stored, Parser.storeAddr, h]
end stored

/-! The record of an operation -/

@[simp] theorem record?_ofRecord (k : Kind) (p : List Byte) : (Instr.ofRecord k p).record? = some (k, p) := by
  cases k <;> rfl

@[simp] theorem exec_ofRecord (k : Kind) (p : List Byte) (s : State) :
    exec (Instr.ofRecord k p) s = recordInto k p s := by
  cases k <;> rfl

@[simp] theorem runRecord_eq (k : Kind) (p : List Byte) (s : State) : runRecord k p s = recordInto k p s := by
  cases k <;> rfl

end Sys2Proof.Machine
end

