-- ==== Sys2Proof/Laws/Memory.lean ====
section
/-!
SUPPORT. What the buffer operations do: read after write, and that every operation keeps the canonical form and the
bounds of the buffer.
-/
namespace Sys2Proof.Machine

@[simp] theorem read_nil (a : Nat) : Memory.read [] a = Memory.blank := rfl

/-- A read after a write: the written byte at its address, every other address as before, in a canonical buffer. -/
theorem read_write (m : Memory) (a b : Nat) (v : Byte) (h : m.wf = true) :
    (m.write a v).read b = if b = a then v else m.read b := by
  induction m with
  | nil =>
    by_cases hv : v = Memory.blank <;> simp [Memory.write, Memory.read, hv, eq_comm]
  | cons c m ih =>
    obtain ⟨k, x⟩ := c
    simp only [Memory.wf, Bool.and_eq_true, List.all_eq_true, decide_eq_true_eq] at h
    obtain ⟨⟨hx, hlt⟩, hm⟩ := h
    have hout : ∀ j, j ≤ k → Memory.read m j = Memory.blank := by
      intro j hj
      clear ih hm
      induction m with
      | nil => rfl
      | cons d m ih =>
        have h1 : k < d.1 := hlt d (by simp)
        simp only [Memory.read]
        rw [if_neg (by omega)]
        exact ih (fun y hy => hlt y (by simp [hy]))
    simp only [Memory.write]
    split
    · rename_i hak
      by_cases hv : v = Memory.blank
      · simp only [hv, if_true]
        by_cases hb : b = a
        · subst hb; rw [if_pos rfl]; simp only [Memory.read]; rw [if_neg (by omega)]; exact hout _ (by omega)
        · simp [hb]
      · simp only [hv, if_false, Memory.read]
        by_cases hb : b = a
        · subst hb; simp
        · rw [if_neg (fun h => hb h.symm), if_neg hb]
    · split
      · rename_i hnlt hak
        subst hak
        by_cases hv : v = Memory.blank
        · simp only [hv, if_true, Memory.read]
          by_cases hb : b = a
          · subst hb; simp [hout]
          · rw [if_neg hb, if_neg (fun h => hb h.symm)]
        · simp only [hv, if_false, Memory.read]
          by_cases hb : b = a
          · subst hb; simp
          · rw [if_neg (fun h => hb h.symm), if_neg hb, if_neg (fun h => hb h.symm)]
      · rename_i hnlt hak
        simp only [Memory.read, ih hm]
        by_cases hkb : k = b
        · subst hkb; simp [Ne.symm hak]
        · simp [hkb]

/-- A write only adds the written address to the listed ones. -/
theorem mem_write (m : Memory) (a : Nat) (v : Byte) (c : Host.Cell) (h : c ∈ m.write a v) : c ∈ m ∨ c = (a, v) := by
  induction m with
  | nil => simp only [Memory.write] at h; split at h <;> simp_all
  | cons d m ih =>
    obtain ⟨k, x⟩ := d
    simp only [Memory.write] at h
    split at h
    · split at h <;> (simp_all; try tauto)
    · split at h
      · split at h <;> (simp_all; try tauto)
      · rcases List.mem_cons.mp h with h | h
        · exact .inl (by simp [h])
        · rcases ih h with h | h
          · exact .inl (by simp [h])
          · exact .inr h

/-- A write keeps the canonical form. -/
theorem wf_write (m : Memory) (a : Nat) (v : Byte) (h : m.wf = true) : (m.write a v).wf = true := by
  induction m with
  | nil => simp only [Memory.write]; split <;> simp_all [Memory.wf]
  | cons d m ih =>
    obtain ⟨k, x⟩ := d
    have h0 := h
    simp only [Memory.wf, Bool.and_eq_true, List.all_eq_true, decide_eq_true_eq] at h
    obtain ⟨⟨hx, hlt⟩, hm⟩ := h
    simp only [Memory.write]
    split
    · rename_i hak
      split
      · exact h0
      · rename_i hv
        simp only [Memory.wf, Bool.and_eq_true, List.all_eq_true, decide_eq_true_eq]
        refine ⟨⟨hv, ?_⟩, ⟨⟨hx, hlt⟩, hm⟩⟩
        intro c hc
        rcases List.mem_cons.mp hc with rfl | hc
        · exact hak
        · exact lt_trans hak (hlt c hc)
    · split
      · rename_i hak
        split
        · exact hm
        · rename_i hv
          subst hak
          simp only [Memory.wf, Bool.and_eq_true, List.all_eq_true, decide_eq_true_eq]
          exact ⟨⟨hv, hlt⟩, hm⟩
      · rename_i hna hne
        simp only [Memory.wf, Bool.and_eq_true, List.all_eq_true, decide_eq_true_eq]
        refine ⟨⟨hx, ?_⟩, ih hm⟩
        intro c hc
        rcases mem_write m a v c hc with hc | rfl
        · exact hlt c hc
        · show k < a; omega

/-- A write inside a buffer keeps the listed addresses inside. -/
theorem within_write (n : Nat) (m : Memory) (a : Nat) (v : Byte) (h : m.within n = true) (ha : a < n) :
    (m.write a v).within n = true := by
  simp only [Memory.within, List.all_eq_true, decide_eq_true_eq] at h ⊢
  intro c hc
  rcases mem_write m a v c hc with hc | rfl
  · exact h c hc
  · exact ha

/-- `MemWrite` keeps the canonical form. -/
theorem wf_writeN (s : List Byte) (m : Memory) (a : Nat) (h : m.wf = true) : (m.writeN a s).wf = true := by
  induction s generalizing m a with
  | nil => exact h
  | cons x s ih => exact ih _ _ (wf_write _ _ _ h)

/-- `MemWrite` inside a buffer keeps the listed addresses inside. -/
theorem within_writeN (n : Nat) (s : List Byte) (m : Memory) (a : Nat) (h : m.within n = true)
    (ha : a + s.length ≤ n) : (m.writeN a s).within n = true := by
  induction s generalizing m a with
  | nil => exact h
  | cons x s ih =>
    simp only [List.length_cons] at ha
    exact ih _ _ (within_write _ _ _ _ h (by omega)) (by omega)

@[simp] theorem length_readN (m : Memory) (a n : Nat) : (m.readN a n).length = n := by simp [Memory.readN]

theorem getElem?_readN (m : Memory) (a n k : Nat) (h : k < n) : (m.readN a n)[k]? = some (m.read (a + k)) := by
  simp [Memory.readN, h]

theorem byteAt_readN (m : Memory) (a n k : Nat) (h : k < n) : byteAt (m.readN a n) k = m.read (a + k) := by
  simp [byteAt, Memory.readN, h]

@[simp] theorem readN_zero (m : Memory) (a : Nat) : m.readN a 0 = [] := rfl

theorem readN_succ (m : Memory) (a n : Nat) : m.readN a (n + 1) = m.read a :: m.readN (a + 1) n := by
  simp [Memory.readN, List.range_succ_eq_map, Function.comp_def, Nat.add_assoc, Nat.add_comm 1]

theorem readN_succ_last (m : Memory) (a n : Nat) : m.readN a (n + 1) = m.readN a n ++ [m.read (a + n)] := by
  simp [Memory.readN, List.range_succ]

/-- Bytes read below a written address are as before. -/
theorem readN_write_above (m : Memory) (a n b : Nat) (v : Byte) (h : m.wf = true) (hb : a + n ≤ b) :
    (m.write b v).readN a n = m.readN a n := by
  simp only [Memory.readN]
  apply List.map_congr_left
  intro k hk
  rw [read_write _ _ _ _ h, if_neg]
  have := List.mem_range.mp hk
  omega

end Sys2Proof.Machine
end

