-- ==== Sys2Proof/Laws/Operands.lean ====
section
/-!
SUPPORT. What the operand functions compute: bits of a value built from bits, the packed bitstream, the bounds of the
scaled amounts and of the clamped drive value, and the range of the selected gear.
-/
namespace Sys2Proof.Machine

@[simp] theorem getLsbD_bitsLE (w : Nat) (g : Nat → Bool) (i : Nat) :
    (bitsLE w g).getLsbD i = (decide (i < w) && g i) := by
  induction w with
  | zero => simp
  | succ w ih =>
    simp only [bitsLE, BitVec.getLsbD_cons, ih]
    split
    · next h => subst h; simp
    · next h =>
      by_cases h1 : i < w
      · simp [h1, Nat.lt_succ_of_lt h1]
      · have : ¬ i < w + 1 := by omega
        simp [h1, this]

@[simp] theorem length_packChans (f : ChannelFrame) : (packChans f).length = 22 := by simp [packChans]

theorem byteAt_packChans (f : ChannelFrame) (k : Nat) (h : k < 22) : byteAt (packChans f) k = packByte f k := by
  simp [byteAt, packChans, h]

/-- Stream bit `k` of the packed channels is bit `k mod 11` of channel `k div 11`. -/
theorem streamBit_packChans (f : ChannelFrame) (k : Nat) (h : k < 176) :
    streamBit (packChans f) k = (f.chan (k / 11)).getLsbD (k % 11) := by
  have h8 : k % 8 < 8 := Nat.mod_lt _ (by decide)
  have e : 8 * (k / 8) + k % 8 = k := Nat.div_add_mod k 8
  rw [streamBit, byteAt_packChans f (k / 8) (by omega), packByte, getLsbD_bitsLE, e]
  simp [h8]

theorem chan_vec16 (g : Nat → Chan) (a b c d : Bool) (n : Nat) (h : n < 16) :
    (ChannelFrame.mk (vec16 g) a b c d).chan n = g n := by
  simp only [ChannelFrame.chan, h, dif_pos]
  interval_cases n <;> rfl

theorem vec16_getElem {α : Type} (g : Nat → α) (n : Nat) (h : n < 16) : (vec16 g)[n] = g n := by
  interval_cases n <;> rfl

/-- Two frames with the same channels and flags are equal. -/
theorem ChannelFrame.ext_chan (f g : ChannelFrame) (h : ∀ n, n < 16 → f.chan n = g.chan n)
    (h1 : f.ch17 = g.ch17) (h2 : f.ch18 = g.ch18) (h3 : f.lost = g.lost) (h4 : f.fs = g.fs) : f = g := by
  cases f; cases g
  simp only [ChannelFrame.mk.injEq] at *
  refine ⟨?_, h1, h2, h3, h4⟩
  apply Vector.ext
  intro i hi
  have := h i hi
  simpa [ChannelFrame.chan, hi] using this

/-- `scale` of an amount that fills at most `k` whole divisors is at most `k` (of nothing, also where the divisor is 0). -/
theorem scaled_le (c : Config) (a b k : Nat) (h : a ≤ k * b) : Config.scaled c a b ≤ k := by
  rcases Nat.eq_zero_or_pos b with rfl | hb
  · obtain rfl : a = 0 := by omega
    unfold Config.scaled
    split <;> simp [rdiv]
  unfold Config.scaled
  split
  · rw [rdiv]
    apply Nat.le_of_lt_succ
    rw [Nat.div_lt_iff_lt_mul (by omega)]
    nlinarith
  · split
    · exact Nat.div_le_of_le_mul (by rw [Nat.mul_comm]; exact h)
    · rename_i hm
      have h1 : a / b < k := by
        rw [Nat.div_lt_iff_lt_mul hb]
        rcases Nat.lt_or_eq_of_le h with h | h
        · exact h
        · exact absurd (by rw [h]; exact Nat.mul_mod_left k b) hm
      have h2 : (Config.roundsUp a b).toNat ≤ 1 := by cases Config.roundsUp a b <;> decide
      omega

theorem scaleUp_le (c : Config) (a g : Nat) (ha : a ≤ c.amtMax) (hg : g ≤ gearMax) :
    scaleUp c a g ≤ chMax - chMid := by
  apply scaled_le
  rw [Nat.mul_assoc]
  exact Nat.mul_le_mul_left _ (Nat.mul_le_mul ha hg)

theorem scaleDown_le (c : Config) (a : Nat) (ha : a ≤ c.amtMax) :
    scaleDown c a ≤ chMid - chMin :=
  scaled_le _ _ _ _ (Nat.mul_le_mul_left _ ha)

theorem gasAmount_le (c : Config) (tw : BitVec 28) : gasAmount c tw ≤ c.amtMax := Nat.min_le_right _ _

theorem brakeAmount_le (c : Config) (tw : BitVec 28) : brakeAmount c tw ≤ c.amtMax := Nat.min_le_right _ _

/-- The clamped drive value as an integer. -/
theorem toNat_clampDrive (d : Int) :
    ((clampDrive d).toNat : Int) = max (chMin : Int) (min d (chMax : Int)) := by
  unfold clampDrive
  rw [BitVec.toNat_ofNat, Nat.mod_eq_of_lt]
  · apply Int.toNat_of_nonneg; simp [chMin]
  · simp only [chMin, chMax]; omega

/-- The clamp changes nothing inside the range. -/
theorem toNat_clampDrive_of_range (d : Int) (h1 : (chMin : Int) ≤ d) (h2 : d ≤ chMax) :
    ((clampDrive d).toNat : Int) = d := by
  rw [toNat_clampDrive]; omega

theorem clampDrive_range (d : Int) : chMin ≤ (clampDrive d).toNat ∧ (clampDrive d).toNat ≤ chMax := by
  have h := toNat_clampDrive d
  simp only [chMin, chMax] at *
  omega

/-- The selected gear is -1, 0 or 1..6 (R37). -/
theorem selectGear_range (tw : BitVec 28) : -1 ≤ selectGear tw ∧ selectGear tw ≤ 6 := by
  unfold selectGear
  split
  · rename_i k h
    have := List.mem_range.mp (List.mem_of_find?_eq_some h)
    omega
  · split <;> omega

/-- A configuration that keeps R6 has these bounds. -/
theorem ok_bounds (c : Config) (h : c.ok = true) :
    5 ≤ c.noiseThr ∧ c.noiseThr ≤ 10 ∧ chMin ≤ c.brakePulse ∧ c.brakePulse < chMid ∧ 1 ≤ c.nudge ∧
      c.nudge ≤ chMax - chMid ∧ c.hyst < chMid - chMin ∧ 1 ≤ c.lenFmode ∧ c.lenFmode ≤ 60 := by
  simp only [Config.ok, decide_eq_true_eq] at h
  tauto

/-- The flag positions of a legal configuration are bits of a byte. -/
theorem ok_flags (c : Config) (h : c.ok = true) : c.fbCh17 < 8 ∧ c.fbCh18 < 8 ∧ c.fbLost < 8 ∧ c.fbFs < 8 := by
  simp only [Config.ok, decide_eq_true_eq] at h
  tauto

/-- Flags that are apart are on four different bits. -/
theorem flagsApart_iff (c : Config) :
    flagsApart c = true ↔ c.fbCh17 ≠ c.fbCh18 ∧ c.fbCh17 ≠ c.fbLost ∧ c.fbCh17 ≠ c.fbFs ∧ c.fbCh18 ≠ c.fbLost ∧
      c.fbCh18 ≠ c.fbFs ∧ c.fbLost ≠ c.fbFs := by
  simp only [flagsApart, decide_eq_true_eq, List.nodup_cons, List.mem_cons, List.not_mem_nil, or_false, not_or,
    not_false_eq_true, List.nodup_nil, and_true]
  tauto

/-- `kind_of` of a kind's own tag is that kind: the tags are pairwise different (R88). -/
theorem kindOf_tagOf (c : Config) (h : c.ok = true) (k : Kind) : kindOf c (c.tagOf k) = some k := by
  have hn : (Kind.all.map c.tagOf).Nodup := by
    simp only [Config.ok, decide_eq_true_eq] at h
    tauto
  have hinj : ∀ j, c.tagOf j = c.tagOf k → j = k := by
    intro j hj
    have hj' : j ∈ Kind.all := by cases j <;> decide
    have hk' : k ∈ Kind.all := by cases k <;> decide
    exact List.inj_on_of_nodup_map hn hj' hk' hj
  unfold kindOf
  cases hf : Kind.all.find? (fun j => decide (c.tagOf j = c.tagOf k)) with
  | none =>
    have := List.find?_eq_none.mp hf k (by cases k <;> decide)
    simp at this
  | some j =>
    have := List.find?_some hf
    rw [hinj j (by simpa using this)]

/-- What `kind_of` answers has that tag. -/
theorem tagOf_of_kindOf (c : Config) (tag : Byte) (k : Kind) (h : kindOf c tag = some k) : c.tagOf k = tag := by
  have := List.find?_some h
  simpa using this

/-- The table form of R161: one byte of the CRC is one table entry. -/
theorem crcByte_eq_table (poly c x : Byte) : crcByte poly c x = crcTable poly (c ^^^ x) := by
  simp [crcTable, crcByte]

end Sys2Proof.Machine
end

