-- ==== Sys2Proof/Laws/Units.lean ====
section
/-!
SUPPORT. Once for each unit's operation, everything it can do: "if it answers next t, then ...". Later proofs cite these
and unfold no meaning.
-/
namespace Sys2Proof.Machine

@[simp] theorem done_eq (s : State) (e : Event) : done s e = .next (s.emit e) := rfl

/-- The common part of the record decoders. -/
theorem recordInto_cases (k : Kind) (p : List Byte) (s : State) :
    (p.length = s.cfg.lenOf k ∧
      recordInto k p s = .next (State.emit { s with ts := s.ts.put k ⟨true, p⟩ } (.record k))) ∨
    (p.length ≠ s.cfg.lenOf k ∧ recordInto k p s = .refused (.payloadLength k p.length)) := by
  by_cases h : p.length = s.cfg.lenOf k
  · exact .inl ⟨h, by simp [recordInto, h]⟩
  · exact .inr ⟨h, by simp [recordInto, h]⟩

/-- The cases of a byte pushed to a framer (R131 to R137). -/
theorem push_cases (c : Config) (f : Framer) (b : Byte) :
    (f.st = .searching ∧ b ≠ c.startMark ∧ f.push c b = some (f, .none)) ∨
    (f.st = .searching ∧ b = c.startMark ∧
      f.push c b = some ({ f with buf := f.buf.write 0 b, st := .accumulating, cnt := 1 }, .none)) ∨
    (f.st = .accumulating ∧ f.cnt.toNat < 24 ∧
      f.push c b = some ({ f with buf := f.buf.write f.cnt.toNat b, cnt := f.cnt + 1 }, .none)) ∨
    (f.st = .accumulating ∧ f.cnt.toNat = 24 ∧ b ≠ c.endMark ∧
      f.push c b = some ({ f with buf := f.buf.write 24 b, st := .searching, cnt := 0 }, .dropped b)) ∨
    (∃ fr, f.st = .accumulating ∧ f.cnt.toNat = 24 ∧ b = c.endMark ∧
      decFrame c (f.buf.readN 0 24 ++ [b]) = .ok fr ∧
      f.push c b = some ({ f with buf := f.buf.write 24 b, st := .searching, cnt := 0, rxf := fr }, .frame fr)) ∨
    (∃ e, f.st = .accumulating ∧ f.cnt.toNat = 24 ∧ b = c.endMark ∧
      decFrame c (f.buf.readN 0 24 ++ [b]) = .error e ∧
      f.push c b = some ({ f with buf := f.buf.write 24 b, st := .searching, cnt := 0 }, .decodeFail e)) ∨
    (f.st = .accumulating ∧ 25 ≤ f.cnt.toNat ∧ f.push c b = none) := by
  cases hst : f.st with
  | searching =>
    by_cases hb : b = c.startMark
    · exact .inr (.inl ⟨rfl, hb, by simp [Framer.push, hst, hb, stored_searching]⟩)
    · exact .inl ⟨rfl, hb, by simp [Framer.push, hst, hb]⟩
  | accumulating =>
    refine .inr (.inr ?_)
    have hs := stored_accumulating c f b hst
    rcases Nat.lt_trichotomy f.cnt.toNat 24 with h | h | h
    · refine .inl ⟨rfl, h, ?_⟩
      simp only [Framer.push, hst, hs, frBufSize, frameLen]
      rw [if_neg (by omega), if_pos (by omega)]
    · refine .inr ?_
      have hp : f.push c b = some (f.complete c b) := by
        simp only [Framer.push, hst, frBufSize, frameLen]
        rw [if_neg (by omega), if_neg (by omega)]
      by_cases hb : b = c.endMark
      · refine .inr ?_
        cases hd : decFrame c (f.buf.readN 0 24 ++ [b]) with
        | ok fr =>
          refine .inl ⟨fr, rfl, h, hb, rfl, ?_⟩
          rw [hp, Framer.complete, if_neg (by simpa using hb), hd, hs, h]
        | error e =>
          refine .inr (.inl ⟨e, rfl, h, hb, rfl, ?_⟩)
          rw [hp, Framer.complete, if_neg (by simpa using hb), hd, hs, h]
      · refine .inl ⟨rfl, h, hb, ?_⟩
        rw [hp, Framer.complete, if_pos (by simpa using hb), hs, h]
    · refine .inr (.inr (.inr (.inr ⟨rfl, h, ?_⟩)))
      simp only [Framer.push, hst, frBufSize, frameLen]
      rw [if_pos (by omega)]

/-- What `FR.PUSH` answers. -/
theorem execFrPush_next (i : Nat) (b : Byte) (s t : State) (h : exec (.frPush i b) s = .next t) :
    ∃ f g e, s.fr[i]? = some f ∧ f.push s.cfg b = some (g, e) ∧ t = (s.setFramer i g).emit e := by
  simp only [exec, execFrPush] at h
  split at h
  · cases h
  · rename_i f hf
    split at h
    · cases h
    · rename_i g e hp
      exact ⟨f, g, e, hf, hp, (by simpa using h.symm)⟩

/-- `FR.PUSH` on an instance whose push answers. -/
theorem execFrPush_of_push (i : Nat) (b : Byte) (s : State) (f g : Framer) (e : Event) (hf : s.fr[i]? = some f)
    (hp : f.push s.cfg b = some (g, e)) : exec (.frPush i b) s = .next ((s.setFramer i g).emit e) := by
  simp [exec, execFrPush, hf, hp]

/-- The cases of `finish` (R158), with the block split into its body and its last byte. -/
theorem finishBlock_cases (body : List Byte) (got : Byte) (s : State) :
    (got ≠ crc8 s.cfg body ∧ finishBlock body got s = .next (s.emit (.invalidCrc8 got (crc8 s.cfg body)))) ∨
    (got = crc8 s.cfg body ∧ body = [] ∧ finishBlock body got s = .next (s.emit (.ignored none))) ∨
    (∃ tag p, got = crc8 s.cfg body ∧ body = tag :: p ∧ kindOf s.cfg tag = none ∧
      finishBlock body got s = .next (s.emit (.ignored (some tag)))) ∨
    (∃ tag p k, got = crc8 s.cfg body ∧ body = tag :: p ∧ kindOf s.cfg tag = some k ∧ p.length ≠ s.cfg.lenOf k ∧
      finishBlock body got s = .next (s.emit (.frameLength k p.length))) ∨
    (∃ tag p k, got = crc8 s.cfg body ∧ body = tag :: p ∧ kindOf s.cfg tag = some k ∧ p.length = s.cfg.lenOf k ∧
      finishBlock body got s = .next (State.emit { s with ts := s.ts.put k ⟨true, p⟩ } (.record k))) := by
  by_cases hc : got = crc8 s.cfg body
  · refine .inr ?_
    cases body with
    | nil => exact .inl ⟨hc, rfl, by simp [finishBlock, ← hc]⟩
    | cons tag p =>
      refine .inr ?_
      cases hk : kindOf s.cfg tag with
      | none => exact .inl ⟨tag, p, hc, rfl, hk, by simp [finishBlock, ← hc, hk]⟩
      | some k =>
        by_cases hl : p.length = s.cfg.lenOf k
        · refine .inr (.inr ⟨tag, p, k, hc, rfl, hk, hl, ?_⟩)
          simp [finishBlock, ← hc, hk, hl, recordInto]
        · refine .inr (.inl ⟨tag, p, k, hc, rfl, hk, hl, ?_⟩)
          simp [finishBlock, ← hc, hk, hl]
  · exact .inl ⟨hc, by simp [finishBlock, hc]⟩

/-- The cases of a byte pushed to the parser (R152 to R157). -/
theorem execTpPush_cases (b : Byte) (s : State) :
    (s.tp.st = .addr ∧ b ∈ s.cfg.addrSet ∧
      exec (.tpPush b) s = .next (State.emit { s with tp := { s.tp with addr := b, st := .len } } .none)) ∨
    (s.tp.st = .addr ∧ b ∉ s.cfg.addrSet ∧ exec (.tpPush b) s = .next (s.emit (.skipped b))) ∨
    (s.tp.st = .len ∧ (b = 0 ∨ tlmMaxLen < b.toNat) ∧
      exec (.tpPush b) s = .next (State.emit { s with tp := { s.tp with st := .addr } } (.badLength b))) ∨
    (s.tp.st = .len ∧ ¬ (b = 0 ∨ tlmMaxLen < b.toNat) ∧
      exec (.tpPush b) s =
        .next (State.emit { s with tp := { s.tp with len := b.setWidth 6, cnt := 0, st := .block } } .none)) ∨
    (s.tp.st = .block ∧ 62 ≤ s.tp.cnt.toNat ∧ exec (.tpPush b) s = .fault (.outsideBuffer s.tp.cnt.toNat)) ∨
    (s.tp.st = .block ∧ s.tp.cnt.toNat < 62 ∧ s.tp.cnt.toNat + 1 < s.tp.len.toNat ∧
      exec (.tpPush b) s = .next (State.emit
        { s with tp := { s.tp with buf := s.tp.buf.write s.tp.cnt.toNat b, cnt := s.tp.cnt + 1 } } .none)) ∨
    (s.tp.st = .block ∧ s.tp.cnt.toNat < 62 ∧ s.tp.len.toNat ≤ s.tp.cnt.toNat + 1 ∧
      exec (.tpPush b) s = finishBlock s.tp.body b
        { s with tp := { s.tp with buf := s.tp.buf.write s.tp.cnt.toNat b, st := .addr, cnt := 0 } }) := by
  cases hst : s.tp.st with
  | addr =>
    by_cases hb : b ∈ s.cfg.addrSet
    · exact .inl ⟨rfl, hb, by simp [exec, execTpPush, hst, hb]⟩
    · exact .inr (.inl ⟨rfl, hb, by simp [exec, execTpPush, hst, hb]⟩)
  | len =>
    refine .inr (.inr ?_)
    by_cases hb : b = 0 ∨ tlmMaxLen < b.toNat
    · exact .inl ⟨rfl, hb, by simp only [exec, execTpPush, hst, if_pos hb, done_eq]⟩
    · exact .inr (.inl ⟨rfl, hb, by simp only [exec, execTpPush, hst, if_neg hb, done_eq]⟩)
  | block =>
    refine .inr (.inr (.inr (.inr ?_)))
    have hs := parser_stored_block s.tp b hst
    by_cases h1 : 62 ≤ s.tp.cnt.toNat
    · refine .inl ⟨rfl, h1, ?_⟩
      simp only [exec, execTpPush, hst, tpBufSize, tlmMaxLen]
      rw [if_pos h1]
    · refine .inr ?_
      by_cases h2 : s.tp.cnt.toNat + 1 < s.tp.len.toNat
      · refine .inl ⟨rfl, by omega, h2, ?_⟩
        simp only [exec, execTpPush, hst, tpBufSize, tlmMaxLen]
        rw [if_neg h1, if_pos h2, hs, done_eq, hst]
      · refine .inr ⟨rfl, by omega, by omega, ?_⟩
        simp only [exec, execTpPush, hst, tpBufSize, tlmMaxLen]
        rw [if_neg h1, if_neg h2, Parser.closed, hs]

/-- What `ESC.TICK` answers. -/
theorem exec_escTick (tw : BitVec 28) (s : State) :
    exec (.escTick tw) s = .next (State.emit { s with esc := s.esc.tick s.cfg tw }
      (.tick (s.esc.tick s.cfg tw).drive (s.esc.tick s.cfg tw).prio)) := rfl

/-- What `RST` answers. -/
theorem exec_rst (s : State) :
    exec .rst s = .next (State.emit { State.resetAt s.cfg with input := s.input } .none) := rfl

/-- What `ENC` answers. -/
theorem exec_enc (f : ChannelFrame) (s : State) : exec (.enc f) s = .next (s.emit (.wire (encFrame s.cfg f))) := rfl

/-- What `DEC` answers. -/
theorem exec_dec (w : List Byte) (s : State) :
    exec (.dec w) s = .next (s.emit (decEvent (decFrame s.cfg w))) := rfl

/-- Every operation is a codec request, a push, a tick, a reset or a record decoder. -/
theorem instr_cases (i : Instr) :
    (∃ f, i = .enc f) ∨ (∃ w, i = .dec w) ∨ (∃ n b, i = .frPush n b) ∨ (∃ b, i = .tpPush b) ∨
      (∃ tw, i = .escTick tw) ∨ i = .rst ∨ (∃ k p, i = Instr.ofRecord k p) := by
  cases i
  case enc f => exact .inl ⟨f, rfl⟩
  case dec w => exact .inr (.inl ⟨w, rfl⟩)
  case frPush n b => exact .inr (.inr (.inl ⟨n, b, rfl⟩))
  case tpPush b => exact .inr (.inr (.inr (.inl ⟨b, rfl⟩)))
  case escTick tw => exact .inr (.inr (.inr (.inr (.inl ⟨tw, rfl⟩))))
  case rst => exact .inr (.inr (.inr (.inr (.inr (.inl rfl)))))
  case trGps p => exact .inr (.inr (.inr (.inr (.inr (.inr ⟨.gps, p, rfl⟩)))))
  case trVario p => exact .inr (.inr (.inr (.inr (.inr (.inr ⟨.vario, p, rfl⟩)))))
  case trBatt p => exact .inr (.inr (.inr (.inr (.inr (.inr ⟨.batt, p, rfl⟩)))))
  case trBaro p => exact .inr (.inr (.inr (.inr (.inr (.inr ⟨.baro, p, rfl⟩)))))
  case trLink p => exact .inr (.inr (.inr (.inr (.inr (.inr ⟨.link, p, rfl⟩)))))
  case trChan p => exact .inr (.inr (.inr (.inr (.inr (.inr ⟨.chan, p, rfl⟩)))))
  case trLrx p => exact .inr (.inr (.inr (.inr (.inr (.inr ⟨.lrx, p, rfl⟩)))))
  case trLtx p => exact .inr (.inr (.inr (.inr (.inr (.inr ⟨.ltx, p, rfl⟩)))))
  case trAtt p => exact .inr (.inr (.inr (.inr (.inr (.inr ⟨.att, p, rfl⟩)))))
  case trFmode p => exact .inr (.inr (.inr (.inr (.inr (.inr ⟨.fmode, p, rfl⟩)))))

/-- The cases of a step. -/
theorem step_cases (s : State) :
    (s.cfg.ok = true ∧ s.input = [] ∧ step s = .next (s.emit .none)) ∨
    (∃ i rest, s.cfg.ok = true ∧ decodePort s.input = .ok (i, rest) ∧
      step s = exec i { s with input := rest }) ∨
    (∃ e, s.cfg.ok = true ∧ decodePort s.input = .error e ∧ step s = .refused (.badEvent e)) ∨
    (s.cfg.ok = false ∧ step s = .refused .illegalConfig) := by
  cases hc : s.cfg.ok with
  | false => exact .inr (.inr (.inr ⟨rfl, by simp [step, fetch, hc]⟩))
  | true =>
    cases hi : s.input with
    | nil => exact .inl ⟨rfl, rfl, by simp [step, fetch, hc, hi]⟩
    | cons b bs =>
      refine .inr ?_
      cases hd : decodePort (b :: bs) with
      | ok r =>
        obtain ⟨i, rest⟩ := r
        exact .inl ⟨i, rest, rfl, rfl, by simp only [step, fetch, hc, hi, hd, if_true]⟩
      | error e => exact .inr (.inl ⟨e, rfl, rfl, by simp only [step, fetch, hc, hi, hd, if_true]⟩)

/-- The result of an operation with the pending bytes replaced. -/
def withInput (x : List Byte) : Result → Result
  | .next t => .next { t with input := x }
  | .fault r => .fault r
  | .refused r => .refused r

/-- No operation reads or writes the pending bytes: they commute with `exec`. -/
theorem exec_withInput (i : Instr) (s : State) (x : List Byte) :
    exec i { s with input := x } = withInput x (exec i s) := by
  have hfin : ∀ (body : List Byte) (b : Byte) (s : State),
      finishBlock body b { s with input := x } = withInput x (finishBlock body b s) := by
    intro body b s
    simp only [finishBlock, done, runRecord_eq, recordInto]
    repeat (first | rfl | split)
  rcases instr_cases i with ⟨f, rfl⟩ | ⟨w, rfl⟩ | ⟨n, b, rfl⟩ | ⟨b, rfl⟩ | ⟨tw, rfl⟩ | rfl | ⟨k, p, rfl⟩
  · rfl
  · rfl
  · simp only [exec, execFrPush]
    split
    · rfl
    · split <;> rfl
  · simp only [exec, execTpPush]
    split
    · split <;> rfl
    · split <;> rfl
    · split
      · rfl
      · split
        · rfl
        · exact hfin _ _ { s with tp := s.tp.closed b }
  · rfl
  · rfl
  · simp only [exec_ofRecord, recordInto]
    split <;> rfl

/-- The instance number of `FR.PUSH` on the port: what `natBytes` writes, `takeNat` reads back, whatever follows. -/
theorem takeNat_natBytes (n : Nat) (rest : List Byte) : takeNat (natBytes n ++ rest) = some (n, rest) := by
  have key : ∀ fuel n, n ≤ fuel → takeNat (natGroups fuel n ++ rest) = some (n, rest) := by
    intro fuel
    induction fuel with
    | zero => intro n h; obtain rfl : n = 0 := by omega
              rfl
    | succ k ih =>
      intro n h
      by_cases hn : n < 128
      · have : (BitVec.ofNat 8 n).toNat = n := by rw [BitVec.toNat_ofNat]; omega
        simp [natGroups, hn, takeNat, this]
      · have hb : (BitVec.ofNat 8 (128 + n % 128)).toNat = 128 + n % 128 := by rw [BitVec.toNat_ofNat]; omega
        have hr := ih (n / 128) (by omega)
        simp only [natGroups, if_neg hn, List.cons_append, takeNat, hb, hr]
        rw [if_neg (by omega)]
        simp only [Option.some.injEq, Prod.mk.injEq, and_true]
        omega
  exact key n n (Nat.le_refl n)

@[simp] theorem reported_append (a b : List Event) : reported (a ++ b) = reported a ++ reported b := by simp [reported]

/-- What a stream pseudo-operation answers, from the run of its expansion (R102). -/
theorem runStream_of_run (is : List Instr) (s u : State) (es : List Event) (h : runSchedule is s = some (u, es)) :
    runStream is s = some (u, reported es) := by simp [runStream, h]

/-- No port event is a record decoder (43_telemetry_records.md R180). -/
theorem decodePort_record (w : List Byte) (i : Instr) (r : List Byte) (h : decodePort w = .ok (i, r)) :
    i.record? = none := by
  cases w with
  | nil => cases h
  | cons x t =>
    simp only [decodePort] at h
    split at h
    · cases h
    split at h
    · simp only [decodeEnc] at h
      split at h
      · cases h
      · split at h <;> cases h; rfl
    split at h
    · cases t with
      | nil => cases h
      | cons y t =>
        simp only [decodeDec] at h
        split at h <;> cases h; rfl
    split at h
    · simp only [decodeFrPush] at h
      split at h
      · cases h
      · cases h
      · cases h; rfl
    split at h
    · cases t <;> cases h; rfl
    split at h
    · simp only [decodeEscTick] at h
      split at h
      · split at h <;> cases h; rfl
      · cases h
    split at h <;> cases h; rfl

end Sys2Proof.Machine
end

