-- ==== Sys2Proof/Laws/PerInstr.lean ====
section
/-!
SUPPORT. The per-instruction family `EncodingOpensWithTheOpcode`: the first byte of an operation's words is the code the
opcode table gives its row, `PSEL` for the port operations (spec 30_encoding.md R101), the type tag for the record
decoders (R88).
-/
namespace Sys2Proof.Laws.EncodingOpensWithTheOpcode

open Sys2Proof

/-- The code of a row: its `PSEL`, or its type tag. -/
def tableCode (c : Config) (i : Instr) : Byte :=
  match i.record? with
  | some (k, _) => c.tagOf k
  | none =>
    match i with
    | .enc _ => 1
    | .dec _ => 2
    | .frPush _ _ => 3
    | .tpPush _ => 4
    | .escTick _ => 5
    | _ => 15

/-- The words of `i` open with the code of its row. -/
def Statement (i : Instr) : Prop := ∀ c : Config, (encode c i).head? = some (tableCode c i)

theorem enc (f : ChannelFrame) : Statement (.enc f) := fun _ => rfl
theorem dec (s : List Byte) : Statement (.dec s) := fun _ => rfl
theorem frPush (i : Nat) (b : Byte) : Statement (.frPush i b) := fun _ => rfl
theorem tpPush (b : Byte) : Statement (.tpPush b) := fun _ => rfl
theorem escTick (tw : BitVec 28) : Statement (.escTick tw) := fun _ => rfl
theorem rst : Statement .rst := fun _ => rfl
theorem trGps (p : List Byte) : Statement (.trGps p) := fun _ => rfl
theorem trVario (p : List Byte) : Statement (.trVario p) := fun _ => rfl
theorem trBatt (p : List Byte) : Statement (.trBatt p) := fun _ => rfl
theorem trBaro (p : List Byte) : Statement (.trBaro p) := fun _ => rfl
theorem trLink (p : List Byte) : Statement (.trLink p) := fun _ => rfl
theorem trChan (p : List Byte) : Statement (.trChan p) := fun _ => rfl
theorem trLrx (p : List Byte) : Statement (.trLrx p) := fun _ => rfl
theorem trLtx (p : List Byte) : Statement (.trLtx p) := fun _ => rfl
theorem trAtt (p : List Byte) : Statement (.trAtt p) := fun _ => rfl
theorem trFmode (p : List Byte) : Statement (.trFmode p) := fun _ => rfl

end Sys2Proof.Laws.EncodingOpensWithTheOpcode
end

