-- ==== Sys2Proof/Machine/Environment.lean ====
section
/-!
DEFINITION. OUTSIDE THE BLOCK (spec 00_scope.md R4): the two reference functions that 45_environment_contracts.md gives
for a model of the host, the Arbitrated Frame of R254 and `merge` of R255. Nothing of the machine uses them (log 20).
-/
namespace Sys2Proof.Machine

/-- The Arbitrated Frame of an output port (R253). -/
structure ArbFrame where
  frame : ChannelFrame
  priority : Bool
  consumed : Bool
deriving DecidableEq, Repr

/-- A writer offers a frame with a priority bit: a stored priority frame not yet consumed survives (R254). -/
def ArbFrame.offer (a : ArbFrame) (f : ChannelFrame) (p : Bool) : ArbFrame :=
  if a.priority && !a.consumed then a else ⟨f, p, false⟩

/-- The dispatch loop hands the frame's 25 bytes to the transport and marks it consumed (R254). -/
def ArbFrame.dispatch (c : Config) (a : ArbFrame) : List Byte × ArbFrame :=
  (encFrame c a.frame, { a with consumed := true })

/-- Distance of a channel value from the midpoint. -/
def midDistance (v : Chan) : Nat := ((v.toNat : Int) - chMid).natAbs

/-- One source merged into the result: the value strictly further from the midpoint wins (R255). -/
def mergeOne (r f : ChannelFrame) : ChannelFrame :=
  { r with ch := vec16 (fun n => if midDistance (r.chan n) < midDistance (f.chan n) then f.chan n else r.chan n) }

/-- `merge` (R255): first-seen wins ties, the flags are the first frame's, an empty list gives the all-midpoint frame. -/
def mergeFrames : List ChannelFrame → ChannelFrame
  | [] => ChannelFrame.reset
  | f :: fs => fs.foldl mergeOne f

end Sys2Proof.Machine
end

