-- ==== Sys2Proof/Tests/Slice0.lean ====
section
/-!
SUPPORT. Tests: the WellFormed smoke test, decoding of words written out by hand from spec 30_encoding.md (R88, R100,
R101; byte layout log 3), at most two small tests per operation with the expected result taken from the spec's own
examples (cited), the opcode-table words, and, for every obligation with hypotheses, a witness that meets them.
-/
namespace Sys2Proof.Tests

open Sys2Proof Sys2Proof.Machine

set_option maxRecDepth 8000

/-! ## Helpers -/

/-- The event output of a next state; no value when the operation stops. -/
def outOf : Result → Option Event
  | .next t => some t.out
  | .fault _ => none
  | .refused _ => none

/-- A field of a next state. -/
def fieldOf {α : Type} (f : State → α) : Result → Option α
  | .next t => some (f t)
  | .fault _ => none
  | .refused _ => none

/-- Why an operation was refused. -/
def refusalOf : Result → Option Refusal
  | .next _ => none
  | .fault _ => none
  | .refused r => some r

/-- Why an operation faulted. -/
def faultOf : Result → Option Fault
  | .next _ => none
  | .fault r => some r
  | .refused _ => none

/-- The reset state with this framer. -/
def withFramer (f : Framer) : State := { State.reset with fr := [f] }

/-- A framer that holds these bytes. -/
def holding (w : List Byte) : Framer := ⟨.accumulating, BitVec.ofNat 5 w.length, Memory.writeN [] 0 w, ChannelFrame.reset⟩

/-- The reset state with the parser waiting for a length byte. -/
def awaitingLength : State := { State.reset with tp := { Parser.reset with st := .len, addr := 0xC8 } }

/-- The reset state with the parser inside a block of length `n` of which it holds these bytes. -/
def inBlock (n : Nat) (w : List Byte) : State :=
  { State.reset with tp := ⟨.block, 0xC8, BitVec.ofNat 6 n, BitVec.ofNat 6 w.length, Memory.writeN [] 0 w⟩ }

/-- The reset state with this phase. -/
def inPhase (p : Phase) : State := { State.reset with esc := { Esc.reset with phase := p } }

/-- The reset state with pending bytes. -/
def pending (w : List Byte) : State := { State.reset with input := w }

/-- A reset state in gear-less mode (R228), with this phase. -/
def gearless (p : Phase) : State :=
  { State.resetAt { Config.reference with gearMode := false } with esc := { Esc.reset with phase := p } }

/-- Every channel 992, every flag 0. -/
def mid : ChannelFrame := ChannelFrame.reset

/-- The wire frame of `mid`, from the example of R110. -/
def midWire : List Byte :=
  [0x0F, 0xE0, 0x03, 0x1F, 0xF8, 0xC0, 0x07, 0x3E, 0xF0, 0x81, 0x0F, 0x7C, 0xE0,
   0x03, 0x1F, 0xF8, 0xC0, 0x07, 0x3E, 0xF0, 0x81, 0x0F, 0x7C, 0x00, 0x00]

/-- `TW[27:18]` saturated at the reference `AMT_MAX` (R100, R211). -/
def gasField (tw : BitVec 28) : Nat := min (tw.extractLsb' 18 10).toNat Config.reference.amtMax

/-- `TW[17:8]` saturated at the reference `AMT_MAX` (R100, R211). -/
def brakeField (tw : BitVec 28) : Nat := min (tw.extractLsb' 8 10).toNat Config.reference.amtMax

/-- The payload of the attitude example of R198. -/
def attPayload : List Byte := [0x03, 0xE8, 0xF6, 0x3C, 0x3D, 0x5C]

/-! ## Well-formedness: each check refuses an ill-formed term -/

theorem test_wf_dec_too_long : (Instr.dec (List.replicate 256 0)).wf Config.reference = false := by decide
theorem test_wf_dec_longest : (Instr.dec (List.replicate 255 0)).wf Config.reference = true := by decide
theorem test_wf_frPush_no_instance : (Instr.frPush 1 0x00).wf Config.reference = false := by decide
/-- `N_RC` is unbounded (R5, R6): an instance above 16 bits is as well-formed as any, and its port event comes back. -/
theorem test_wf_frPush_large_instance :
    (Instr.frPush 69999 0x37).wf { Config.reference with nRc := 70000 } = true ∧
      (Instr.frPush 70000 0x37).wf { Config.reference with nRc := 70000 } = false ∧
      encode Config.reference (.frPush 69999 0x37) = [0x03, 0xEF, 0xA2, 0x04, 0x37] ∧
      decodePort [0x03, 0xEF, 0xA2, 0x04, 0x37] = .ok (.frPush 69999 0x37, []) := by decide
theorem test_wf_records_of_wrong_length :
    Kind.all.all (fun k =>
      !(Instr.ofRecord k (List.replicate (Config.reference.lenOf k + 1) 0)).wf Config.reference &&
        !(Instr.ofRecord k (List.replicate (Config.reference.lenOf k - 1) 0)).wf Config.reference &&
        (Instr.ofRecord k (List.replicate (Config.reference.lenOf k) 0)).wf Config.reference) = true := by decide
theorem test_config_reference_is_legal : Config.reference.ok = true := by decide
theorem test_config_checks :
    [{ Config.reference with noiseThr := 4 }, { Config.reference with noiseThr := 11 },
     { Config.reference with brakePulse := 171 }, { Config.reference with brakePulse := 992 },
     { Config.reference with nudge := 0 }, { Config.reference with nudge := 820 },
     { Config.reference with hyst := 820 }, { Config.reference with lenFmode := 0 },
     { Config.reference with lenFmode := 61 },
     { Config.reference with fbCh17 := 8 }, { Config.reference with fbCh18 := 8 },
     { Config.reference with fbLost := 8 }, { Config.reference with fbFs := 8 },
     { Config.reference with tagGps := 0x07 }].all
      (fun c => !c.ok) = true := by decide

/-- What R6 does not exclude is not refused (R283): `AMT_MAX` = 0, where full throttle in gear 3 is no input (R211, R218), and
`FS` on the bit of `CH17`, where `ENC` writes the or of the two (R84). -/
theorem test_config_not_refused :
    (({ Config.reference with amtMax := 0 } : Config).ok = true ∧
      outOf (step { State.resetAt { Config.reference with amtMax := 0 } with input := [0x05, 0x08, 0x00, 0xFC, 0x0F] }) =
        some (.tick 992 false)) ∧
    (({ Config.reference with fbFs := 7 } : Config).ok = true ∧
      flagsByte { Config.reference with fbFs := 7 } ⟨mid.ch, false, false, true, true⟩ = 0xA0) := by decide

/-! ## Decoding: words written out by hand -/

/-- PSEL 0x1; sixteen channels 992 = 0x3E0; flags CH18 and FS. -/
theorem test_decode_enc :
    decodePort
      [0x01, 0xE0, 0x03, 0xE0, 0x03, 0xE0, 0x03, 0xE0, 0x03, 0xE0, 0x03, 0xE0, 0x03, 0xE0, 0x03, 0xE0, 0x03,
       0xE0, 0x03, 0xE0, 0x03, 0xE0, 0x03, 0xE0, 0x03, 0xE0, 0x03, 0xE0, 0x03, 0xE0, 0x03, 0xFF, 0x07, 0x05] =
      .ok (.enc ⟨vec16 (fun n => if n = 15 then 2047 else 992), false, true, false, true⟩, []) := by decide
theorem test_decode_dec : decodePort [0x02, 0x03, 0x0F, 0x00, 0xAA, 0x0F] = .ok (.dec [0x0F, 0x00, 0xAA], [0x0F]) := by
  decide
/-- Instances 0, 127 and 258 = 2 * 128 + 2. -/
theorem test_decode_frPush :
    decodePort [0x03, 0x00, 0x37] = .ok (.frPush 0 0x37, []) ∧ decodePort [0x03, 0x7F, 0x37] = .ok (.frPush 127 0x37, []) ∧
      decodePort [0x03, 0x82, 0x02, 0x37] = .ok (.frPush 258 0x37, []) := by decide
theorem test_decode_tpPush : decodePort [0x04, 0xC8] = .ok (.tpPush 0xC8, []) := by decide
/-- `TW` = 0x6680008: G = 410, B = 0, gear button 3 (the example of R224). -/
theorem test_decode_escTick : decodePort [0x05, 0x08, 0x00, 0x68, 0x06] = .ok (.escTick 0x6680008, []) := by decide
theorem test_tick_word_fields :
    gasAmount Config.reference 0x6680008 = 410 ∧ brakeAmount Config.reference 0x6680008 = 0 ∧
      revButton 0x6680008 = false ∧ selectGear 0x6680008 = 3 := by decide
theorem test_decode_rst : decodePort [0x0F, 0x04] = .ok (.rst, [0x04]) := by decide
theorem test_decode_reserved :
    ([0x00, 0x06, 0x07, 0x08, 0x09, 0x0A, 0x0B, 0x0C, 0x0D, 0x0E] : List Byte).all
      (fun h => decide (decodePort [h, 0x00] = .error (.reservedPsel h))) = true := by decide
theorem test_decode_too_wide :
    decodePort [0x14, 0xC8] = .error .operandTooWide ∧
      decodePort [0x05, 0x00, 0x00, 0x00, 0x10] = .error .operandTooWide ∧
      decodePort (0x01 :: 0x00 :: 0x08 :: List.replicate 31 0x00) = .error .operandTooWide ∧
      decodePort (0x01 :: (List.replicate 32 0x00 ++ [0x10])) = .error .operandTooWide := by decide
theorem test_decode_truncated :
    decodePort [] = .error .empty ∧ decodePort [0x01] = .error .truncated ∧ decodePort [0x02, 0x01] = .error .truncated ∧
      decodePort [0x03, 0x00] = .error .truncated ∧ decodePort [0x03, 0x82] = .error .truncated ∧ decodePort [0x04] = .error .truncated ∧
      decodePort [0x05, 0x00, 0x00, 0x00] = .error .truncated := by decide

/-- Bodies of the examples of 43_telemetry_records.md (tags of R88). -/
theorem test_decode_body_gps :
    decodeBody Config.reference
      [0x02, 0x16, 0x4E, 0x29, 0xB2, 0xB7, 0x3B, 0x70, 0xEE, 0x00, 0x7B, 0x23, 0x28, 0x04, 0x4C, 0x0C] =
      .ok (.trGps [0x16, 0x4E, 0x29, 0xB2, 0xB7, 0x3B, 0x70, 0xEE, 0x00, 0x7B, 0x23, 0x28, 0x04, 0x4C, 0x0C], []) := by
  decide
theorem test_decode_body_vario :
    decodeBody Config.reference [0x07, 0xFF, 0x6A] = .ok (.trVario [0xFF, 0x6A], []) := by decide
theorem test_decode_body_batt :
    decodeBody Config.reference [0x08, 0x00, 0xA8, 0x00, 0x7B, 0x00, 0x05, 0xDC, 0x4B] =
      .ok (.trBatt [0x00, 0xA8, 0x00, 0x7B, 0x00, 0x05, 0xDC, 0x4B], []) := by decide
theorem test_decode_body_baro :
    decodeBody Config.reference [0x09, 0x27, 0x8B] = .ok (.trBaro [0x27, 0x8B], []) := by decide
theorem test_decode_body_link :
    decodeBody Config.reference [0x14, 0x3C, 0xFF, 0x64, 0xF6, 0x01, 0x04, 0x03, 0x48, 0x62, 0x07] =
      .ok (.trLink [0x3C, 0xFF, 0x64, 0xF6, 0x01, 0x04, 0x03, 0x48, 0x62, 0x07], []) := by decide
theorem test_decode_body_chan :
    decodeBody Config.reference (0x16 :: (midWire.drop 1).take 22) = .ok (.trChan ((midWire.drop 1).take 22), []) := by
  decide
theorem test_decode_body_lrx :
    decodeBody Config.reference [0x1C, 0x46, 0x50, 0x63, 0x08, 0x14] = .ok (.trLrx [0x46, 0x50, 0x63, 0x08, 0x14], []) := by
  decide
theorem test_decode_body_ltx :
    decodeBody Config.reference [0x1D, 0x46, 0x50, 0x63, 0x08, 0x14, 0x32] =
      .ok (.trLtx [0x46, 0x50, 0x63, 0x08, 0x14, 0x32], []) := by decide
theorem test_decode_body_att :
    decodeBody Config.reference [0x1E, 0x03, 0xE8, 0xF6, 0x3C, 0x3D, 0x5C] = .ok (.trAtt attPayload, []) := by decide
theorem test_decode_body_fmode :
    decodeBody Config.reference [0x21, 0x41, 0x43, 0x52, 0x4F, 0x00] = .ok (.trFmode [0x41, 0x43, 0x52, 0x4F, 0x00], []) := by
  decide
theorem test_decode_body_refused :
    decodeBody Config.reference [0x7F, 0x01] = .error (.unknownTag 0x7F) ∧
      decodeBody Config.reference [0x07, 0x01] = .error .truncated ∧
      decodeBody Config.reference [] = .error .empty := by decide

/-- Words of the opcode table (log 6): a port row at 4 and at 8 bits, a tag row at 8 bits, the word both have. -/
theorem test_table_words :
    decodeTableWord 4 0x2 = some (.dec []) ∧ decodeTableWord 8 0x4 = some (.tpPush 0x00) ∧
      decodeTableWord 8 0xF = some .rst ∧ decodeTableWord 8 0x1E = some (.trAtt (List.replicate 6 0x00)) ∧
      decodeTableWord 8 0x2 = some (.trGps (List.replicate 15 0x00)) ∧ decodeTableWord 8 0x6 = none := by decide

/-- A table word placed by `withFetchWord` runs in the next step: a port row, and a tag row through its message. -/
theorem test_fetch_words :
    outOf (step (State.reset.withFetchWord 4 0x2)) = some (.formatError (.badLength 0)) ∧
      outOf (step (State.reset.withFetchWord 8 0x1E)) = some (.record .att) ∧
      fieldOf (fun t => t.ts.att) (step (State.reset.withFetchWord 8 0x1E)) =
        some ⟨true, List.replicate 6 0x00⟩ := by decide

/-! ## One step of each operation, against the spec's examples -/

/-- The example of R110. -/
theorem test_enc_mid : outOf (exec (.enc mid) State.reset) = some (.wire midWire) := by decide
/-- R84: CH17 and FS alone give 0x90 in byte 23. -/
theorem test_enc_flags :
    flagsByte Config.reference ⟨mid.ch, true, false, false, true⟩ = 0x90 ∧
      flagsByte Config.reference ⟨mid.ch, false, true, true, false⟩ = 0x60 := by decide
/-- The example of R112. -/
theorem test_dec_mid : outOf (exec (.dec midWire) State.reset) = some (.decoded mid) := by decide
/-- R116: both markers wrong give BadStart. -/
theorem test_dec_order :
    outOf (exec (.dec (List.replicate 25 0x55)) State.reset) = some (.formatError (.badStart 0x55)) := by decide
/-- The example of R133. -/
theorem test_frPush_start_is_payload :
    fieldOf (fun t => t.fr.map (fun f => (f.st, f.cnt, f.buf.read 1))) (exec (.frPush 0 0x0F) (withFramer (holding [0x0F]))) =
      some [(.accumulating, 2, 0x0F)] := by decide
/-- The example of R136: the last 0x0F does not start a frame. -/
theorem test_frPush_dropped :
    outOf (exec (.frPush 0 0x0F) (withFramer (holding (0x0F :: List.replicate 23 0x00)))) = some (.dropped 0x0F) ∧
      fieldOf (fun t => t.fr.map (fun f => (f.st, f.cnt))) (exec (.frPush 0 0x0F)
        (withFramer (holding (0x0F :: List.replicate 23 0x00)))) = some [(.searching, 0)] := by decide
/-- The example of R154: a second 0xC8 is a rejected length, not an address. -/
theorem test_tpPush_bad_length :
    outOf (exec (.tpPush 0xC8) awaitingLength) = some (.badLength 0xC8) ∧
      fieldOf (fun t => t.tp.st) (exec (.tpPush 0xC8) awaitingLength) = some .addr := by decide
/-- The example of R162. -/
theorem test_tpPush_bad_crc :
    outOf (exec (.tpPush 0x83) (inBlock 8 [0x1E, 0x03, 0xE9, 0xF6, 0x3C, 0x3D, 0x5C])) =
      some (.invalidCrc8 0x83 0x35) := by decide
/-- The first example of R224: gear 3, G = 410. -/
theorem test_escTick_gear3 : outOf (exec (.escTick 0x6680008) State.reset) = some (.tick 1197 false) := by decide
/-- The second example of R222: gear -1 in `Reverse`, G = 400. -/
theorem test_escTick_reverse :
    outOf (exec (.escTick 0x6400080) (inPhase .reverse)) = some (.tick 592 false) ∧
      fieldOf (fun t => (t.esc.phase, t.esc.gear)) (exec (.escTick 0x6400080) (inPhase .reverse)) =
        some (.reverse, 0xF) := by decide
/-- R300: a framer, the parser, a slot and the ESC machine in progress all return. -/
theorem test_rst :
    fieldOf (fun t => t) (exec .rst
      { inBlock 8 [0x1E] with
        fr := [holding [0x0F, 0x12]]
        ts := { Slots.reset Config.reference with att := ⟨true, attPayload⟩ }
        esc := ⟨.brake, 2, 200, true⟩ }) = some State.reset := by decide
/-- The examples of 43_telemetry_records.md, one per decoder. -/
theorem test_trGps :
    fieldOf (fun t => t.ts.view .gps gpsView) (exec
      (.trGps [0x16, 0x4E, 0x29, 0xB2, 0xB7, 0x3B, 0x70, 0xEE, 0x00, 0x7B, 0x23, 0x28, 0x04, 0x4C, 0x0C]) State.reset) =
      some (some ⟨374221234, -1220841234, 123, 9000, 1100, 12⟩) := by decide
theorem test_trVario :
    fieldOf (fun t => t.ts.view .vario varioView) (exec (.trVario [0xFF, 0x6A]) State.reset) = some (some (-150)) := by
  decide
theorem test_trBatt :
    fieldOf (fun t => t.ts.view .batt battView) (exec
      (.trBatt [0x00, 0xA8, 0x00, 0x7B, 0x00, 0x05, 0xDC, 0x4B]) State.reset) = some (some ⟨168, 123, 1500, 75⟩) := by
  decide
theorem test_trBaro :
    fieldOf (fun t => t.ts.view .baro baroView) (exec (.trBaro [0x27, 0x8B]) State.reset) = some (some 10123) := by decide
theorem test_trLink :
    fieldOf (fun t => t.ts.view .link linkView) (exec
      (.trLink [0x3C, 0xFF, 0x64, 0xF6, 0x01, 0x04, 0x03, 0x48, 0x62, 0x07]) State.reset) =
      some (some ⟨60, 255, 100, -10, 1, 4, 3, 72, 98, 7⟩) := by decide
theorem test_trChan :
    fieldOf (fun t => t.ts.view .chan chanView) (exec (.trChan ((midWire.drop 1).take 22)) State.reset) =
      some (some mid.ch) := by decide
theorem test_trLrx :
    fieldOf (fun t => t.ts.view .lrx lrxView) (exec (.trLrx [0x46, 0x50, 0x63, 0x08, 0x14]) State.reset) =
      some (some ⟨70, 80, 99, 8, 20⟩) := by decide
theorem test_trLtx :
    fieldOf (fun t => t.ts.view .ltx ltxView) (exec (.trLtx [0x46, 0x50, 0x63, 0x08, 0x14, 0x32]) State.reset) =
      some (some (⟨70, 80, 99, 8, 20⟩, 50)) := by decide
theorem test_trAtt :
    fieldOf (fun t => t.ts.view .att attView) (exec (.trAtt attPayload) State.reset) =
      some (some ⟨1000, -2500, 15708⟩) := by decide
theorem test_trFmode :
    fieldOf (fun t => t.ts.view .fmode fmodeView) (exec (.trFmode [0x41, 0x43, 0x52, 0x4F, 0x00]) State.reset) =
      some (some [0x41, 0x43, 0x52, 0x4F]) := by decide

/-- Log 21: a battery payload configured shorter than its layout has no view; in a longer one the rest plays no part. -/
theorem test_view_lengths :
    fieldOf (fun t => (t.ts.batt.v, t.ts.view .batt battView)) (exec (.trBatt [0x00, 0xA8])
        (State.resetAt { Config.reference with lenBatt := 2 })) = some (true, none) ∧
      fieldOf (fun t => t.ts.view .vario varioView) (exec (.trVario [0xFF, 0x6A, 0x12])
        (State.resetAt { Config.reference with lenVario := 3 })) = some (some (-150)) := by decide

/-- R102: a stream reports the event outputs other than `None`, in order; chunks report what their concatenation does. -/
theorem test_streams_report :
    (runFrStream 0 (0x37 :: (midWire ++ midWire)) State.reset).map Prod.snd = some [.frame mid, .frame mid] ∧
      (runFrChunks 0 [[0x37], [], midWire] State.reset).map Prod.snd = some [.frame mid] ∧
      (runTpStream [0x55, 0xC8, 0x00] State.reset).map Prod.snd = some [.skipped 0x55, .badLength 0x00] := by decide

/-- Entries of the table of R161: rows 0, 1, 8 and F. -/
theorem test_crc_table :
    crcTable 0xD5 0x01 = 0xD5 ∧ crcTable 0xD5 0x11 = 0x87 ∧ crcTable 0xD5 0x80 = 0xEF ∧ crcTable 0xD5 0xFE = 0x2C := by
  decide

/-! ## Witnesses: a concrete case that meets the hypotheses of each obligation, at the boundaries of each clause -/

theorem witness_DecodeOfEncodeIsTheOperation :
    Config.reference.ok = true ∧ (Instr.enc mid).wf Config.reference = true ∧
      (Instr.dec (List.replicate 255 0xFF)).wf Config.reference = true ∧
      (Instr.frPush 0 0xFF).wf Config.reference = true ∧ (Instr.escTick 0xFFFFFFF).wf Config.reference = true ∧
      (Instr.trFmode (List.replicate 5 0x41)).wf Config.reference = true := by decide

theorem witness_StepRunsTheDecodedOperation :
    (pending [0x04, 0xC8, 0x0F]).cfg.ok = true ∧
      decodePort (pending [0x04, 0xC8, 0x0F]).input = .ok (.tpPush 0xC8, [0x0F]) := by decide

theorem witness_StepWithNothingPendingKeepsTheState :
    State.reset.cfg.ok = true ∧ State.reset.input = [] := by decide

/-- Every clause of O5 at its boundaries, each stop with its own name. -/
theorem witness_StopsAreByName :
    ((pending [0x00]).cfg.ok = true ∧ refusalOf (step (pending [0x00])) = some (.badEvent (.reservedPsel 0x00)) ∧
      refusalOf (step (pending [0x06])) = some (.badEvent (.reservedPsel 0x06)) ∧
      refusalOf (step (pending [0x0E])) = some (.badEvent (.reservedPsel 0x0E))) ∧
    (refusalOf (step (pending [0x10])) = some (.badEvent .operandTooWide) ∧
      refusalOf (step (pending [0xFF])) = some (.badEvent .operandTooWide) ∧
      refusalOf (step (pending [0x05, 0x00, 0x00, 0x00, 0x10, 0x0F])) = some (.badEvent .operandTooWide) ∧
      refusalOf (step (pending (0x01 :: 0x00 :: 0x08 :: List.replicate 31 0x00))) = some (.badEvent .operandTooWide) ∧
      refusalOf (step (pending (0x01 :: (List.replicate 31 0x00 ++ [0x08, 0x00])))) = some (.badEvent .operandTooWide) ∧
      refusalOf (step (pending (0x01 :: (List.replicate 32 0x00 ++ [0x10])))) = some (.badEvent .operandTooWide)) ∧
    (encode Config.reference (.frPush 0 0x37) = [0x03, 0x00] ++ [0x37] ∧
      (Instr.frPush 0 0x37).wf (pending [0x03, 0x00]).cfg = true ∧
      refusalOf (step (pending [0x03, 0x00])) = some (.badEvent .truncated)) ∧
    refusalOf (step (State.resetAt { Config.reference with noiseThr := 4 })) = some .illegalConfig ∧
    (State.reset.fr.length ≤ 1 ∧ refusalOf (exec (.frPush 1 0x00) State.reset) = some (.noSuchInstance 1)) ∧
    ([0x00].length ≠ State.reset.cfg.lenOf .att ∧
      refusalOf (exec (.trAtt [0x00]) State.reset) = some (.payloadLength .att 1)) ∧
    ((withFramer ⟨.accumulating, 25, [], mid⟩).fr[0]? = some ⟨.accumulating, 25, [], mid⟩ ∧
      faultOf (exec (.frPush 0 0x00) (withFramer ⟨.accumulating, 25, [], mid⟩)) = some (.outsideBuffer 25)) ∧
    ((inBlock 63 (List.replicate 62 0x01)).tp.st = .block ∧
      faultOf (exec (.tpPush 0x00) (inBlock 63 (List.replicate 62 0x01))) = some (.outsideBuffer 62)) := by decide

theorem witness_AssembledScheduleRunsInOrder :
    (∀ i ∈ [Instr.tpPush 0xC8, .escTick 0xCCC0080, .rst],
      i.format = .port ∧ i.wf State.reset.cfg = true) ∧
    (runSchedule [.tpPush 0xC8, .escTick 0xCCC0080, .rst] State.reset).map Prod.snd =
      some [.none, .tick 200 true, .none] ∧
    (pending [0x04, 0xC8, 0x05, 0x80, 0x00, 0xCC, 0x0C, 0x0F]).input =
      assemble State.reset.cfg [.tpPush 0xC8, .escTick 0xCCC0080, .rst] ++ [] := by decide

theorem witness_EncReturnsTheWireFrame : State.reset.cfg = Config.reference ∧ (15 : Nat) < 16 ∧ (10 : Nat) < 11 := by decide

theorem witness_DecReportsTheFirstFailedCheck :
    (midWire.take 24).length ≠ 25 ∧ (midWire ++ [0x00]).length ≠ 25 ∧ ([] : List Byte).length ≠ 25 ∧
    ((0x0E :: midWire.drop 1).length = 25 ∧ (0x0E :: midWire.drop 1)[0]? = some 0x0E ∧
      (0x0E : Byte) ≠ State.reset.cfg.startMark) ∧
    ((midWire.take 24 ++ [0x01]).length = 25 ∧ (midWire.take 24 ++ [0x01])[0]? = some State.reset.cfg.startMark ∧
      (midWire.take 24 ++ [0x01])[24]? = some 0x01 ∧ (0x01 : Byte) ≠ State.reset.cfg.endMark) := by decide

theorem witness_DecReturnsTheFrame :
    midWire.length = 25 ∧ midWire[0]? = some State.reset.cfg.startMark ∧ midWire[24]? = some State.reset.cfg.endMark := by
  decide

theorem witness_DecodeOfEncodeIsTheFrame : State.reset.cfg.ok = true ∧ flagsApart State.reset.cfg = true := by decide

theorem witness_EncodeOfDecodeClearsTheLowNibble :
    State.reset.cfg.fbCh17 = 7 ∧ State.reset.cfg.fbCh18 = 6 ∧ State.reset.cfg.fbLost = 5 ∧ State.reset.cfg.fbFs = 4 ∧
      (midWire.set 23 0xFF).length = 25 ∧ (midWire.set 23 0xFF)[0]? = some State.reset.cfg.startMark ∧
      (midWire.set 23 0xFF)[24]? = some State.reset.cfg.endMark ∧
      (byteAt (midWire.set 23 0xFF) 23).extractLsb' 0 4 ≠ 0 ∧ (byteAt midWire 23).extractLsb' 0 4 = 0 := by decide

theorem witness_UnpackedChannelsMatchTheByteExpressions :
    exec (.dec midWire) State.reset = .next { State.reset with out := .decoded mid } := by rfl

theorem witness_SearchingFramerDiscardsOtherBytes :
    State.reset.fr[0]? = some Framer.reset ∧ Framer.reset.st = .searching ∧ (0x37 : Byte) ≠ State.reset.cfg.startMark := by
  decide

theorem witness_StartMarkerBeginsACandidate :
    State.reset.fr[0]? = some Framer.reset ∧ Framer.reset.st = .searching ∧ (0x0F : Byte) = State.reset.cfg.startMark := by
  decide

theorem witness_AccumulatingFramerAppendsTheByte :
    ((withFramer (holding [0x0F])).fr[0]? = some (holding [0x0F]) ∧ (holding [0x0F]).st = .accumulating ∧
      (holding [0x0F]).cnt.toNat + 1 < 25) ∧
    ((withFramer (holding (midWire.take 23))).fr[0]? = some (holding (midWire.take 23)) ∧
      (holding (midWire.take 23)).cnt.toNat + 1 = 24) := by decide

/-- The framer that holds the first 24 bytes of the frame of R110, and one whose first byte is no start marker. -/
theorem witness_GoodFrameIsWrittenToTheFrameRegisters :
    ((withFramer (holding (midWire.take 24))).fr[0]? = some (holding (midWire.take 24)) ∧
      (holding (midWire.take 24)).st = .accumulating ∧ (holding (midWire.take 24)).cnt.toNat = 24 ∧
      (0x00 : Byte) = State.reset.cfg.endMark) ∧
    exec (.dec ((holding (midWire.take 24)).buf.readN 0 24 ++ [0x00])) (withFramer (holding (midWire.take 24))) =
      .next { withFramer (holding (midWire.take 24)) with out := .decoded mid } := ⟨by decide, by rfl⟩

theorem witness_BadEndDiscardsTheCandidate :
    (withFramer (holding (midWire.take 24))).fr[0]? = some (holding (midWire.take 24)) ∧
      (holding (midWire.take 24)).st = .accumulating ∧ (holding (midWire.take 24)).cnt.toNat = 24 ∧
      (0x0F : Byte) ≠ State.reset.cfg.endMark := by decide

theorem witness_DecodeFailureDropsTheCandidate :
    ((withFramer (holding (List.replicate 24 0x01))).fr[0]? = some (holding (List.replicate 24 0x01)) ∧
      (holding (List.replicate 24 0x01)).st = .accumulating ∧ (holding (List.replicate 24 0x01)).cnt.toNat = 24) ∧
    exec (.dec ((holding (List.replicate 24 0x01)).buf.readN 0 24 ++ [0x00])) (withFramer (holding (List.replicate 24 0x01))) =
      .next { withFramer (holding (List.replicate 24 0x01)) with out := .formatError (.badStart 0x01) } :=
  ⟨by decide, by rfl⟩

theorem witness_DecodeFailDoesNotHappen :
    (withFramer (holding (midWire.take 24))).inv = true ∧
      outOf (exec (.frPush 0 0x00) (withFramer (holding (midWire.take 24)))) = some (.frame mid) := by decide

theorem witness_FramerPushChangesOnlyItsInstance :
    (withFramer (holding [0x0F, 0x01])).fr[0]? = some (holding [0x0F, 0x01]) ∧ (holding [0x0F, 0x01]).buf.wf = true ∧
      outOf (exec (.frPush 0 0x00) (withFramer (holding [0x0F, 0x01]))) = some .none ∧
      (holding [0x0F, 0x01]).storeAddr Config.reference 0x00 = some 2 := by decide

theorem witness_FramerReceivesEveryEncodedFrame :
    State.reset.cfg.ok = true ∧ flagsApart State.reset.cfg = true ∧ State.reset.fr[0]? = some Framer.reset ∧ Framer.reset.st = .searching ∧
      Framer.reset.buf.wf = true := by decide

theorem witness_ResynchronisationEmitsExactlyOneFrame :
    (State.reset.cfg.ok = true ∧ flagsApart State.reset.cfg = true ∧ State.reset.fr[0]? = some Framer.reset ∧ Framer.reset.st = .searching ∧
      Framer.reset.buf.wf = true ∧ (∀ x ∈ ([0x00, 0x37, 0xFF] : List Byte), x ≠ State.reset.cfg.startMark)) ∧
    (midWire.take 24).length < 25 ∧ ([] : List Byte).length < 25 ∧
    ((midWire.take 24 ++ [0x01]).length = 25 ∧ (midWire.take 24 ++ [0x01])[0]? = some State.reset.cfg.startMark ∧
      (midWire.take 24 ++ [0x01])[24]? ≠ some State.reset.cfg.endMark) ∧
    ((0x0E :: midWire.drop 1).length = 25 ∧ (0x0E :: midWire.drop 1)[0]? ≠ some State.reset.cfg.startMark ∧
      (0x0E :: midWire.drop 1)[24]? = some State.reset.cfg.endMark) := by decide

/-- Framer 0 of one state and framer 1 of another hold the same registers, the other units differ; the same bytes cut
differently. Two parsers alike over different slots. -/
theorem witness_FramerAndParserDependOnTheirOwnRegistersAlone :
    ((withFramer (holding [0x0F])).cfg = (State.reset).cfg ∧ (withFramer (holding [0x0F])).fr[0]? = some (holding [0x0F]) ∧
      ({ inBlock 8 [0x1E] with fr := [Framer.reset, holding [0x0F]] }).fr[1]? = some (holding [0x0F]) ∧
      ([[0x37], [0x00, 0x01]] : List (List Byte)).flatten = [[], [0x37, 0x00], [0x01]].flatten) ∧
    ((inBlock 8 (0x1E :: attPayload)).tp =
        ({ inBlock 8 (0x1E :: attPayload) with fr := [], ts := { Slots.reset Config.reference with gps := ⟨true, []⟩ } }).tp ∧
      (runSchedule (tpStream [0x83]) (inBlock 8 (0x1E :: attPayload))).map Prod.snd = some [.record .att]) := by decide

theorem witness_MisLockedFramerNeverEmitsAFrame :
    State.reset.cfg.startMark = 0x0F ∧ State.reset.cfg.endMark = 0x00 ∧ State.reset.fr[0]? = some Framer.reset ∧
      Framer.reset.st = .searching := by decide

theorem witness_AddressBytesAreTakenOrSkipped :
    State.reset.tp.st = .addr ∧ (0xC8 : Byte) ∈ State.reset.cfg.addrSet ∧ (0xEE : Byte) ∈ State.reset.cfg.addrSet ∧
      (0xC9 : Byte) ∉ State.reset.cfg.addrSet := by decide

theorem witness_LengthBytesAreRejectedOrOpenTheBlock :
    awaitingLength.tp.st = .len ∧ (0x00 : Byte).toNat = 0 ∧ 62 < (63 : Byte).toNat ∧ 62 < (255 : Byte).toNat ∧
      1 ≤ (1 : Byte).toNat ∧ (62 : Byte).toNat ≤ 62 ∧
      fieldOf (fun t => t.tp.len) (exec (.tpPush 62) awaitingLength) = some 62 ∧
      outOf (exec (.tpPush 63) awaitingLength) = some (.badLength 63) := by decide

theorem witness_BlockBytesAreCollected :
    ((inBlock 2 []).tp.st = .block ∧ (inBlock 2 []).tp.cnt.toNat + 1 < (inBlock 2 []).tp.len.toNat) ∧
      (inBlock 62 (List.replicate 60 0x01)).tp.cnt.toNat + 1 < (inBlock 62 (List.replicate 60 0x01)).tp.len.toNat := by
  decide

theorem witness_BadCrcIsRejected :
    (inBlock 8 (0x1E :: attPayload)).tp.st = .block ∧
      (inBlock 8 (0x1E :: attPayload)).tp.cnt.toNat + 1 = (inBlock 8 (0x1E :: attPayload)).tp.len.toNat ∧
      (inBlock 8 (0x1E :: attPayload)).tp.len.toNat ≤ 62 ∧
      (0x84 : Byte) ≠ crc8 Config.reference
        ((inBlock 8 (0x1E :: attPayload)).tp.buf.readN 0 ((inBlock 8 (0x1E :: attPayload)).tp.len.toNat - 1)) := by decide

theorem witness_BlockOfLengthOneChangesNoSlot :
    (inBlock 1 []).cfg.crcInit = 0x00 ∧ (inBlock 1 []).tp.st = .block ∧ (inBlock 1 []).tp.cnt = 0 ∧
      (inBlock 1 []).tp.len = 1 := by decide

/-- The example of R166, and a block of length 2 at the lower bound. -/
theorem witness_UnrecognisedTagIsIgnored :
    ((inBlock 5 [0x7F, 0x01, 0x02, 0x03]).tp.cnt.toNat + 1 = (inBlock 5 [0x7F, 0x01, 0x02, 0x03]).tp.len.toNat ∧
      (0x86 : Byte) = crc8 Config.reference ((inBlock 5 [0x7F, 0x01, 0x02, 0x03]).tp.buf.readN 0 4) ∧
      Kind.all.all (fun k => decide (Config.reference.tagOf k ≠ (inBlock 5 [0x7F, 0x01, 0x02, 0x03]).tp.buf.read 0)) = true) ∧
    ((inBlock 2 [0x00]).tp.cnt.toNat + 1 = 2 ∧ (inBlock 2 [0x00]).tp.len.toNat = 2 ∧
      (0x00 : Byte) = crc8 Config.reference ((inBlock 2 [0x00]).tp.buf.readN 0 1)) := by decide

/-- The example of R167. -/
theorem witness_WrongPayloadLengthIsRejected :
    (inBlock 6 [0x1E, 0x03, 0xE8, 0xF6, 0x3C]).cfg.ok = true ∧ (inBlock 6 [0x1E, 0x03, 0xE8, 0xF6, 0x3C]).tp.st = .block ∧
      (inBlock 6 [0x1E, 0x03, 0xE8, 0xF6, 0x3C]).tp.cnt.toNat + 1 = 6 ∧
      (0xDB : Byte) = crc8 Config.reference ((inBlock 6 [0x1E, 0x03, 0xE8, 0xF6, 0x3C]).tp.buf.readN 0 5) ∧
      Config.reference.tagOf .att = (inBlock 6 [0x1E, 0x03, 0xE8, 0xF6, 0x3C]).tp.buf.read 0 ∧
      6 - 2 ≠ Config.reference.lenOf .att := by decide

/-- The example of R198: CRC8 byte 0x83. -/
theorem witness_AcceptedRecordIsWrittenToItsSlot :
    (inBlock 8 (0x1E :: attPayload)).cfg.ok = true ∧ (inBlock 8 (0x1E :: attPayload)).tp.st = .block ∧
      (inBlock 8 (0x1E :: attPayload)).tp.cnt.toNat + 1 = (inBlock 8 (0x1E :: attPayload)).tp.len.toNat ∧
      (0x83 : Byte) = crc8 Config.reference ((inBlock 8 (0x1E :: attPayload)).tp.buf.readN 0 7) ∧
      Config.reference.tagOf .att = (inBlock 8 (0x1E :: attPayload)).tp.buf.read 0 ∧
      (inBlock 8 (0x1E :: attPayload)).tp.len.toNat = Config.reference.lenOf .att + 2 := by decide

theorem witness_ParserPushChangesOnlyTheParserAndOneSlot :
    (inBlock 8 (0x1E :: attPayload)).tp.buf.wf = true ∧
      outOf (exec (.tpPush 0x83) (inBlock 8 (0x1E :: attPayload))) = some (.record .att) ∧
      (inBlock 8 (0x1E :: attPayload)).tp.storeAddr = some 7 := by decide

theorem witness_WholeMessageReachesItsSlot :
    State.reset.cfg.ok = true ∧ State.reset.tp.st = .addr ∧ State.reset.tp.buf.wf = true ∧
      (0xC8 : Byte) ∈ State.reset.cfg.addrSet ∧ attPayload.length = State.reset.cfg.lenOf .att ∧
      attPayload.length ≤ 60 := by decide

theorem witness_EverySingleBitFlipIsRejected :
    Config.reference.crcPoly.getLsbD 0 = true ∧ (inBlock 8 (0x1E :: attPayload)).tp.buf.wf = true ∧
      (inBlock 8 (0x1E :: attPayload)).tp.st = .block ∧
      (inBlock 8 (0x1E :: attPayload)).tp.cnt.toNat + 1 = (inBlock 8 (0x1E :: attPayload)).tp.len.toNat ∧
      (0x83 : Byte) = crc8 Config.reference ((inBlock 8 (0x1E :: attPayload)).tp.buf.readN 0 7) ∧
      6 + 1 < (inBlock 8 (0x1E :: attPayload)).tp.len.toNat := by decide

theorem witness_SlotsChangeOnlyByAValidatedRecord :
    outOf (step { inBlock 8 (0x1E :: attPayload) with input := [0x04, 0x83] }) = some (.record .att) ∧
      fieldOf (fun t => t.ts.get .att) (step { inBlock 8 (0x1E :: attPayload) with input := [0x04, 0x83] }) =
        some ⟨true, attPayload⟩ ∧
      State.reset.ts.get .att ≠ ⟨true, attPayload⟩ := by decide

theorem witness_ParserAddressIsNeverRead :
    outOf (exec (.tpPush 0xC8) State.reset) = some .none ∧ outOf (exec (.tpPush 0x55) State.reset) = some (.skipped 0x55) ∧
      outOf (exec .rst State.reset) = some .none ∧ refusalOf (exec (.frPush 1 0x00) State.reset) = some (.noSuchInstance 1) ∧
      faultOf (exec (.tpPush 0x00) (inBlock 63 (List.replicate 62 0x01))) = some (.outsideBuffer 62) := by decide

theorem witness_RecordDecodersWriteTheirOwnSlot :
    Kind.all.all (fun k => decide (outOf (exec (Instr.ofRecord k (List.replicate (State.reset.cfg.lenOf k) 0xFF)) State.reset) =
      some (.record k))) = true := by decide

theorem witness_TxPowerIsTheTableOrNoValue :
    (7 : Nat) < 8 ∧ (List.replicate 10 (0xFF : Byte)).length = State.reset.cfg.lenLink := by decide

theorem witness_ChannelsRecordIsPackedLikeTheWireFrame : (15 : Nat) < 16 ∧ (10 : Nat) < 11 := by decide

/-- Slots 0 and 6 active, none active with and without reverse. -/
theorem witness_GearIsTheFirstActiveButton :
    ((0x0000040 : BitVec 28).getLsbD 6 = true ∧ ∀ j, j < 6 → (0x0000040 : BitVec 28).getLsbD j = false) ∧
      (0x00000FF : BitVec 28).getLsbD 0 = true ∧ (∀ j, j < 7 → (0x0000080 : BitVec 28).getLsbD j = false) ∧
      selectGear 0x0000080 = -1 ∧ selectGear 0x0000000 = 0 ∧ State.reset.cfg.gearMode = true := by decide

/-- Neutral with full pedals; gear 2 and gear -1 at rest (both pedals at the threshold 10). -/
theorem witness_NeutralAndIdleTicks :
    (State.reset.cfg.ok = true ∧ State.reset.cfg.gearMode = true) ∧ selectGear 0xFFFFF00 = 0 ∧
      (selectGear 0x0280A04 ≠ 0 ∧ gasField 0x0280A04 = 10 ∧ brakeField 0x0280A04 = 10 ∧
        Config.reference.noiseThr = 10) ∧
      (inPhase .brake).esc.phase ≠ .forward ∧ State.reset.esc.phase = .forward := by decide

/-- Gear -1 with G = 819 and B = 0, and with G = B = 11. -/
theorem witness_ReverseGearTicks :
    (State.reset.cfg.ok = true ∧ State.reset.cfg.gearMode = true) ∧
      (selectGear 0xCCC0080 = -1 ∧ Config.reference.noiseThr < gasField 0xCCC0080 ∧
        brakeField 0xCCC0080 < gasField 0xCCC0080) ∧
      (selectGear 0x02C0B80 = -1 ∧ Config.reference.noiseThr < brakeField 0x02C0B80 ∧
        gasField 0x02C0B80 ≤ brakeField 0x02C0B80) := by decide

theorem witness_ForwardGearThrottleTicks :
    (State.reset.cfg.ok = true ∧ State.reset.cfg.gearMode = true) ∧ 1 ≤ selectGear 0x02C0A02 ∧ selectGear 0xCCC0040 = 6 ∧
      Config.reference.noiseThr < gasField 0x02C0A02 ∧
      brakeField 0x02C0A02 < gasField 0x02C0A02 := by decide

/-- The examples of R226 and R227: B = 21 crosses the band, B = 20 does not. -/
theorem witness_ForwardGearBrakeTicks :
    (State.reset.cfg.ok = true ∧ State.reset.cfg.gearMode = true ∧ 1 ≤ selectGear 0x0001504) ∧
      (Config.reference.noiseThr < brakeField 0x0001504 ∧
        992 - scaleDown Config.reference (brakeField 0x0001504) = 971 ∧
        992 - Config.reference.hyst = 972) ∧
      (1 ≤ selectGear 0x0001404 ∧ Config.reference.noiseThr < brakeField 0x0001404 ∧
        992 - scaleDown Config.reference (brakeField 0x0001404) = 972) := by decide

theorem witness_GearlessTicks :
    ((gearless .brake).cfg.ok = true ∧ (gearless .brake).cfg.gearMode = false) ∧
      (gasField 0x0280A00 = 10 ∧ brakeField 0x0280A00 = 10) ∧
      (gasField 0x02C0A00 = 11 ∧ brakeField 0x02C0A00 = 10) ∧
      (gasField 0x02C0B00 = 11 ∧ brakeField 0x02C0B00 = 11) := by decide

theorem witness_EveryTickGivesALegalDriveAndItsPriority : State.reset.cfg.ok = true := by decide

theorem witness_ReverseIsEnteredOnlyFromBrake :
    fieldOf (fun t => t.esc.phase) (step { inPhase .brake with input := [0x05, 0x80, 0x00, 0xCC, 0x0C] }) = some .reverse ∧
      (inPhase .brake).esc.phase ≠ .reverse := by decide

theorem witness_EscGearIsNeverRead :
    State.reset.cfg.gearMode = true ∧ (gearless .forward).cfg.gearMode = false := by decide

theorem witness_EveryStepKeepsTheInvariant :
    { inBlock 8 (0x1E :: attPayload) with input := [0x04, 0x83] }.inv = true ∧
      outOf (step { inBlock 8 (0x1E :: attPayload) with input := [0x04, 0x83] }) = some (.record .att) := by decide

theorem witness_NoStepFaultsUnderTheInvariant :
    (inBlock 62 (List.replicate 61 0x01)).inv = true ∧ (withFramer (holding (midWire.take 24))).inv = true := by decide

theorem witness_EveryWellFormedOperationCompletes :
    State.reset.inv = true ∧ (Instr.frPush 0 0x00).wf State.reset.cfg = true ∧
      (Instr.trAtt attPayload).wf State.reset.cfg = true := by decide

theorem witness_ParametersNeverChange : fieldOf (fun t => t.cfg) (exec (.tpPush 0x55) State.reset) = some Config.reference := by
  decide

theorem witness_DifferentAgentsCommute :
    agentOf (.frPush 0 0x0F) ≠ agentOf (.tpPush 0xC8) ∧ agentOf (.frPush 0 0x0F) ≠ .reset ∧
      agentOf (.tpPush 0xC8) ≠ .reset ∧
      (runSchedule [.frPush 0 0x0F, .tpPush 0x55] State.reset).map Prod.snd = some [.none, .skipped 0x55] := by decide

theorem witness_ResetStateKeepsTheInvariant : Config.reference.ok = true := by decide

/-- Both kinds of `scale`; the half-throttle words G = 409 and G = 410 in gear 3, with the brake one below the throttle. -/
theorem witness_AmountsScaleIntoTheHalfRanges :
    Config.reference.scale = .halfUp ∧ ({ Config.reference with scale := .withinOne } : Config).scale = .withinOne ∧
      1 ≤ Config.reference.amtMax ∧ scaleUp Config.reference 819 3 = 410 ∧ scaleDown Config.reference 819 = 820 ∧
      (State.reset.cfg.ok = true ∧ State.reset.cfg.gearMode = true ∧ State.reset.cfg.amtMax = 819 ∧
        State.reset.esc.phase = .forward) ∧
      (selectGear 0x6659808 = 3 ∧ gasField 0x6659808 = 409 ∧ brakeField 0x6659808 = 408) ∧
      (selectGear 0x6680008 = 3 ∧ gasField 0x6680008 = 410 ∧ brakeField 0x6680008 = 0) := by decide

theorem witness_CanonicalBuffersThatReadEqualAreEqual :
    (Memory.writeN [] 0 [0x0F, 0x00, 0x01]).wf = true ∧ Memory.wf [(0, 0x0F), (2, 0x01)] = true ∧
      Memory.writeN [] 0 [0x0F, 0x00, 0x01] = [(0, 0x0F), (2, 0x01)] := by decide

end Sys2Proof.Tests
end

section
/-!
PROOFS. The configuration function `scale` (R13) against its quotient, the throttle tick of a forward gear (R213, R214, R224),
and the obligation on the scaled amounts (R13, R215, R235).
-/
namespace Sys2Proof.Machine

/-! ## `scale` and its quotient (R13) -/

theorem scaled_of_halfUp (c : Config) (a b : Nat) (h : c.scale = .halfUp) : Config.scaled c a b = rdiv a b := by
  simp [Config.scaled, h]

/-- Whatever `roundsUp` decides, the other kind of `scale` is the floor of the quotient, or its ceiling where that is another
integer. -/
theorem scaled_of_withinOne (c : Config) (a b : Nat) (h : c.scale = .withinOne) :
    Config.scaled c a b = a / b ∨ (a % b ≠ 0 ∧ Config.scaled c a b = a / b + 1) := by
  simp only [Config.scaled, h]
  by_cases hm : a % b = 0
  · exact .inl (if_pos hm)
  · rw [if_neg hm]
    cases Config.roundsUp a b with
    | false => exact .inl rfl
    | true => exact .inr ⟨hm, rfl⟩

/-- `|q - a/b| < 1`, multiplied by the divisor so that it speaks of naturals (R13). -/
structure WithinOneOfQuotient (q a b : Nat) : Prop where
  mul_lt_add : q * b < a + b
  lt_succ_mul : a < (q + 1) * b

theorem rdiv_withinOne (a b : Nat) (hb : 0 < b) : WithinOneOfQuotient (rdiv a b) a b := by
  have hdown : rdiv a b * (2 * b) ≤ 2 * a + b := Nat.div_mul_le_self _ _
  have hup : 2 * a + b < (rdiv a b + 1) * (2 * b) := Nat.lt_mul_of_div_lt (Nat.lt_succ_self _) (by omega)
  constructor <;> linarith

theorem floor_withinOne (a b : Nat) (hb : 0 < b) : WithinOneOfQuotient (a / b) a b := by
  have hdown : a / b * b ≤ a := Nat.div_mul_le_self a b
  exact ⟨by omega, Nat.lt_mul_of_div_lt (Nat.lt_succ_self _) hb⟩

theorem ceil_withinOne (a b : Nat) (hb : 0 < b) (hm : a % b ≠ 0) : WithinOneOfQuotient (a / b + 1) a b := by
  have hdiv : a / b * b + a % b = a := Nat.div_add_mod' a b
  have hmod : a % b < b := Nat.mod_lt a hb
  constructor <;> linarith [Nat.pos_of_ne_zero hm]

/-- Either kind of `scale` is within 1 of its quotient (R13). -/
theorem scaled_withinOne (c : Config) (a b : Nat) (hb : 0 < b) : WithinOneOfQuotient (Config.scaled c a b) a b := by
  cases hs : c.scale with
  | halfUp => exact scaled_of_halfUp c a b hs ▸ rdiv_withinOne a b hb
  | withinOne =>
    rcases scaled_of_withinOne c a b hs with h | ⟨hm, h⟩
    · exact h ▸ floor_withinOne a b hb
    · exact h ▸ ceil_withinOne a b hb hm

/-- Only one integer is within 1 of a whole quotient. -/
theorem WithinOneOfQuotient.eq_of_whole {q a b k : Nat} (h : WithinOneOfQuotient q a b) (hk : a = k * b) : q = k := by
  obtain ⟨hmul, hlt⟩ := h
  have hle : q < k + 1 := Nat.lt_of_mul_lt_mul_right (a := b) (by linarith)
  have hge : k < q + 1 := Nat.lt_of_mul_lt_mul_right (a := b) (hk ▸ hlt)
  omega

theorem scaleUp_withinOne (c : Config) (a g : Nat) (hc : 1 ≤ c.amtMax) :
    WithinOneOfQuotient (scaleUp c a g) (819 * a * g) (c.amtMax * 6) :=
  scaled_withinOne c _ _ (Nat.mul_pos hc (by decide))

theorem scaleDown_withinOne (c : Config) (a : Nat) (hc : 1 ≤ c.amtMax) :
    WithinOneOfQuotient (scaleDown c a) (820 * a) c.amtMax :=
  scaled_withinOne c _ _ hc

/-! ## The throttle tick of a forward gear -/

theorem classify_of_throttle (c : Config) (g b : Nat) (hg : c.noiseThr < g) (hb : b < g) : classify c g b = .throttle := by
  rw [classify, if_neg (by omega), if_pos hb]

/-- Gear-aware mode, gear 1..6, dominant throttle: `Forward`, and the drive above `MID` by the scaled amount (R224). -/
theorem tickTarget_of_forwardGear_throttle (c : Config) (ph : Phase) (tw : BitVec 28) (hm : c.gearMode = true)
    (hgear : 1 ≤ selectGear tw) (hg : c.noiseThr < gasAmount c tw) (hb : brakeAmount c tw < gasAmount c tw) :
    tickTarget c ph tw = (.forward, midI + scaleUp c (gasAmount c tw) (selectGear tw).toNat) := by
  rw [tickTarget, if_pos hm, gearAwareTick, if_neg (by omega), if_neg (by omega), forwardGearTick,
    classify_of_throttle c _ _ hg hb]

/-- At `AMT_MAX` = 819 and `scale` = `rdiv`, either half amount in gear 3 adds 205 (R235). -/
theorem scaleUp_half_gear3 (c : Config) (a : Nat) (hs : c.scale = .halfUp) (hmax : c.amtMax = 819)
    (ha : a = 409 ∨ a = 410) : scaleUp c a 3 = 205 := by
  rw [scaleUp, scaled_of_halfUp c _ _ hs, hmax]
  rcases ha with rfl | rfl <;> decide

/-- The ESC registers after a half-throttle tick in gear 3 from `Forward` (R235). -/
theorem tick_half_throttle_gear3 (c : Config) (e : Esc) (tw : BitVec 28) (hok : c.ok = true) (hm : c.gearMode = true)
    (hs : c.scale = .halfUp) (hmax : c.amtMax = 819) (hph : e.phase = .forward) (hgear : selectGear tw = 3)
    (hg : (tw.extractLsb' 18 10).toNat = 409 ∨ (tw.extractLsb' 18 10).toNat = 410)
    (hb : (tw.extractLsb' 8 10).toNat < (tw.extractLsb' 18 10).toNat) : e.tick c tw = ⟨.forward, 3, 1197, false⟩ := by
  obtain ⟨-, hnoise, -⟩ := ok_bounds c hok
  have hgas : gasAmount c tw = (tw.extractLsb' 18 10).toNat := Nat.min_eq_left (by omega)
  have hbrake : brakeAmount c tw = (tw.extractLsb' 8 10).toNat := Nat.min_eq_left (by omega)
  have htarget : tickTarget c e.phase tw = (.forward, 1197) := by
    rw [tickTarget_of_forwardGear_throttle c _ tw hm (by omega) (by omega) (by omega), hgas, hgear,
      show (3 : Int).toNat = 3 from rfl, scaleUp_half_gear3 c _ hs hmax hg]
    rfl
  rw [Esc.tick, htarget, hph, tickGear, if_pos hm, hgear]
  rfl

/-! ## The obligation -/

/-- Settles O60: the half-up quotient is `rdiv` itself, the bounds and the whole quotients are R13 for either kind of
`scale`, and R235 is the throttle tick of gear 3. -/
theorem amountsScaleIntoTheHalfRanges : Obligations.AmountsScaleIntoTheHalfRanges := by
  refine ⟨fun c a g hs => ?_, fun c a g hc => ?_, fun s tw hok hm hs hmax hph hgear hg hb => ?_⟩
  · exact ⟨scaled_of_halfUp c _ _ hs, scaled_of_halfUp c _ _ hs⟩
  · have hup := scaleUp_withinOne c a g hc
    have hdn := scaleDown_withinOne c a hc
    exact ⟨hup.mul_lt_add, hup.lt_succ_mul, fun _ => hup.eq_of_whole,
      hdn.mul_lt_add, hdn.lt_succ_mul, fun _ => hdn.eq_of_whole⟩
  · rw [exec_escTick, tick_half_throttle_gear3 s.cfg s.esc tw hok hm hs hmax hph hgear hg hb]
    rfl

end Sys2Proof.Machine
end

section
/-!
PROOFS. `TP.PUSH` as a function of the parser registers, the pushed byte and the parameters alone (spec 10_state.md
R21, 42_telemetry_parser.md R151, R170): what becomes of the parser, the event, and the record that is accepted.
-/
namespace Sys2Proof.Machine

/-- What one byte pushed to the parser gives. -/
structure Parser.Pushed where
  /-- the parser registers after the push -/
  parser : Parser
  /-- the event output -/
  event : Event
  /-- kind and payload of the record accepted with this byte (R168) -/
  record : Option (Kind × List Byte)

/-- The record set after a push: the slot of an accepted record is valid with its payload (R40). -/
def Slots.store (ts : Slots) : Option (Kind × List Byte) → Slots
  | none => ts
  | some (k, p) => ts.put k ⟨true, p⟩

/-- Event and accepted record of a complete block, the checks in the order of R158. -/
def blockVerdict (c : Config) (body : List Byte) (got : Byte) : Event × Option (Kind × List Byte) :=
  if got ≠ crc8 c body then (.invalidCrc8 got (crc8 c body), none)
  else
    match body with
    | [] => (.ignored none, none)
    | tag :: p =>
      match kindOf c tag with
      | none => (.ignored (some tag), none)
      | some k => if p.length ≠ c.lenOf k then (.frameLength k p.length, none) else (.record k, some (k, p))

/-- One byte pushed to the parser (R151); `none` when `TP_CNT` points outside `TP_BUF` (log 9). -/
def Parser.push (c : Config) (p : Parser) (b : Byte) : Option Parser.Pushed :=
  match p.st with
  | .addr =>
    if b ∈ c.addrSet then some ⟨{ p with addr := b, st := .len }, .none, none⟩ else some ⟨p, .skipped b, none⟩
  | .len =>
    if b = 0 ∨ tlmMaxLen < b.toNat then some ⟨{ p with st := .addr }, .badLength b, none⟩
    else some ⟨{ p with len := b.setWidth 6, cnt := 0, st := .block }, .none, none⟩
  | .block =>
    if tpBufSize ≤ p.cnt.toNat then none
    else if p.cnt.toNat + 1 < p.len.toNat then some ⟨{ p.stored b with cnt := p.cnt + 1 }, .none, none⟩
    else some ⟨p.closed b, (blockVerdict c p.body b).1, (blockVerdict c p.body b).2⟩

/-- The state after a push: the parser and the slot of an accepted record are written, nothing else. -/
def State.afterPush (s : State) (x : Parser.Pushed) : State :=
  State.emit { s with tp := x.parser, ts := s.ts.store x.record } x.event

section afterPush
variable (s : State) (x : Parser.Pushed)
@[simp] theorem afterPush_cfg : (s.afterPush x).cfg = s.cfg := rfl
@[simp] theorem afterPush_fr : (s.afterPush x).fr = s.fr := rfl
@[simp] theorem afterPush_tp : (s.afterPush x).tp = x.parser := rfl
@[simp] theorem afterPush_ts : (s.afterPush x).ts = s.ts.store x.record := rfl
@[simp] theorem afterPush_esc : (s.afterPush x).esc = s.esc := rfl
@[simp] theorem afterPush_input : (s.afterPush x).input = s.input := rfl
@[simp] theorem afterPush_out : (s.afterPush x).out = x.event := rfl
end afterPush

@[simp] theorem store_none (ts : Slots) : ts.store none = ts := rfl

@[simp] theorem get_store_same (ts : Slots) (k : Kind) (p : List Byte) : (ts.store (some (k, p))).get k = ⟨true, p⟩ :=
  get_put_same ts k _

theorem get_store_other (ts : Slots) (k j : Kind) (p : List Byte) (h : j ≠ k) :
    (ts.store (some (k, p))).get j = ts.get j :=
  get_put_other ts k j _ h

/-- `finish` (R158) through its verdict. -/
theorem finishBlock_eq (body : List Byte) (got : Byte) (s : State) :
    finishBlock body got s = .next (State.emit { s with ts := s.ts.store (blockVerdict s.cfg body got).2 }
      (blockVerdict s.cfg body got).1) := by
  rcases finishBlock_cases body got s with ⟨hcrc, h⟩ | ⟨hcrc, rfl, h⟩ | ⟨tag, p, hcrc, rfl, hk, h⟩ |
    ⟨tag, p, k, hcrc, rfl, hk, hlen, h⟩ | ⟨tag, p, k, hcrc, rfl, hk, hlen, h⟩
  · simp [h, blockVerdict, hcrc]
  · simp [h, blockVerdict, ← hcrc]
  · simp [h, blockVerdict, ← hcrc, hk]
  · simp [h, blockVerdict, ← hcrc, hk, hlen]
  · simp [h, blockVerdict, ← hcrc, hk, hlen, Slots.store]

/-- `TP.PUSH` is `Parser.push` on the parser registers: it faults or writes its outcome to the state. -/
theorem exec_tpPush (b : Byte) (s : State) :
    exec (.tpPush b) s =
      (s.tp.push s.cfg b).elim (.fault (.outsideBuffer s.tp.cnt.toNat)) (fun x => .next (s.afterPush x)) := by
  rcases execTpPush_cases b s with ⟨hst, hb, h⟩ | ⟨hst, hb, h⟩ | ⟨hst, hb, h⟩ | ⟨hst, hb, h⟩ | ⟨hst, hcnt, h⟩ |
    ⟨hst, hcnt, hlen, h⟩ | ⟨hst, hcnt, hlen, h⟩
  · simp [h, Parser.push, hst, hb, State.afterPush]
  · simp [h, Parser.push, hst, hb, State.afterPush]
  · simp only [h, Parser.push, hst, if_pos hb]; rfl
  · simp only [h, Parser.push, hst, if_neg hb]; rfl
  · simp [h, Parser.push, hst, hcnt]
  · simp [h, Parser.push, hst, Nat.not_le.mpr hcnt, hlen, parser_stored_block, State.afterPush]
  · simp [h, finishBlock_eq, Parser.push, hst, Nat.not_le.mpr hcnt, Nat.not_lt.mpr hlen, Parser.closed,
      parser_stored_block, State.afterPush]

/-- What `TP.PUSH` answers. -/
theorem execTpPush_next (b : Byte) (s t : State) (h : exec (.tpPush b) s = .next t) :
    ∃ x, s.tp.push s.cfg b = some x ∧ t = s.afterPush x := by
  rw [exec_tpPush] at h
  cases hp : s.tp.push s.cfg b with
  | none => simp [hp] at h
  | some x => exact ⟨x, rfl, by simpa [hp, eq_comm] using h⟩

/-- A block is accepted as the record its event names, or no slot is written (R40, R158, R168). -/
theorem blockVerdict_cases (c : Config) (body : List Byte) (got : Byte) :
    ((blockVerdict c body got).2 = none ∧ ∀ k, (blockVerdict c body got).1 ≠ .record k) ∨
    ∃ k p, blockVerdict c body got = (.record k, some (k, p)) ∧ body = c.tagOf k :: p ∧ p.length = c.lenOf k ∧
      got = crc8 c body := by
  fun_cases blockVerdict c body got with
  | case5 tag p k hk hlen hcrc =>
    exact .inr ⟨k, p, rfl, by rw [tagOf_of_kindOf c tag k hk], not_not.mp hlen, not_not.mp hcrc⟩
  | _ => exact .inl ⟨rfl, by simp⟩

/-- A push accepts the record its event names, out of a complete block, or accepts none. -/
theorem push_record_cases (c : Config) (p : Parser) (b : Byte) (x : Parser.Pushed) (h : p.push c b = some x) :
    (x.record = none ∧ ∀ k, x.event ≠ .record k) ∨
    ∃ k d, x.record = some (k, d) ∧ x.event = .record k ∧ p.st = .block ∧ p.body = c.tagOf k :: d ∧
      d.length = c.lenOf k ∧ b = crc8 c p.body := by
  revert h
  fun_cases Parser.push c p b with
  | case5 => simp
  | case7 hst hcnt hlen =>
    rintro ⟨⟩
    rcases blockVerdict_cases c p.body b with h | ⟨k, d, hv, hbody, hd, hcrc⟩
    · exact .inl h
    · exact .inr ⟨k, d, by rw [hv], by rw [hv], hst, hbody, hd, hcrc⟩
  | _ => rintro ⟨⟩; exact .inl ⟨rfl, by simp⟩

/-- A push leaves `TP_BUF` as `Parser.stored` gives it: nothing but the pushed byte is stored. -/
theorem push_buf (c : Config) (p : Parser) (b : Byte) (x : Parser.Pushed) (h : p.push c b = some x) :
    x.parser.buf = (p.stored b).buf := by
  revert h
  fun_cases Parser.push c p b with
  | case5 => simp
  | case6 => rintro ⟨⟩; rfl
  | case7 => rintro ⟨⟩; rfl
  | _ => rintro ⟨⟩; simp [Parser.stored, Parser.storeAddr, *]

end Sys2Proof.Machine
end

section
/-!
PROOFS. What every operation writes and what it leaves as it was: the slots (spec 10_state.md R40), the parameters
(R36), one framer and one byte of its buffer under `FR.PUSH` (R131 to R135), the parser, one byte of its buffer and
one slot under `TP.PUSH` (R156, R157, R168), and `ESC_GEAR` under `ESC.TICK` (R38).
-/
namespace Sys2Proof.Machine

/-! ## The telemetry slots (R40) -/

/-- A push changes a slot only by the record it accepts. -/
theorem push_slot_change (c : Config) (p : Parser) (b : Byte) (x : Parser.Pushed) (ts : Slots) (k : Kind)
    (h : p.push c b = some x) (hne : (ts.store x.record).get k ≠ ts.get k) :
    ∃ d, x.record = some (k, d) ∧ x.event = .record k ∧ p.st = .block ∧ p.body = c.tagOf k :: d ∧
      d.length = c.lenOf k ∧ b = crc8 c p.body := by
  rcases push_record_cases c p b x h with ⟨hrec, -⟩ | ⟨j, d, hrec, hx⟩
  · exact absurd (by rw [hrec, store_none]) hne
  · obtain rfl : k = j := by
      by_contra hkj
      exact hne (by rw [hrec, get_store_other _ _ _ _ hkj])
    exact ⟨d, hrec, hx⟩

/-- Of the port operations only `TP.PUSH` and `RST` write the record set. -/
theorem exec_ts_of_port (i : Instr) (s t : State) (h : exec i s = .next t) (hport : i.record? = none) :
    t.ts = s.ts ∨ i = .rst ∨ ∃ b, i = .tpPush b := by
  rcases instr_cases i with ⟨f, rfl⟩ | ⟨w, rfl⟩ | ⟨n, b, rfl⟩ | ⟨b, rfl⟩ | ⟨tw, rfl⟩ | rfl | ⟨k, p, rfl⟩
  · cases h; exact .inl rfl
  · cases h; exact .inl rfl
  · obtain ⟨f, g, e, -, -, rfl⟩ := execFrPush_next n b s t h
    exact .inl rfl
  · exact .inr (.inr ⟨b, rfl⟩)
  · cases h; exact .inl rfl
  · exact .inr (.inl rfl)
  · simp at hport

/-- Settles O37: a step that changes slot `K` ran `RST`, or a `TP.PUSH` that accepted a record of kind `K`; an idle
step and every other port operation keep the record set. -/
theorem slotsChangeOnlyByAValidatedRecord : Obligations.SlotsChangeOnlyByAValidatedRecord := by
  intro s t k h hne
  rcases step_cases s with ⟨-, -, hs⟩ | ⟨i, rest, -, hd, hs⟩ | ⟨e, -, -, hs⟩ | ⟨-, hs⟩
  · cases hs.symm.trans h
    exact absurd rfl hne
  · rw [hs] at h
    rcases exec_ts_of_port i _ t h (decodePort_record _ _ _ hd) with hts | rfl | ⟨b, rfl⟩
    · exact absurd (by rw [hts]) hne
    · exact .inl ⟨rest, hd⟩
    · obtain ⟨x, hx, rfl⟩ := execTpPush_next b _ t h
      obtain ⟨d, hrec, hev, hst, hbody, hlen, hcrc⟩ := push_slot_change s.cfg s.tp b x s.ts k hx hne
      exact .inr ⟨b, d, rest, hd, hst, hev, by simp [hrec], hlen, hbody, hbody ▸ hcrc⟩
  · cases hs.symm.trans h
  · cases hs.symm.trans h

/-! ## The parameters and the pending events (R36, R321) -/

/-- What a record decoder answers. -/
theorem execRecord_next (k : Kind) (p : List Byte) (s t : State) (h : exec (Instr.ofRecord k p) s = .next t) :
    p.length = s.cfg.lenOf k ∧ t = State.emit { s with ts := s.ts.put k ⟨true, p⟩ } (.record k) := by
  rw [exec_ofRecord] at h
  rcases recordInto_cases k p s with ⟨hlen, hr⟩ | ⟨-, hr⟩
  · cases hr.symm.trans h; exact ⟨hlen, rfl⟩
  · cases hr.symm.trans h

/-- Settles O57: `RST` rebuilds `N_RC` framers and keeps parameters and pending bytes; every other operation keeps all
three. -/
theorem parametersNeverChange : Obligations.ParametersNeverChange := by
  intro s t i h
  rcases instr_cases i with ⟨f, rfl⟩ | ⟨w, rfl⟩ | ⟨n, b, rfl⟩ | ⟨b, rfl⟩ | ⟨tw, rfl⟩ | rfl | ⟨k, p, rfl⟩
  · cases h; exact ⟨rfl, rfl, .inl rfl⟩
  · cases h; exact ⟨rfl, rfl, .inl rfl⟩
  · obtain ⟨f, g, e, -, -, rfl⟩ := execFrPush_next n b s t h
    exact ⟨rfl, rfl, .inl (by simp)⟩
  · obtain ⟨x, -, rfl⟩ := execTpPush_next b s t h
    exact ⟨rfl, rfl, .inl rfl⟩
  · cases h; exact ⟨rfl, rfl, .inl rfl⟩
  · cases h; exact ⟨rfl, rfl, .inr (by simp)⟩
  · obtain ⟨-, rfl⟩ := execRecord_next k p s t h
    exact ⟨rfl, rfl, .inl rfl⟩

/-! ## The frame of `FR.PUSH` -/

/-- A push leaves `FR_BUF` as `Framer.stored` gives it. -/
theorem framer_push_buf (c : Config) (f g : Framer) (b : Byte) (e : Event) (h : f.push c b = some (g, e)) :
    g.buf = (f.stored c b).buf := by
  rcases push_cases c f b with ⟨hst, hb, hp⟩ | ⟨hst, hb, hp⟩ | ⟨hst, hcnt, hp⟩ | ⟨hst, hcnt, hb, hp⟩ |
    ⟨fr, hst, hcnt, hb, hd, hp⟩ | ⟨e', hst, hcnt, hb, hd, hp⟩ | ⟨-, -, hp⟩
  · cases hp.symm.trans h; simp [Framer.stored, Framer.storeAddr, hst, hb]
  · cases hp.symm.trans h; rw [stored_searching c f b hst hb]
  · cases hp.symm.trans h; rw [stored_accumulating c f b hst]
  · cases hp.symm.trans h; rw [stored_accumulating c f b hst, hcnt]
  · cases hp.symm.trans h; rw [stored_accumulating c f b hst, hcnt]
  · cases hp.symm.trans h; rw [stored_accumulating c f b hst, hcnt]
  · cases hp.symm.trans h

/-- `RXF` is written by a push with event `Frame` alone (R135). -/
theorem framer_push_rxf (c : Config) (f g : Framer) (b : Byte) (e : Event) (h : f.push c b = some (g, e)) :
    (∃ fr, e = .frame fr ∧ g.rxf = fr) ∨ ((∀ fr, e ≠ .frame fr) ∧ g.rxf = f.rxf) := by
  rcases push_cases c f b with ⟨-, -, hp⟩ | ⟨-, -, hp⟩ | ⟨-, -, hp⟩ | ⟨-, -, -, hp⟩ | ⟨fr, -, -, -, -, hp⟩ |
    ⟨e', -, -, -, -, hp⟩ | ⟨-, -, hp⟩
  · cases hp.symm.trans h; exact .inr ⟨by simp, rfl⟩
  · cases hp.symm.trans h; exact .inr ⟨by simp, rfl⟩
  · cases hp.symm.trans h; exact .inr ⟨by simp, rfl⟩
  · cases hp.symm.trans h; exact .inr ⟨by simp, rfl⟩
  · cases hp.symm.trans h; exact .inl ⟨fr, rfl, rfl⟩
  · cases hp.symm.trans h; exact .inr ⟨by simp, rfl⟩
  · cases hp.symm.trans h

/-- What a canonical `FR_BUF` reads after the store of a push. -/
theorem read_stored (c : Config) (f : Framer) (b : Byte) (a : Nat) (hwf : f.buf.wf = true) :
    (f.stored c b).buf.read a = if f.storeAddr c b = some a then b else f.buf.read a := by
  unfold Framer.stored
  cases f.storeAddr c b with
  | none => simp
  | some a' => simp [read_write _ _ _ _ hwf, eq_comm]

/-- Settles O20: `FR.PUSH` replaces the one framer, and in it the push stores one byte and writes `RXF` with a `Frame`
alone. -/
theorem framerPushChangesOnlyItsInstance : Obligations.FramerPushChangesOnlyItsInstance := by
  intro s t i b f hf hwf h
  obtain ⟨f', g, e, hf', hp, rfl⟩ := execFrPush_next i b s t h
  obtain rfl : f = f' := Option.some.inj (hf.symm.trans hf')
  have hi : i < s.fr.length := (List.getElem?_eq_some_iff.mp hf).1
  have hread := framer_push_buf s.cfg f g b e hp
  refine ⟨rfl, rfl, rfl, rfl, rfl, by simp, fun j hj => by simp [List.getElem?_set_ne hj.symm], g, by simp [hi],
    fun a ha => ?_, fun a ha => ?_, framer_push_rxf s.cfg f g b e hp⟩
  · rw [hread, read_stored s.cfg f b a hwf, if_pos ha]
  · rw [hread, read_stored s.cfg f b a hwf, if_neg ha]

/-! ## The frame of `TP.PUSH` -/

/-- What a canonical `TP_BUF` reads after the store of a push. -/
theorem read_parser_stored (p : Parser) (b : Byte) (a : Nat) (hwf : p.buf.wf = true) :
    (p.stored b).buf.read a = if p.storeAddr = some a then b else p.buf.read a := by
  unfold Parser.stored
  cases p.storeAddr with
  | none => simp
  | some a' => simp [read_write _ _ _ _ hwf, eq_comm]

/-- Settles O33: `TP.PUSH` writes the parser, in it one byte of the buffer, and the slot of the record it accepts. -/
theorem parserPushChangesOnlyTheParserAndOneSlot : Obligations.ParserPushChangesOnlyTheParserAndOneSlot := by
  intro s t b hwf h
  obtain ⟨x, hx, rfl⟩ := execTpPush_next b s t h
  have hread := push_buf s.cfg s.tp b x hx
  refine ⟨rfl, rfl, rfl, rfl, fun a ha => ?_, fun a ha => ?_, fun k hk => ?_⟩
  · rw [afterPush_tp, hread, read_parser_stored s.tp b a hwf, if_pos ha]
  · rw [afterPush_tp, hread, read_parser_stored s.tp b a hwf, if_neg ha]
  · by_contra hne
    obtain ⟨d, -, hev, -⟩ := push_slot_change s.cfg s.tp b x s.ts k hx hne
    exact hk hev

/-! ## `ESC_GEAR` (R38) -/

/-- A gear-aware tick derives the gear again and does not read the old one. -/
theorem tick_gear_gearAware (c : Config) (e : Esc) (tw : BitVec 28) (g : BitVec 4) (hm : c.gearMode = true) :
    Esc.tick c { e with gear := g } tw = Esc.tick c e tw := by
  simp [Esc.tick, tickGear, hm]

/-- A gear-less tick carries the old gear along. -/
theorem tick_gear_gearless (c : Config) (e : Esc) (tw : BitVec 28) (g : BitVec 4) (hm : c.gearMode = false) :
    Esc.tick c { e with gear := g } tw = { Esc.tick c e tw with gear := g } := by
  simp [Esc.tick, tickGear, hm]

/-- Settles O51: of the ESC registers after a tick only `ESC_GEAR` itself can depend on the old `ESC_GEAR`, and in
gear-aware mode not even that. -/
theorem escGearIsNeverRead : Obligations.EscGearIsNeverRead := by
  intro s tw g
  refine ⟨fun hm => ⟨⟨_, exec_escTick tw s, ?_⟩, ?_⟩, fun hm => ⟨_, exec_escTick tw s, ?_, ?_⟩⟩
  · simp [Esc.tick, tickGear, hm]
  · simp only [exec_escTick, tick_gear_gearAware s.cfg s.esc tw g hm]
  · simp [Esc.tick, tickGear, hm]
  · simp only [exec_escTick, tick_gear_gearless s.cfg s.esc tw g hm]
    rfl

end Sys2Proof.Machine
end

section
/-!
PROOFS. Every operation keeps the invariant of the block (spec 10_state.md R30, R33 to R35, R37 to R39; 20_memory.md
R64; 44_esc_state_machine.md R231), unit by unit.
-/
namespace Sys2Proof.Machine

/-! ## The units' invariants as propositions -/

theorem framer_wf_iff (c : Config) (f : Framer) :
    f.wf c = true ↔ (f.st = .searching ↔ f.cnt = 0) ∧ f.cnt.toNat ≤ 24 ∧
      (f.st = .accumulating → f.buf.read 0 = c.startMark) ∧ f.buf.wf = true ∧ f.buf.within frBufSize = true := by
  simp only [Framer.wf, Bool.and_eq_true, decide_eq_true_eq, and_assoc]

theorem parser_wf_iff (p : Parser) :
    p.wf = true ↔ (p.st = .block → 1 ≤ p.len.toNat ∧ p.len.toNat ≤ tlmMaxLen ∧ p.cnt.toNat < p.len.toNat) ∧
      p.cnt.toNat ≤ 61 ∧ p.buf.wf = true ∧ p.buf.within tpBufSize = true := by
  simp only [Parser.wf, Bool.and_eq_true, decide_eq_true_eq, and_assoc]

theorem slots_wf_iff (c : Config) (ts : Slots) : ts.wf c = true ↔ ∀ k, (ts.get k).p.length = c.lenOf k := by
  have hall : ∀ k, k ∈ Kind.all := by intro k; cases k <;> decide
  simp [Slots.wf, hall]

theorem esc_wf_iff (c : Config) (e : Esc) :
    e.wf c = true ↔ chMin ≤ e.drive.toNat ∧ e.drive.toNat ≤ chMax ∧ -1 ≤ e.gear.toInt ∧ e.gear.toInt ≤ 6 ∧
      (c.gearMode = false → e.gear = 0 ∧ e.phase ≠ .reverse) := by
  simp only [Esc.wf, decide_eq_true_eq]

theorem inv_iff (s : State) :
    s.inv = true ↔ s.cfg.ok = true ∧ s.fr.length = s.cfg.nRc ∧ (∀ f ∈ s.fr, f.wf s.cfg = true) ∧ s.tp.wf = true ∧
      s.ts.wf s.cfg = true ∧ s.esc.wf s.cfg = true := by
  simp only [State.inv, Bool.and_eq_true, decide_eq_true_eq, List.all_eq_true, and_assoc]

/-! ## Framers -/

/-- A byte stored inside the buffer keeps it canonical and inside its size. -/
theorem buffer_write (m : Memory) (n a : Nat) (b : Byte) (h : m.wf = true ∧ m.within n = true) (ha : a < n) :
    (m.write a b).wf = true ∧ (m.write a b).within n = true :=
  ⟨wf_write m a b h.1, within_write n m a b h.2 ha⟩

/-- A push keeps the invariant of its framer. -/
theorem framer_push_wf (c : Config) (f g : Framer) (b : Byte) (e : Event) (hf : f.wf c = true)
    (h : f.push c b = some (g, e)) : g.wf c = true := by
  obtain ⟨hst, hcnt, hstart, hbuf⟩ := (framer_wf_iff c f).mp hf
  have hstore : ∀ a, a ≤ 24 → (f.buf.write a b).wf = true ∧ (f.buf.write a b).within frBufSize = true :=
    fun a ha => buffer_write f.buf frBufSize a b hbuf (Nat.lt_succ_of_le ha)
  rcases push_cases c f b with ⟨hs, hb, hp⟩ | ⟨hs, hb, hp⟩ | ⟨hs, hlt, hp⟩ | ⟨hs, hlt, hb, hp⟩ |
    ⟨fr, hs, hlt, hb, hd, hp⟩ | ⟨e', hs, hlt, hb, hd, hp⟩ | ⟨-, -, hp⟩
  · cases hp.symm.trans h; exact hf
  · cases hp.symm.trans h
    exact (framer_wf_iff c _).mpr ⟨by simp, by simp, fun _ => by simp [read_write _ _ _ _ hbuf.1, hb],
      hstore 0 (by omega)⟩
  · cases hp.symm.trans h
    have hpos : f.cnt ≠ 0 := by simpa [hs] using hst
    have hnext : (f.cnt + 1).toNat = f.cnt.toNat + 1 := by bv_omega
    refine (framer_wf_iff c _).mpr ⟨?_, by simp only [hnext]; omega, fun _ => ?_, hstore _ (by omega)⟩
    · have hne : f.cnt + 1 ≠ 0 := by bv_omega
      simpa [hs] using hne
    · rw [read_write _ _ _ _ hbuf.1, if_neg (by bv_omega)]
      exact hstart hs
  · cases hp.symm.trans h
    exact (framer_wf_iff c _).mpr ⟨by simp, by simp, by simp, hstore 24 (by omega)⟩
  · cases hp.symm.trans h
    exact (framer_wf_iff c _).mpr ⟨by simp, by simp, by simp, hstore 24 (by omega)⟩
  · cases hp.symm.trans h
    exact (framer_wf_iff c _).mpr ⟨by simp, by simp, by simp, hstore 24 (by omega)⟩
  · cases hp.symm.trans h

/-! ## Parser and slots -/

/-- A push keeps the invariant of the parser. -/
theorem parser_push_wf (c : Config) (p : Parser) (b : Byte) (x : Parser.Pushed) (hp : p.wf = true)
    (h : p.push c b = some x) : x.parser.wf = true := by
  obtain ⟨hblock, hcnt, hbuf⟩ := (parser_wf_iff p).mp hp
  have hstore : (p.buf.write p.cnt.toNat b).wf = true ∧ (p.buf.write p.cnt.toNat b).within tpBufSize = true :=
    buffer_write p.buf tpBufSize p.cnt.toNat b hbuf (Nat.lt_succ_of_le hcnt)
  revert h
  fun_cases Parser.push c p b with
  | case1 => rintro ⟨⟩; exact (parser_wf_iff _).mpr ⟨by simp, hcnt, hbuf⟩
  | case2 => rintro ⟨⟩; exact hp
  | case3 => rintro ⟨⟩; exact (parser_wf_iff _).mpr ⟨by simp, hcnt, hbuf⟩
  | case4 hst hb =>
    rintro ⟨⟩
    obtain ⟨hzero, hmax⟩ := not_or.mp hb
    have hle : b.toNat ≤ 62 := Nat.not_lt.mp hmax
    have hlen : (b.setWidth 6).toNat = b.toNat := by bv_omega
    have hpos : 0 < b.toNat := by bv_omega
    exact (parser_wf_iff _).mpr ⟨fun _ => by simp only [hlen]; exact ⟨hpos, hle, hpos⟩, by simp, hbuf⟩
  | case5 => simp
  | case6 hst hin hlt =>
    rintro ⟨⟩
    obtain ⟨hlen1, hlen62, -⟩ := hblock hst
    have hle : p.len.toNat ≤ 62 := hlen62
    have hnext : (p.cnt + 1).toNat = p.cnt.toNat + 1 := by bv_omega
    rw [parser_stored_block p b hst]
    exact (parser_wf_iff _).mpr ⟨fun _ => ⟨hlen1, hlen62, by simp only [hnext]; exact hlt⟩,
      by simp only [hnext]; omega, hstore⟩
  | case7 hst hin hge =>
    rintro ⟨⟩
    rw [Parser.closed, parser_stored_block p b hst]
    exact (parser_wf_iff _).mpr ⟨by simp, by simp, hstore⟩

/-- A slot written with `LEN_K` bytes keeps the payload lengths (R39). -/
theorem slots_wf_put (c : Config) (ts : Slots) (k : Kind) (p : List Byte) (h : ts.wf c = true)
    (hp : p.length = c.lenOf k) : (ts.put k ⟨true, p⟩).wf c = true := by
  refine (slots_wf_iff c _).mpr fun j => ?_
  by_cases hj : j = k
  · rw [hj, get_put_same, hp]
  · rw [get_put_other _ _ _ _ hj, (slots_wf_iff c ts).mp h]

/-- A push keeps the payload lengths: an accepted record has `LEN_K` bytes (R40). -/
theorem slots_wf_push (c : Config) (p : Parser) (b : Byte) (x : Parser.Pushed) (ts : Slots) (h : ts.wf c = true)
    (hx : p.push c b = some x) : (ts.store x.record).wf c = true := by
  rcases push_record_cases c p b x hx with ⟨hrec, -⟩ | ⟨k, d, hrec, -, -, -, hlen, -⟩
  · rw [hrec]; exact h
  · rw [hrec]; exact slots_wf_put c ts k d h hlen

/-! ## The ESC machine -/

/-- In gear-less mode no tick ends in `Reverse` (R231). -/
theorem tickTarget_gearless (c : Config) (ph : Phase) (tw : BitVec 28) (hm : c.gearMode = false) :
    (tickTarget c ph tw).1 ≠ .reverse := by
  simp only [tickTarget, hm, gearlessTick]
  cases classify c (gasAmount c tw) (brakeAmount c tw) <;> simp

/-- The selected gear fits the 4 bits of `ESC_GEAR` (R37). -/
theorem toInt_selectGear (tw : BitVec 28) : (BitVec.ofInt 4 (selectGear tw)).toInt = selectGear tw := by
  obtain ⟨hlo, hhi⟩ := selectGear_range tw
  exact BitVec.toInt_ofInt_eq_self (by decide) (by omega) (by omega)

/-- A tick leaves legal ESC registers. -/
theorem esc_tick_wf (c : Config) (e : Esc) (tw : BitVec 28) (h : e.wf c = true) : (e.tick c tw).wf c = true := by
  obtain ⟨-, -, hlo, hhi, hless⟩ := (esc_wf_iff c e).mp h
  obtain ⟨hmin, hmax⟩ := clampDrive_range (tickTarget c e.phase tw).2
  obtain ⟨hsel, hsel'⟩ := selectGear_range tw
  cases hm : c.gearMode with
  | true =>
    have hgear : (e.tick c tw).gear.toInt = selectGear tw := by
      simp only [Esc.tick, tickGear, hm, if_true, toInt_selectGear]
    exact (esc_wf_iff c _).mpr ⟨hmin, hmax, hgear ▸ hsel, hgear ▸ hsel', by simp [hm]⟩
  | false =>
    have hgear : (e.tick c tw).gear = e.gear := by simp [Esc.tick, tickGear, hm]
    exact (esc_wf_iff c _).mpr ⟨hmin, hmax, hgear ▸ hlo, hgear ▸ hhi,
      fun _ => ⟨hgear ▸ (hless hm).1, tickTarget_gearless c e.phase tw hm⟩⟩

/-! ## Reset -/

theorem framer_reset_wf (c : Config) : Framer.reset.wf c = true :=
  (framer_wf_iff c _).mpr ⟨by decide, by decide, by simp [Framer.reset], rfl, rfl⟩

theorem slots_reset_wf (c : Config) : (Slots.reset c).wf c = true :=
  (slots_wf_iff c _).mpr fun k => by rw [get_reset, Slot.reset, List.length_replicate]

theorem esc_reset_wf (c : Config) : Esc.reset.wf c = true :=
  (esc_wf_iff c _).mpr ⟨by decide, by decide, by decide, by decide, fun _ => by decide⟩

theorem parser_reset_wf : Parser.reset.wf = true := by decide

/-- The reset state keeps the invariant under every legal configuration. -/
theorem inv_resetAt (c : Config) (h : c.ok = true) : (State.resetAt c).inv = true :=
  (inv_iff _).mpr ⟨h, by simp, fun f hf => (List.eq_of_mem_replicate hf) ▸ framer_reset_wf c, parser_reset_wf,
    slots_reset_wf c, esc_reset_wf c⟩

/-! ## Every operation, every step -/

/-- Every operation keeps the invariant. -/
theorem exec_keeps_inv (i : Instr) (s t : State) (hs : s.inv = true) (h : exec i s = .next t) : t.inv = true := by
  obtain ⟨hok, hlen, hfr, htp, hts, hesc⟩ := (inv_iff s).mp hs
  rcases instr_cases i with ⟨f, rfl⟩ | ⟨w, rfl⟩ | ⟨n, b, rfl⟩ | ⟨b, rfl⟩ | ⟨tw, rfl⟩ | rfl | ⟨k, p, rfl⟩
  · cases h; exact hs
  · cases h; exact hs
  · obtain ⟨f, g, e, hf, hp, rfl⟩ := execFrPush_next n b s t h
    have hg := framer_push_wf s.cfg f g b e (hfr f (List.mem_of_getElem? hf)) hp
    refine (inv_iff _).mpr ⟨hok, by simpa using hlen, fun f' hf' => ?_, htp, hts, hesc⟩
    rcases List.mem_or_eq_of_mem_set hf' with hold | rfl
    · exact hfr f' hold
    · exact hg
  · obtain ⟨x, hx, rfl⟩ := execTpPush_next b s t h
    exact (inv_iff _).mpr ⟨hok, hlen, hfr, parser_push_wf s.cfg s.tp b x htp hx,
      slots_wf_push s.cfg s.tp b x s.ts hts hx, hesc⟩
  · cases h
    exact (inv_iff _).mpr ⟨hok, hlen, hfr, htp, hts, esc_tick_wf s.cfg s.esc tw hesc⟩
  · cases h
    exact inv_resetAt s.cfg hok
  · obtain ⟨hp, rfl⟩ := execRecord_next k p s t h
    exact (inv_iff _).mpr ⟨hok, hlen, hfr, htp, slots_wf_put s.cfg s.ts k p hts hp, hesc⟩

/-- Settles O54: the invariant does not speak of the pending bytes that a step consumes nor of the event output, and
every operation keeps it. -/
theorem everyStepKeepsTheInvariant : Obligations.EveryStepKeepsTheInvariant := by
  intro s t hs h
  rcases step_cases s with ⟨-, -, hstep⟩ | ⟨i, rest, -, -, hstep⟩ | ⟨e, -, -, hstep⟩ | ⟨-, hstep⟩
  · cases hstep.symm.trans h; exact hs
  · exact exec_keeps_inv i { s with input := rest } t hs (hstep.symm.trans h)
  · cases hstep.symm.trans h
  · cases hstep.symm.trans h

end Sys2Proof.Machine
end

section
/-!
PROOFS. Noninterference: two runs that agree on a unit's own registers agree on what the unit does (spec 10_state.md
R21, 41_stream_framer.md R139, 42_telemetry_parser.md R170, 70_reset_and_hazards.md R306), and no operation reads
`TP_ADDR` (10_state.md R32).
-/
namespace Sys2Proof.Machine

/-! ## Runs in lockstep -/

/-- Two outcomes in step: both stop, or both answer with the same event and next states that `R` relates. -/
def Lockstep (R : State → State → Prop) (r r' : Result) : Prop :=
  (∃ t t', r = .next t ∧ r' = .next t' ∧ t.out = t'.out ∧ R t t') ∨ ((∀ t, r ≠ .next t) ∧ ∀ t', r' ≠ .next t')

theorem runSchedule_of_next (i : Instr) (is : List Instr) (s t : State) (h : exec i s = .next t) :
    runSchedule (i :: is) s = (runSchedule is t).map (fun r => (r.1, t.out :: r.2)) := by
  simp only [runSchedule, h]
  cases runSchedule is t <;> rfl

theorem runSchedule_of_stop (i : Instr) (is : List Instr) (s : State) (h : ∀ t, exec i s ≠ .next t) :
    runSchedule (i :: is) s = none := by
  cases he : exec i s with
  | next t => exact absurd he (h t)
  | fault r => simp [runSchedule, he]
  | refused r => simp [runSchedule, he]

/-- Two streams whose operations run in lockstep both stop, or end related with the same event list. -/
theorem runSchedule_lockstep (R : State → State → Prop) (I J : Byte → Instr)
    (hstep : ∀ b s s', R s s' → Lockstep R (exec (I b) s) (exec (J b) s')) (w : List Byte) (s s' : State) (h : R s s') :
    (runSchedule (w.map I) s = none ∧ runSchedule (w.map J) s' = none) ∨
    ∃ u u' es, runSchedule (w.map I) s = some (u, es) ∧ runSchedule (w.map J) s' = some (u', es) ∧ R u u' := by
  induction w generalizing s s' with
  | nil => exact .inr ⟨s, s', [], rfl, rfl, h⟩
  | cons b w ih =>
    simp only [List.map_cons]
    rcases hstep b s s' h with ⟨t, t', ht, ht', hout, hR⟩ | ⟨hs, hs'⟩
    · rw [runSchedule_of_next _ _ _ _ ht, runSchedule_of_next _ _ _ _ ht']
      rcases ih t t' hR with ⟨hn, hn'⟩ | ⟨u, u', es, hu, hu', hRu⟩
      · exact .inl ⟨by rw [hn]; rfl, by rw [hn']; rfl⟩
      · exact .inr ⟨u, u', t.out :: es, by rw [hu]; rfl, by rw [hu', hout]; rfl, hRu⟩
    · exact .inl ⟨runSchedule_of_stop _ _ _ hs, runSchedule_of_stop _ _ _ hs'⟩

/-! ## The framer and the parser depend on their own registers alone (R21, R139, R170) -/

/-- Framer `i` of one state and framer `j` of the other hold the same registers, under the same parameters. -/
def SameFramer (i j : Nat) (s s' : State) : Prop :=
  s.cfg = s'.cfg ∧ ∃ f, s.fr[i]? = some f ∧ s'.fr[j]? = some f

/-- Same parameters, same parser registers, and each slot with the same contents or as in the states `s0`, `s0'` that
the runs began in. -/
def SameParser (s0 s0' s s' : State) : Prop :=
  s.cfg = s'.cfg ∧ s.tp = s'.tp ∧
    ∀ k, s.ts.get k = s'.ts.get k ∨ (s.ts.get k = s0.ts.get k ∧ s'.ts.get k = s0'.ts.get k)

/-- `FR.PUSH` stops on a framer whose push does not answer. -/
theorem execFrPush_stop (i : Nat) (b : Byte) (s : State) (f : Framer) (hf : s.fr[i]? = some f)
    (hp : f.push s.cfg b = none) (t : State) : exec (.frPush i b) s ≠ .next t := by
  intro h
  obtain ⟨f', g, e, hf', hp', -⟩ := execFrPush_next i b s t h
  obtain rfl : f = f' := Option.some.inj (hf.symm.trans hf')
  cases hp.symm.trans hp'

/-- The push of a byte to a framer is a function of that framer and the parameters. -/
theorem execFrPush_lockstep (i j : Nat) (b : Byte) (s s' : State) (h : SameFramer i j s s') :
    Lockstep (SameFramer i j) (exec (.frPush i b) s) (exec (.frPush j b) s') := by
  obtain ⟨hcfg, f, hf, hf'⟩ := h
  cases hp : f.push s.cfg b with
  | none => exact .inr ⟨execFrPush_stop i b s f hf hp, execFrPush_stop j b s' f hf' (hcfg ▸ hp)⟩
  | some x =>
    obtain ⟨g, e⟩ := x
    have hi : i < s.fr.length := (List.getElem?_eq_some_iff.mp hf).1
    have hj : j < s'.fr.length := (List.getElem?_eq_some_iff.mp hf').1
    exact .inl ⟨_, _, execFrPush_of_push i b s f g e hf hp, execFrPush_of_push j b s' f g e hf' (hcfg ▸ hp), rfl,
      hcfg, g, by simp [hi], by simp [hj]⟩

/-- What a push to the parser gives is a function of the parser registers and the parameters; the slot it writes ends
with the same contents, every other slot as before. -/
theorem execTpPush_lockstep (s0 s0' : State) (b : Byte) (s s' : State) (h : SameParser s0 s0' s s') :
    Lockstep (SameParser s0 s0') (exec (.tpPush b) s) (exec (.tpPush b) s') := by
  obtain ⟨hcfg, htp, hts⟩ := h
  rw [exec_tpPush, exec_tpPush, ← htp, ← hcfg]
  cases s.tp.push s.cfg b with
  | none => exact .inr ⟨by simp, by simp⟩
  | some x =>
    refine .inl ⟨_, _, rfl, rfl, rfl, hcfg, rfl, fun k => ?_⟩
    simp only [afterPush_ts]
    cases x.record with
    | none => exact hts k
    | some kd =>
      obtain ⟨j, d⟩ := kd
      by_cases hkj : k = j
      · subst hkj; exact .inl (by simp)
      · simpa only [get_store_other _ _ _ _ hkj] using hts k

/-- Settles O23: both streams run in lockstep; for the framer a chunk boundary is no operation, so only the
concatenation of the chunks counts. -/
theorem framerAndParserDependOnTheirOwnRegistersAlone :
    Obligations.FramerAndParserDependOnTheirOwnRegistersAlone := by
  refine ⟨fun s s' i j f chunks chunks' hcfg hf hf' hflat => ?_, fun s s' w hcfg htp => ?_⟩
  · rw [frChunks, frChunks, ← hflat]
    rcases runSchedule_lockstep (SameFramer i j) (.frPush i) (.frPush j) (execFrPush_lockstep i j) chunks.flatten s s'
      ⟨hcfg, f, hf, hf'⟩ with ⟨hn, hn'⟩ | ⟨u, u', es, hu, hu', -, g, hg, hg'⟩
    · simp only [frStream, hn, hn', Option.map_none]
    · simp only [frStream, hu, hu', Option.map_some, hg, hg']
  · rcases runSchedule_lockstep (SameParser s s') .tpPush .tpPush (execTpPush_lockstep s s') w s s'
      ⟨hcfg, htp, fun _ => .inr ⟨rfl, rfl⟩⟩ with ⟨hn, hn'⟩ | ⟨u, u', es, hu, hu', -, hutp, huts⟩
    · simp [tpStream, hn, hn']
    · simp only [tpStream, hu, hu', Option.map_some, hutp, true_and]
      rintro _ _ _ _ ⟨⟩ ⟨⟩
      exact huts

/-! ## No operation reads `TP_ADDR` (R32) -/

/-- The parser with another address in `TP_ADDR`. -/
def Parser.withAddr (p : Parser) (a : Byte) : Parser := { p with addr := a }

/-- The state with another address in `TP_ADDR`. -/
def State.withAddr (s : State) (a : Byte) : State := { s with tp := s.tp.withAddr a }

section withAddr
variable (p : Parser) (a b : Byte)
@[simp] theorem withAddr_st : (p.withAddr a).st = p.st := rfl
@[simp] theorem withAddr_len : (p.withAddr a).len = p.len := rfl
@[simp] theorem withAddr_cnt : (p.withAddr a).cnt = p.cnt := rfl
@[simp] theorem withAddr_body : (p.withAddr a).body = p.body := rfl

@[simp] theorem stored_withAddr : (p.withAddr a).stored b = (p.stored b).withAddr a := by
  cases hst : p.st <;> simp [Parser.stored, Parser.storeAddr, Parser.withAddr, hst]

@[simp] theorem closed_withAddr : (p.withAddr a).closed b = (p.closed b).withAddr a := by
  rw [Parser.closed, stored_withAddr]
  rfl
end withAddr

/-- An outcome with its next state changed by `g`. -/
def mapNext (g : State → State) : Result → Result
  | .next t => .next (g t)
  | .fault r => .fault r
  | .refused r => .refused r

@[simp] theorem mapNext_next (g : State → State) (t : State) : mapNext g (.next t) = .next (g t) := rfl
@[simp] theorem mapNext_fault (g : State → State) (r : Fault) : mapNext g (.fault r) = .fault r := rfl
@[simp] theorem mapNext_refused (g : State → State) (r : Refusal) : mapNext g (.refused r) = .refused r := rfl

/-- `TP_ADDR` after a byte pushed to the parser, `a` before it: an accepted address is written (R152). -/
def pushedAddr (c : Config) (p : Parser) (b a : Byte) : Byte := if p.st = .addr ∧ b ∈ c.addrSet then b else a

/-- `TP_ADDR` after an operation, `a` before it. -/
def addrAfter (i : Instr) (s : State) (a : Byte) : Byte :=
  match i with
  | .tpPush b => pushedAddr s.cfg s.tp b a
  | .rst => 0x00
  | _ => a

/-- `TP_ADDR` is kept, or written without regard to what it held. -/
theorem addrAfter_cases (i : Instr) (s : State) :
    (∀ a, addrAfter i s a = a) ∨ (∃ b, i = .tpPush b ∧ ∀ a, addrAfter i s a = b) ∨
      (i = .rst ∧ ∀ a, addrAfter i s a = 0x00) := by
  cases i with
  | tpPush b =>
    by_cases h : s.tp.st = .addr ∧ b ∈ s.cfg.addrSet
    · exact .inr (.inl ⟨b, rfl, fun _ => if_pos h⟩)
    · exact .inl fun _ => if_neg h
  | rst => exact .inr (.inr ⟨rfl, fun _ => rfl⟩)
  | _ => exact .inl fun _ => rfl

theorem addrAfter_ofRecord (k : Kind) (p : List Byte) (s : State) (a : Byte) :
    addrAfter (Instr.ofRecord k p) s a = a := by
  cases k <;> rfl

/-- A push does not read `TP_ADDR`: what it held is carried along or overwritten. -/
theorem push_withAddr (c : Config) (p : Parser) (b a : Byte) :
    (p.withAddr a).push c b =
      (p.push c b).map (fun x => { x with parser := x.parser.withAddr (pushedAddr c p b a) }) := by
  cases hst : p.st with
  | addr => by_cases hb : b ∈ c.addrSet <;> simp [Parser.push, pushedAddr, Parser.withAddr, hst, hb]
  | len =>
    have hkeep : pushedAddr c p b a = a := by simp [pushedAddr, hst]
    simp only [Parser.push, withAddr_st, hst, hkeep]
    split <;> rfl
  | block =>
    have hkeep : pushedAddr c p b a = a := by simp [pushedAddr, hst]
    simp only [Parser.push, withAddr_st, withAddr_cnt, withAddr_len, withAddr_body, stored_withAddr, closed_withAddr,
      hst, hkeep]
    split
    · rfl
    · split <;> rfl

/-- No operation reads `TP_ADDR`: an operation on the state with another address answers the same but for that
register. -/
theorem exec_withAddr (i : Instr) (s : State) (a : Byte) :
    exec i (s.withAddr a) = mapNext (fun t => t.withAddr (addrAfter i s a)) (exec i s) := by
  rcases instr_cases i with ⟨f, rfl⟩ | ⟨w, rfl⟩ | ⟨n, b, rfl⟩ | ⟨b, rfl⟩ | ⟨tw, rfl⟩ | rfl | ⟨k, p, rfl⟩
  · rfl
  · rfl
  · cases hf : s.fr[n]? with
    | none => simp [exec, execFrPush, State.withAddr, hf]
    | some f =>
      cases hp : f.push s.cfg b with
      | none => simp [exec, execFrPush, State.withAddr, hf, hp]
      | some x => simp [exec, execFrPush, State.withAddr, hf, hp, addrAfter, State.setFramer, State.emit]
  · rw [exec_tpPush, exec_tpPush, State.withAddr, push_withAddr]
    cases s.tp.push s.cfg b <;> rfl
  · rfl
  · rfl
  · simp only [exec_ofRecord, addrAfter_ofRecord, recordInto, State.withAddr]
    split <;> rfl

/-- A next state is itself with the `TP_ADDR` that `addrAfter` gives. -/
theorem exec_next_addr (i : Instr) (s t : State) (h : exec i s = .next t) : t.tp.addr = addrAfter i s s.tp.addr := by
  have hself := exec_withAddr i s s.tp.addr
  rw [show s.withAddr s.tp.addr = s from rfl, h] at hself
  exact congrArg (fun t => t.tp.addr) (Host.Outcome.next.inj hself)

/-- Settles O38: the outcome from another `TP_ADDR` is that of `exec_withAddr`, and `TP_ADDR` itself is kept, or
written with the same byte in both runs. -/
theorem parserAddressIsNeverRead : Obligations.ParserAddressIsNeverRead := by
  intro i s a
  have hother : ∀ r, exec i s = r → exec i (s.withAddr a) = mapNext (fun t => t.withAddr (addrAfter i s a)) r :=
    fun r h => h ▸ exec_withAddr i s a
  refine ⟨fun t h => ⟨t.withAddr (addrAfter i s a), hother _ h, rfl, ?_⟩, fun r h => hother _ h, fun r h => hother _ h⟩
  rw [exec_next_addr i s t h]
  rcases addrAfter_cases i s with hkeep | ⟨b, rfl, hb⟩ | ⟨rfl, hzero⟩
  · exact .inl ⟨hkeep _, hkeep a⟩
  · exact .inr (.inl ⟨b, rfl, hb _, hb a⟩)
  · exact .inr (.inr ⟨rfl, hzero _, hzero a⟩)

end Sys2Proof.Machine
end

section
/-!
PROOFS. A canonical buffer is determined by what it reads (spec 20_memory.md R60; 10_state.md R43, R44; log 12).
-/
namespace Sys2Proof.Machine

theorem wf_cons_iff (k : Nat) (v : Byte) (m : Memory) :
    Memory.wf ((k, v) :: m) = true ↔ v ≠ Memory.blank ∧ (∀ c ∈ m, k < c.1) ∧ m.wf = true := by
  simp only [Memory.wf, Bool.and_eq_true, List.all_eq_true, decide_eq_true_eq, and_assoc]

/-- An address that no cell lists reads as blank. -/
theorem read_of_unlisted (m : Memory) (a : Nat) (h : ∀ c ∈ m, c.1 ≠ a) : m.read a = Memory.blank := by
  induction m with
  | nil => rfl
  | cons c m ih =>
    obtain ⟨hc, hm⟩ := List.forall_mem_cons.mp h
    rw [Memory.read, if_neg hc, ih hm]

theorem read_head (k : Nat) (v : Byte) (m : Memory) : Memory.read ((k, v) :: m) k = v := if_pos rfl

/-- A buffer with a cell differs from one that lists only higher addresses, in what the cell's address reads as. -/
theorem read_head_ne (k : Nat) (v : Byte) (m n : Memory) (hv : v ≠ Memory.blank) (hn : ∀ c ∈ n, k < c.1) :
    Memory.read ((k, v) :: m) k ≠ n.read k := by
  rwa [read_head, read_of_unlisted n k fun c hc => (hn c hc).ne']

/-- Below the head of a canonical buffer nothing is listed. -/
theorem lt_of_lt_head (a k : Nat) (v : Byte) (m : Memory) (hm : ∀ c ∈ m, k < c.1) (ha : a < k) :
    ∀ c ∈ (k, v) :: m, a < c.1 :=
  List.forall_mem_cons.mpr ⟨ha, fun c hc => ha.trans (hm c hc)⟩

/-- Buffers with the same head that read the same have tails that read the same. -/
theorem read_tail_eq (k : Nat) (v : Byte) (m n : Memory) (hm : ∀ c ∈ m, k < c.1) (hn : ∀ c ∈ n, k < c.1)
    (h : ∀ a, Memory.read ((k, v) :: m) a = Memory.read ((k, v) :: n) a) (a : Nat) : m.read a = n.read a := by
  by_cases hk : k = a
  · subst hk
    rw [read_of_unlisted m k fun c hc => (hm c hc).ne', read_of_unlisted n k fun c hc => (hn c hc).ne']
  · simpa [Memory.read, hk] using h a

/-- Settles O59, by induction on the cells: the lower one of two different head addresses would read as blank in the
other buffer, so both heads are one cell, and the tails read the same. -/
theorem canonicalBuffersThatReadEqualAreEqual : Obligations.CanonicalBuffersThatReadEqualAreEqual := by
  intro m
  induction m with
  | nil =>
    rintro (_ | ⟨⟨j, y⟩, n⟩) - hn h
    · rfl
    · obtain ⟨hy, -, -⟩ := (wf_cons_iff j y n).mp hn
      exact absurd (h j).symm (read_head_ne j y n [] hy (by simp))
  | cons c m ih =>
    obtain ⟨k, x⟩ := c
    intro n hm hn h
    obtain ⟨hx, hkm, hwm⟩ := (wf_cons_iff k x m).mp hm
    cases n with
    | nil => exact absurd (h k) (read_head_ne k x m [] hx (by simp))
    | cons d n =>
      obtain ⟨j, y⟩ := d
      obtain ⟨hy, hjn, hwn⟩ := (wf_cons_iff j y n).mp hn
      rcases Nat.lt_trichotomy k j with hlt | rfl | hlt
      · exact absurd (h k) (read_head_ne k x m _ hx (lt_of_lt_head k j y n hjn hlt))
      · obtain rfl : x = y := by simpa only [read_head] using h k
        rw [ih n hwm hwn (read_tail_eq k x m n hkm hjn h)]
      · exact absurd (h j).symm (read_head_ne j y n _ hy (lt_of_lt_head j k x m hkm hlt))

end Sys2Proof.Machine
end

section
/-!
PROOFS. A step runs the decoded operation (spec 20_memory.md R66), and under the invariant every well-formed operation
completes and nothing faults (20_memory.md R64, R73; 60_exceptions.md R283).
-/
namespace Sys2Proof.Machine

/-! ## The step -/

/-- Settles O3: of the cases of a step, the pending bytes select the one that runs `i`. -/
theorem stepRunsTheDecodedOperation : Obligations.StepRunsTheDecodedOperation := by
  intro s i rest hok hd
  rcases step_cases s with ⟨-, hnil, -⟩ | ⟨i', rest', -, hd', hs⟩ | ⟨e, -, he, -⟩ | ⟨hbad, -⟩
  · rw [hnil] at hd; cases hd
  · cases hd'.symm.trans hd; exact hs
  · cases he.symm.trans hd
  · cases hbad.symm.trans hok

/-! ## Totality -/

/-- A framer that keeps its invariant takes every byte: `FR_CNT` is at most 24 (R30, R64). -/
theorem framer_push_answers (c : Config) (f : Framer) (b : Byte) (hf : f.wf c = true) :
    ∃ g e, f.push c b = some (g, e) := by
  obtain ⟨-, hcnt, -⟩ := (framer_wf_iff c f).mp hf
  fun_cases Framer.push c f b with
  | case3 hst hout =>
    have hout : 25 ≤ f.cnt.toNat := hout
    omega
  | _ => exact ⟨_, _, rfl⟩

/-- A parser that keeps its invariant takes every byte: `TP_CNT` is at most 61 (R34, R64). -/
theorem parser_push_answers (c : Config) (p : Parser) (b : Byte) (hp : p.wf = true) : ∃ x, p.push c b = some x := by
  obtain ⟨-, hcnt, -⟩ := (parser_wf_iff p).mp hp
  fun_cases Parser.push c p b with
  | case5 hst hout =>
    have hout : 62 ≤ p.cnt.toNat := hout
    omega
  | _ => exact ⟨_, rfl⟩

theorem wf_ofRecord (c : Config) (k : Kind) (p : List Byte) :
    (Instr.ofRecord k p).wf c = decide (p.length = c.lenOf k) := by
  cases k <;> rfl

/-- Under the invariant an operation completes, or it is ill-formed and refused; it never faults. -/
theorem exec_completes_or_refuses (s : State) (i : Instr) (hs : s.inv = true) :
    (∃ t, exec i s = .next t) ∨ (i.wf s.cfg = false ∧ ∃ r, exec i s = .refused r) := by
  obtain ⟨-, hlen, hfr, htp, -, -⟩ := (inv_iff s).mp hs
  rcases instr_cases i with ⟨f, rfl⟩ | ⟨w, rfl⟩ | ⟨n, b, rfl⟩ | ⟨b, rfl⟩ | ⟨tw, rfl⟩ | rfl | ⟨k, p, rfl⟩
  · exact .inl ⟨_, exec_enc f s⟩
  · exact .inl ⟨_, exec_dec w s⟩
  · cases hf : s.fr[n]? with
    | none =>
      have hn : s.cfg.nRc ≤ n := hlen ▸ List.getElem?_eq_none_iff.mp hf
      exact .inr ⟨decide_eq_false (Nat.not_lt.mpr hn), .noSuchInstance n, by simp [exec, execFrPush, hf]⟩
    | some f =>
      obtain ⟨g, e, hp⟩ := framer_push_answers s.cfg f b (hfr f (List.mem_of_getElem? hf))
      exact .inl ⟨_, execFrPush_of_push n b s f g e hf hp⟩
  · obtain ⟨x, hx⟩ := parser_push_answers s.cfg s.tp b htp
    exact .inl ⟨s.afterPush x, by rw [exec_tpPush, hx]; rfl⟩
  · exact .inl ⟨_, exec_escTick tw s⟩
  · exact .inl ⟨_, exec_rst s⟩
  · rw [exec_ofRecord, wf_ofRecord]
    rcases recordInto_cases k p s with ⟨-, hr⟩ | ⟨hp, hr⟩
    · exact .inl ⟨_, hr⟩
    · exact .inr ⟨decide_eq_false hp, _, hr⟩

/-- Settles O56: an operation that does not complete is ill-formed. -/
theorem everyWellFormedOperationCompletes : Obligations.EveryWellFormedOperationCompletes := by
  intro s i hs hi
  rcases exec_completes_or_refuses s i hs with h | ⟨hwf, -⟩
  · exact h
  · cases hwf.symm.trans hi

/-- Settles O55: a step is idle, refuses, or runs an operation on a state that keeps the invariant, which does not speak
of the pending bytes. -/
theorem noStepFaultsUnderTheInvariant : Obligations.NoStepFaultsUnderTheInvariant := by
  intro s hs r h
  rcases step_cases s with ⟨-, -, hstep⟩ | ⟨i, rest, -, -, hstep⟩ | ⟨e, -, -, hstep⟩ | ⟨-, hstep⟩
  · cases hstep.symm.trans h
  · rcases exec_completes_or_refuses { s with input := rest } i hs with ⟨t, ht⟩ | ⟨-, r', hr⟩
    · cases (hstep.trans ht).symm.trans h
    · cases (hstep.trans hr).symm.trans h
  · cases hstep.symm.trans h
  · cases hstep.symm.trans h

end Sys2Proof.Machine
end

section
/-!
PROOFS. Operations of different agents commute (spec 20_memory.md R68, 70_reset_and_hazards.md R306): an operation
reads and writes the registers of its own agent alone (10_state.md R20), so those of another agent neither change its
outcome nor are changed by it.
-/
namespace Sys2Proof.Machine

/-! ## What an agent owns -/

/-- The new contents of the registers of one agent. -/
inductive OwnWrite where
  /-- a codec request writes no register (R110, R112) -/
  | codec
  /-- framer `i` -/
  | framer (i : Nat) (f : Framer)
  /-- the parser and the record set -/
  | parser (p : Parser) (ts : Slots)
  /-- the ESC registers -/
  | esc (e : Esc)

/-- The agent whose registers are written. -/
def OwnWrite.agent : OwnWrite → Agent
  | .codec => .codec
  | .framer i _ => .framer i
  | .parser _ _ => .parser
  | .esc _ => .esc

/-- The state with the registers of one agent replaced. -/
def State.own (s : State) : OwnWrite → State
  | .codec => s
  | .framer i f => s.setFramer i f
  | .parser p ts => { s with tp := p, ts := ts }
  | .esc e => { s with esc := e }

section own
variable (s : State) (w : OwnWrite)

@[simp] theorem own_cfg : (s.own w).cfg = s.cfg := by cases w <;> rfl

/-- The event output is no register of any agent. -/
theorem own_emit (e : Event) : (s.emit e).own w = (s.own w).emit e := by cases w <;> rfl

theorem own_fr_of_other (j : Nat) (h : w.agent ≠ .framer j) : (s.own w).fr[j]? = s.fr[j]? := by
  cases w with
  | framer i f => exact List.getElem?_set_ne fun hij => h (congrArg Agent.framer hij)
  | _ => rfl

theorem own_tp_of_other (h : w.agent ≠ .parser) : (s.own w).tp = s.tp := by
  cases w with
  | parser p ts => exact absurd rfl h
  | _ => rfl

theorem own_ts_of_other (h : w.agent ≠ .parser) : (s.own w).ts = s.ts := by
  cases w with
  | parser p ts => exact absurd rfl h
  | _ => rfl

theorem own_esc_of_other (h : w.agent ≠ .esc) : (s.own w).esc = s.esc := by
  cases w with
  | esc x => exact absurd rfl h
  | _ => rfl
end own

/-- Writes of two different agents commute. -/
theorem own_comm (s : State) (v w : OwnWrite) (hne : v.agent ≠ w.agent) : (s.own v).own w = (s.own w).own v := by
  cases v with
  | framer i f =>
    cases w with
    | framer j g =>
      have hij : i ≠ j := fun h => hne (congrArg Agent.framer h)
      simp only [State.own, State.setFramer, List.set_comm f g hij]
    | _ => rfl
  | parser p ts =>
    cases w with
    | parser p' ts' => exact absurd rfl hne
    | _ => rfl
  | esc x =>
    cases w with
    | esc x' => exact absurd rfl hne
    | _ => rfl
  | codec => rfl

/-- Two states with the same parameters and the same registers of one agent. `RST` writes every unit, so what it owns
is the whole state. -/
def SameOwn : Agent → State → State → Prop
  | .codec, s, s' => s.cfg = s'.cfg
  | .framer i, s, s' => s.cfg = s'.cfg ∧ s.fr[i]? = s'.fr[i]?
  | .parser, s, s' => s.cfg = s'.cfg ∧ s.tp = s'.tp ∧ s.ts = s'.ts
  | .esc, s, s' => s.cfg = s'.cfg ∧ s.esc = s'.esc
  | .reset, s, s' => s = s'

theorem SameOwn.refl (g : Agent) (s : State) : SameOwn g s s := by
  cases g <;> simp [SameOwn]

theorem SameOwn.symm {g : Agent} {s s' : State} (h : SameOwn g s s') : SameOwn g s' s := by
  cases g with
  | codec => exact Eq.symm h
  | framer i => exact ⟨h.1.symm, h.2.symm⟩
  | parser =>
    obtain ⟨hcfg, htp, hts⟩ := h
    exact ⟨hcfg.symm, htp.symm, hts.symm⟩
  | esc => exact ⟨h.1.symm, h.2.symm⟩
  | reset => exact Eq.symm h

/-- A write of one agent, with its event, keeps the registers of every other. -/
theorem sameOwn_own (s : State) (w : OwnWrite) (e : Event) (g : Agent) (hne : w.agent ≠ g) (hg : g ≠ .reset) :
    SameOwn g ((s.own w).emit e) s := by
  have hcfg : ((s.own w).emit e).cfg = s.cfg := own_cfg s w
  cases g with
  | codec => exact hcfg
  | framer j => exact ⟨hcfg, own_fr_of_other s w j hne⟩
  | parser => exact ⟨hcfg, own_tp_of_other s w hne, own_ts_of_other s w hne⟩
  | esc => exact ⟨hcfg, own_esc_of_other s w hne⟩
  | reset => exact absurd rfl hg

/-! ## An operation is a function of what its agent owns -/

theorem agentOf_ofRecord (k : Kind) (p : List Byte) : agentOf (Instr.ofRecord k p) = .parser := by
  cases k <;> rfl

/-- An operation other than `RST` that completes writes the registers of its agent, and makes the same write with the
same event in every state where its agent owns the same. -/
theorem exec_next_own (i : Instr) (s t : State) (h : exec i s = .next t) (hi : agentOf i ≠ .reset) :
    ∃ (w : OwnWrite) (e : Event), w.agent = agentOf i ∧ t = (s.own w).emit e ∧
      ∀ s', SameOwn (agentOf i) s' s → exec i s' = .next ((s'.own w).emit e) := by
  rcases instr_cases i with ⟨f, rfl⟩ | ⟨x, rfl⟩ | ⟨n, b, rfl⟩ | ⟨b, rfl⟩ | ⟨tw, rfl⟩ | rfl | ⟨k, p, rfl⟩
  · cases h
    refine ⟨.codec, .wire (encFrame s.cfg f), rfl, rfl, fun s' (hcfg : s'.cfg = s.cfg) => ?_⟩
    rw [exec_enc, hcfg]; rfl
  · cases h
    refine ⟨.codec, decEvent (decFrame s.cfg x), rfl, rfl, fun s' (hcfg : s'.cfg = s.cfg) => ?_⟩
    rw [exec_dec, hcfg]; rfl
  · obtain ⟨f, g, e, hf, hp, rfl⟩ := execFrPush_next n b s t h
    refine ⟨.framer n g, e, rfl, rfl, fun s' ⟨hcfg, hfr⟩ => ?_⟩
    exact execFrPush_of_push n b s' f g e (hfr.trans hf) (hcfg ▸ hp)
  · obtain ⟨x, hx, rfl⟩ := execTpPush_next b s t h
    refine ⟨.parser x.parser (s.ts.store x.record), x.event, rfl, rfl, fun s' ⟨hcfg, htp, hts⟩ => ?_⟩
    rw [exec_tpPush, hcfg, htp, hx, ← hts]; rfl
  · cases h
    refine ⟨.esc (s.esc.tick s.cfg tw), .tick (s.esc.tick s.cfg tw).drive (s.esc.tick s.cfg tw).prio, rfl, rfl,
      fun s' ⟨hcfg, hesc⟩ => ?_⟩
    rw [exec_escTick, ← hcfg, ← hesc]; rfl
  · exact absurd rfl hi
  · obtain ⟨hp, rfl⟩ := execRecord_next k p s t h
    rw [agentOf_ofRecord]
    refine ⟨.parser s.tp (s.ts.put k ⟨true, p⟩), .record k, rfl, rfl, fun s' ⟨hcfg, htp, hts⟩ => ?_⟩
    rw [exec_ofRecord, recordInto, if_pos (hcfg ▸ hp), ← htp, ← hts]; rfl

/-- Settles O58: each operation makes the same write with the same event in either order, and the two writes commute. -/
theorem differentAgentsCommute : Obligations.DifferentAgentsCommute := by
  intro s s1 s2 a b hab ha hb h1 h2
  obtain ⟨v, ea, hv, rfl, hexecA⟩ := exec_next_own a s s1 h1 ha
  obtain ⟨w, eb, hw, rfl, hexecB⟩ := exec_next_own b _ s2 h2 hb
  have hne : v.agent ≠ w.agent := by rwa [hv, hw]
  have hB := hexecB s (sameOwn_own s v ea _ (hw ▸ hne) hb).symm
  have hA := hexecA _ (sameOwn_own s w eb _ (hv ▸ hne.symm) ha)
  have hcomm : (((s.own w).emit eb).own v).emit ea = (((s.own v).emit ea).own w).emit ea := by
    rw [own_emit, own_emit, own_comm s v w hne]; rfl
  exact ⟨_, _, hB, hA, hcomm, rfl, rfl⟩

end Sys2Proof.Machine
end

section
/-!
PROOFS. The decoder undoes the encoder (spec 30_encoding.md R85, R88, R101; byte layout of the port operands log 3),
and a schedule assembled into bytes runs in order (30_encoding.md R102, 70_reset_and_hazards.md R305).
-/
namespace Sys2Proof.Machine

/-! ## Two bytes of a 16-bit value -/

theorem toNat_append_byte {n : Nat} (x : BitVec n) (y : Byte) : (x ++ y).toNat = 256 * x.toNat + y.toNat := by
  rw [BitVec.toNat_append, ← Nat.shiftLeft_add_eq_or_of_lt y.isLt, Nat.shiftLeft_eq, Nat.mul_comm]

theorem le16_bytesLe16 (v : BitVec 16) : le16 (v.setWidth 8) ((v >>> 8).setWidth 8) = v := by
  refine BitVec.eq_of_toNat_eq ?_
  have hv := v.isLt
  simp only [le16, toNat_append_byte, BitVec.toNat_setWidth, BitVec.toNat_ushiftRight, Nat.shiftRight_eq_div_pow]
  omega

theorem byteAt_append_left (s t : List Byte) (k : Nat) (h : k < s.length) : byteAt (s ++ t) k = byteAt s k :=
  List.getD_append s t 0 k h

theorem byteAt_append_right (s t : List Byte) (k : Nat) (h : s.length ≤ k) :
    byteAt (s ++ t) k = byteAt t (k - s.length) :=
  List.getD_append_right s t 0 k h

/-- The values `g 0`, `g 1`, ... one after another, two bytes each. -/
theorem length_flatMap_bytesLe16 (g : Nat → BitVec 16) (m : Nat) :
    ((List.range m).flatMap (fun n => bytesLe16 (g n))).length = 2 * m := by
  simp [bytesLe16, Nat.mul_comm]

theorem byteAt_flatMap_bytesLe16 (g : Nat → BitVec 16) (m n : Nat) (h : n < m) :
    byteAt ((List.range m).flatMap (fun n => bytesLe16 (g n))) (2 * n) = (g n).setWidth 8 ∧
      byteAt ((List.range m).flatMap (fun n => bytesLe16 (g n))) (2 * n + 1) = (g n >>> 8).setWidth 8 := by
  induction m with
  | zero => omega
  | succ m ih =>
    have hlen := length_flatMap_bytesLe16 g m
    rw [List.range_succ, List.flatMap_append, List.flatMap_singleton]
    rcases Nat.lt_succ_iff_lt_or_eq.mp h with hn | rfl
    · rw [byteAt_append_left _ _ _ (by omega), byteAt_append_left _ _ _ (by omega)]
      exact ih hn
    · rw [byteAt_append_right _ _ _ (by omega), byteAt_append_right _ _ _ (by omega), hlen, Nat.sub_self,
        Nat.add_sub_cancel_left]
      exact ⟨rfl, rfl⟩

/-! ## The operands of the port operations -/

theorem takeBytes_append (s t : List Byte) (n : Nat) (h : s.length = n) : takeBytes n (s ++ t) = some (s, t) := by
  simp [takeBytes, ← h]

/-- The sixteen channels of an `ENC` operand, before the flags byte. -/
def encChanBytes (f : ChannelFrame) : List Byte :=
  (List.range 16).flatMap (fun n => bytesLe16 ((f.chan n).setWidth 16))

theorem length_encChanBytes (f : ChannelFrame) : (encChanBytes f).length = 32 := length_flatMap_bytesLe16 _ 16

theorem operandBytes_enc (f : ChannelFrame) : operandBytes (.enc f) = encChanBytes f ++ [encOperandFlags f] := rfl

theorem length_operandBytes_enc (f : ChannelFrame) : (operandBytes (.enc f)).length = 33 := by
  rw [operandBytes_enc, List.length_append, length_encChanBytes]; rfl

/-- The two bytes of channel `n` in an `ENC` operand. -/
theorem byteAt_operandBytes_enc (f : ChannelFrame) (n : Nat) (h : n < 16) :
    byteAt (operandBytes (.enc f)) (2 * n) = ((f.chan n).setWidth 16).setWidth 8 ∧
      byteAt (operandBytes (.enc f)) (2 * n + 1) = ((f.chan n).setWidth 16 >>> 8).setWidth 8 := by
  have hlen := length_encChanBytes f
  rw [operandBytes_enc, byteAt_append_left _ _ _ (by omega), byteAt_append_left _ _ _ (by omega)]
  exact byteAt_flatMap_bytesLe16 (fun n => (f.chan n).setWidth 16) 16 n h

theorem byteAt_operandBytes_enc_flags (f : ChannelFrame) : byteAt (operandBytes (.enc f)) 32 = encOperandFlags f := by
  rw [operandBytes_enc, byteAt_append_right _ _ _ (length_encChanBytes f).le, length_encChanBytes]; rfl

theorem encOperandChan_operandBytes (f : ChannelFrame) (n : Nat) (h : n < 16) :
    encOperandChan (operandBytes (.enc f)) n = f.chan n := by
  obtain ⟨hlo, hhi⟩ := byteAt_operandBytes_enc f n h
  rw [encOperandChan, hlo, hhi, le16_bytesLe16]
  exact BitVec.setWidth_setWidth_of_le _ (by decide)

/-- The five high bits of a channel's two bytes are zero. -/
theorem highByte_lt (x : Chan) : ((x.setWidth 16 >>> 8).setWidth 8 : Byte).toNat < 8 := by
  have hx := x.isLt
  simp only [BitVec.toNat_setWidth, BitVec.toNat_ushiftRight, Nat.shiftRight_eq_div_pow]
  omega

/-- The bits of a flags byte, and that its high nibble is zero. -/
theorem encOperandFlags_bits (f : ChannelFrame) :
    (encOperandFlags f).getLsbD 3 = f.ch17 ∧ (encOperandFlags f).getLsbD 2 = f.ch18 ∧
      (encOperandFlags f).getLsbD 1 = f.lost ∧ (encOperandFlags f).getLsbD 0 = f.fs ∧
      (encOperandFlags f).toNat < 16 := by
  obtain ⟨ch, a, b, c, d⟩ := f
  simp only [encOperandFlags]
  revert a b c d
  decide

theorem decodeEnc_operandBytes (f : ChannelFrame) (rest : List Byte) :
    decodeEnc (operandBytes (.enc f) ++ rest) = .ok (.enc f, rest) := by
  obtain ⟨h17, h18, hlost, hfs, hnibble⟩ := encOperandFlags_bits f
  have hhigh : ∀ n ∈ List.range 16, (byteAt (operandBytes (.enc f)) (2 * n + 1)).toNat < 8 := fun n hn => by
    rw [(byteAt_operandBytes_enc f n (List.mem_range.mp hn)).2]
    exact highByte_lt _
  have hframe : ChannelFrame.mk (vec16 (encOperandChan (operandBytes (.enc f)))) f.ch17 f.ch18 f.lost f.fs = f :=
    ChannelFrame.ext_chan _ _ (fun n hn => (chan_vec16 _ _ _ _ _ n hn).trans (encOperandChan_operandBytes f n hn))
      rfl rfl rfl rfl
  simp only [decodeEnc, takeBytes_append _ rest 33 (length_operandBytes_enc f), byteAt_operandBytes_enc_flags,
    h17, h18, hlost, hfs, hframe]
  exact if_pos (by simpa [hnibble] using hhigh)

theorem decodeDec_operandBytes (s rest : List Byte) (h : s.length ≤ 255) :
    decodeDec (operandBytes (.dec s) ++ rest) = .ok (.dec s, rest) := by
  have hlen : s.length = (BitVec.ofNat 8 s.length).toNat := by
    rw [BitVec.toNat_ofNat]; omega
  simp only [operandBytes, List.cons_append, decodeDec, takeBytes_append s rest _ hlen]

theorem decodeFrPush_operandBytes (n : Nat) (b : Byte) (rest : List Byte) :
    decodeFrPush (operandBytes (.frPush n b) ++ rest) = .ok (.frPush n b, rest) := by
  simp only [operandBytes, List.append_assoc, decodeFrPush, takeNat_natBytes, List.singleton_append]

theorem decodeEscTick_operandBytes (tw : BitVec 28) (rest : List Byte) :
    decodeEscTick (operandBytes (.escTick tw) ++ rest) = .ok (.escTick tw, rest) := by
  have htw := tw.isLt
  have hnibble : (((tw >>> 16).setWidth 16 >>> 8).setWidth 8 : Byte).toNat < 16 := by
    simp only [BitVec.toNat_setWidth, BitVec.toNat_ushiftRight, Nat.shiftRight_eq_div_pow]
    omega
  have hword : (((((tw >>> 16).setWidth 16 >>> 8).setWidth 8 : Byte) ++
      (((tw >>> 16).setWidth 16).setWidth 8 : Byte) ++ ((tw.setWidth 16 >>> 8).setWidth 8 : Byte) ++
      ((tw.setWidth 16).setWidth 8 : Byte) : BitVec 32).setWidth 28) = tw := by
    refine BitVec.eq_of_toNat_eq ?_
    rw [BitVec.toNat_setWidth, toNat_append_byte, toNat_append_byte, toNat_append_byte]
    simp only [BitVec.toNat_setWidth, BitVec.toNat_ushiftRight, Nat.shiftRight_eq_div_pow]
    omega
  simp only [operandBytes, bytesLe16, List.cons_append, List.nil_append, decodeEscTick, if_pos hnibble, hword]

/-! ## Both formats -/

/-- A port operation is no record decoder (R80). -/
theorem format_eq_port_iff (i : Instr) : i.format = .port ↔ i.record? = none := by
  unfold Instr.format
  cases i.record? <;> simp

theorem encode_ofRecord (c : Config) (k : Kind) (p : List Byte) : encode c (Instr.ofRecord k p) = c.tagOf k :: p := by
  cases k <;> rfl

/-- The words of a port operation decode to it, whatever follows (R101). -/
theorem decodePort_encode (c : Config) (i : Instr) (rest : List Byte) (hport : i.format = .port)
    (hwf : i.wf c = true) : decodePort (encode c i ++ rest) = .ok (i, rest) := by
  rcases instr_cases i with ⟨f, rfl⟩ | ⟨w, rfl⟩ | ⟨n, b, rfl⟩ | ⟨b, rfl⟩ | ⟨tw, rfl⟩ | rfl | ⟨k, p, rfl⟩
  · exact decodeEnc_operandBytes f rest
  · exact decodeDec_operandBytes w rest (of_decide_eq_true hwf)
  · exact decodeFrPush_operandBytes n b rest
  · rfl
  · exact decodeEscTick_operandBytes tw rest
  · rfl
  · simp [format_eq_port_iff] at hport

/-- A message body decodes to its record decoder, whatever follows (R85, R88). -/
theorem decodeBody_encode (c : Config) (k : Kind) (p rest : List Byte) (hok : c.ok = true)
    (hp : p.length = c.lenOf k) :
    decodeBody c (encode c (Instr.ofRecord k p) ++ rest) = .ok (Instr.ofRecord k p, rest) := by
  simp only [encode_ofRecord, List.cons_append, decodeBody, kindOf_tagOf c hok k, takeBytes_append p rest _ hp]

/-- The operations of the other format are the record decoders (R80). -/
theorem format_eq_tlm_iff (i : Instr) : i.format = .tlm ↔ ∃ k p, i = Instr.ofRecord k p := by
  constructor
  · intro h
    rcases instr_cases i with ⟨f, rfl⟩ | ⟨w, rfl⟩ | ⟨n, b, rfl⟩ | ⟨b, rfl⟩ | ⟨tw, rfl⟩ | rfl | hrec
    · cases h
    · cases h
    · cases h
    · cases h
    · cases h
    · cases h
    · exact hrec
  · rintro ⟨k, p, rfl⟩
    cases k <;> rfl

/-- Settles O1: a record decoder is decoded by its tag and length, every other operation by its `PSEL` code. -/
theorem decodeOfEncodeIsTheOperation : Obligations.DecodeOfEncodeIsTheOperation := by
  intro c i rest hok hwf
  cases hf : i.format with
  | port => exact decodePort_encode c i rest hf hwf
  | tlm =>
    obtain ⟨k, p, rfl⟩ := (format_eq_tlm_iff i).mp hf
    rw [wf_ofRecord] at hwf
    exact decodeBody_encode c k p rest hok (of_decide_eq_true hwf)

/-- Settles O2: the words written by hand are the encodings of their operations. -/
theorem writtenWordsDecodeToTheirOperations : Obligations.WrittenWordsDecodeToTheirOperations := by
  have hport : ∀ i : Instr, i.format = .port → i.wf .reference = true →
      decodePort (encode .reference i ++ []) = .ok (i, []) := fun i => decodePort_encode .reference i []
  have hbody : ∀ k p, p.length = Config.reference.lenOf k →
      decodeBody .reference (encode .reference (Instr.ofRecord k p) ++ []) = .ok (Instr.ofRecord k p, []) :=
    fun k p => decodeBody_encode .reference k p [] (by decide)
  exact ⟨hport (.dec [0x0F, 0x00]) rfl rfl, decodeFrPush_operandBytes 0 0x37 [], decodeFrPush_operandBytes 258 0x37 [],
    hport (.tpPush 0xC8) rfl rfl, hport (.escTick 0x6680008) rfl rfl, hport .rst rfl rfl,
    hbody .vario [0xFF, 0x6A] rfl, hbody .att [0x03, 0xE8, 0xF6, 0x3C, 0x3D, 0x5C] rfl⟩

/-! ## Assembled schedules -/

/-- A step on the words of a port operation runs it on the bytes after them. -/
theorem step_encode (s : State) (i : Instr) (rest : List Byte) (hok : s.cfg.ok = true) (hport : i.format = .port)
    (hwf : i.wf s.cfg = true) (hin : s.input = encode s.cfg i ++ rest) : step s = exec i { s with input := rest } :=
  stepRunsTheDecodedOperation s i rest hok (by rw [hin]; exact decodePort_encode s.cfg i rest hport hwf)

/-- A schedule that completes ran its first operation and then the others. -/
theorem runSchedule_cons_some (i : Instr) (is : List Instr) (s u : State) (es : List Event)
    (h : runSchedule (i :: is) s = some (u, es)) :
    ∃ t fs, exec i s = .next t ∧ runSchedule is t = some (u, fs) ∧ es = t.out :: fs := by
  by_cases hn : ∃ t, exec i s = .next t
  · obtain ⟨t, ht⟩ := hn
    obtain ⟨⟨v, fs⟩, hrun, heq⟩ := Option.map_eq_some_iff.mp ((runSchedule_of_next i is s t ht).symm.trans h)
    cases heq
    exact ⟨t, fs, ht, hrun, rfl⟩
  · cases (runSchedule_of_stop i is s (not_exists.mp hn)).symm.trans h

theorem run_succ_of_next (M : Host.Core) (s t : M.State) (n : Nat) (h : M.step s = .next t) :
    M.run (n + 1) s = M.run n t := by
  simp only [Host.Core.run, h]

/-- Settles O6, by induction on the schedule: each step runs the first operation, which neither reads nor writes the
pending bytes of the others. -/
theorem assembledScheduleRunsInOrder : Obligations.AssembledScheduleRunsInOrder := by
  intro is
  induction is with
  | nil =>
    intro s u es rest _ _ hin hrun
    cases hrun
    rw [show s = { s with input := rest } from congrArg (fun x => { s with input := x }) hin]
    rfl
  | cons i is ih =>
    intro s u es rest hok hall hin hrun
    obtain ⟨⟨hport, hwf⟩, hall⟩ := List.forall_mem_cons.mp hall
    obtain ⟨t, fs, he, hrun, -⟩ := runSchedule_cons_some i is _ u es hrun
    obtain ⟨hcfg, hinput, -⟩ := parametersNeverChange _ t i he
    have hcfg : t.cfg = s.cfg := hcfg
    have hinput : t.input = rest := hinput
    have hstep : step s = .next { t with input := assemble s.cfg is ++ rest } := by
      rw [step_encode s i (assemble s.cfg is ++ rest) hok hport hwf (by rw [hin]; simp [assemble]),
        exec_withInput i { s with input := rest }, he]
      rfl
    rw [List.length_cons, run_succ_of_next core _ _ _ hstep]
    refine ih _ u fs rest (hcfg ▸ hok) (hcfg ▸ hall) (by rw [hcfg]) ?_
    rw [← hrun, ← hinput]

end Sys2Proof.Machine
end

section
/-!
PROOFS. A whole telemetry message pushed byte by byte to the parser (spec 30_encoding.md R85; 42_telemetry_parser.md
R152 to R158, R168).
-/
namespace Sys2Proof.Machine

/-! ## Reading back what was written -/

/-- Addresses below the first written one read as before. -/
theorem read_writeN_below (w : List Byte) (m : Memory) (a b : Nat) (hm : m.wf = true) (hb : b < a) :
    (m.writeN a w).read b = m.read b := by
  induction w generalizing m a with
  | nil => rfl
  | cons x w ih =>
    rw [Memory.writeN, ih _ _ (wf_write m a x hm) (by omega), read_write m a b x hm, if_neg (by omega)]

/-- `MemRead` of what `MemWrite` wrote (R10). -/
theorem readN_writeN (w : List Byte) (m : Memory) (a : Nat) (hm : m.wf = true) :
    (m.writeN a w).readN a w.length = w := by
  induction w generalizing m a with
  | nil => rfl
  | cons x w ih =>
    have hx := wf_write m a x hm
    rw [List.length_cons, readN_succ, Memory.writeN, ih _ _ hx, read_writeN_below w _ _ _ hx (Nat.lt_succ_self a),
      read_write m a a x hm, if_pos rfl]

/-! ## Collecting the bytes of a block (R156) -/

/-- A byte pushed to a parser that takes it, and the bytes after it. -/
theorem runSchedule_tpStream_cons (s u : State) (b : Byte) (w : List Byte) (x : Parser.Pushed) (es : List Event)
    (h : s.tp.push s.cfg b = some x) (hrun : runSchedule (tpStream w) (s.afterPush x) = some (u, es)) :
    runSchedule (tpStream (b :: w)) s = some (u, x.event :: es) := by
  have hnext : exec (.tpPush b) s = .next (s.afterPush x) := by rw [exec_tpPush, h]; rfl
  rw [tpStream, List.map_cons, ← tpStream, runSchedule_of_next _ _ _ _ hnext, hrun]
  rfl

/-- The state in the middle of a message: the parser has moved on, with event `None` and no record. -/
def State.withParser (s : State) (p : Parser) : State := s.afterPush ⟨p, .none, none⟩

section withParser
variable (s : State) (p : Parser)
@[simp] theorem withParser_cfg : (s.withParser p).cfg = s.cfg := rfl
@[simp] theorem withParser_tp : (s.withParser p).tp = p := rfl
@[simp] theorem afterPush_withParser (x : Parser.Pushed) : (s.withParser p).afterPush x = s.afterPush x := rfl
end withParser

/-- The parser after the bytes `w` of a block that needs more than these. -/
def Parser.collected (p : Parser) (w : List Byte) : Parser :=
  { p with buf := p.buf.writeN p.cnt.toNat w, cnt := p.cnt + BitVec.ofNat 6 w.length }

/-- A push inside a block collects its byte. -/
theorem push_of_block (c : Config) (p : Parser) (b : Byte) (hst : p.st = .block) (hlen : p.len.toNat ≤ 62)
    (hlt : p.cnt.toNat + 1 < p.len.toNat) : p.push c b = some ⟨p.collected [b], .none, none⟩ := by
  have hcnt : ¬ 62 ≤ p.cnt.toNat := by omega
  simp [Parser.push, hst, hcnt, hlt, parser_stored_block p b hst, Parser.collected, Memory.writeN]

theorem collected_nil (p : Parser) : p.collected [] = p := by
  simp [Parser.collected, Memory.writeN]

theorem toNat_cnt_collected (p : Parser) (w : List Byte) (h : p.cnt.toNat + w.length < 64) :
    (p.collected w).cnt.toNat = p.cnt.toNat + w.length := by
  rw [Parser.collected, BitVec.toNat_add, BitVec.toNat_ofNat]
  omega

theorem collected_cons (p : Parser) (b : Byte) (w : List Byte) (h : p.cnt.toNat + 1 < 64) :
    (p.collected [b]).collected w = p.collected (b :: w) := by
  have hcnt : (p.collected [b]).cnt.toNat = p.cnt.toNat + 1 := toNat_cnt_collected p [b] h
  rw [Parser.collected, hcnt]
  simp only [Parser.collected, Memory.writeN, List.length_cons, List.length_nil, BitVec.add_assoc, ← BitVec.ofNat_add,
    Nat.add_comm]

/-- The bytes `w` of a block that needs more than these are collected, with event `None` each. -/
theorem runSchedule_collect (w v : List Byte) (s u : State) (p : Parser) (es : List Event) (hst : p.st = .block)
    (hlen : p.len.toNat ≤ 62) (hlt : p.cnt.toNat + w.length < p.len.toNat)
    (hrun : runSchedule (tpStream v) (s.withParser (p.collected w)) = some (u, es)) :
    runSchedule (tpStream (w ++ v)) (s.withParser p) = some (u, List.replicate w.length .none ++ es) := by
  induction w generalizing p with
  | nil => rwa [collected_nil] at hrun
  | cons b w ih =>
    rw [List.length_cons] at hlt
    have hrest : (p.collected [b]).cnt.toNat + w.length < p.len.toNat := by
      rw [toNat_cnt_collected p [b] (by rw [List.length_singleton]; omega), List.length_singleton]
      omega
    rw [← collected_cons p b w (by omega)] at hrun
    refine runSchedule_tpStream_cons (s.withParser p) _ b (w ++ v) _ _ (push_of_block s.cfg p b hst hlen (by omega)) ?_
    exact ih (p.collected [b]) hst hlen hrest hrun

/-! ## The whole message -/

/-- The parser after the address and the length byte of a message with `n` payload bytes (R152, R155). -/
def Parser.opened (p : Parser) (a : Byte) (n : Nat) : Parser :=
  { p with addr := a, len := BitVec.ofNat 6 (n + 2), cnt := 0, st := .block }

@[simp] theorem toNat_cnt_opened (p : Parser) (a : Byte) (n : Nat) : (p.opened a n).cnt.toNat = 0 := rfl

theorem toNat_len_opened (p : Parser) (a : Byte) (n : Nat) (hn : n ≤ 60) : (p.opened a n).len.toNat = n + 2 := by
  rw [Parser.opened, BitVec.toNat_ofNat]
  omega

theorem push_address (c : Config) (p : Parser) (a : Byte) (hst : p.st = .addr) (ha : a ∈ c.addrSet) :
    p.push c a = some ⟨{ p with addr := a, st := .len }, .none, none⟩ := by
  simp [Parser.push, hst, ha]

theorem push_length (c : Config) (p : Parser) (a : Byte) (n : Nat) (hn : n ≤ 60) :
    Parser.push c { p with addr := a, st := .len } (BitVec.ofNat 8 (n + 2)) = some ⟨p.opened a n, .none, none⟩ := by
  have htoNat : (BitVec.ofNat 8 (n + 2)).toNat = n + 2 := by rw [BitVec.toNat_ofNat]; omega
  have hzero : BitVec.ofNat 8 (n + 2) ≠ 0 := fun h => by rw [h] at htoNat; cases htoNat
  have hmax : ¬ tlmMaxLen < (BitVec.ofNat 8 (n + 2)).toNat := by simp only [tlmMaxLen]; omega
  have hlen : (BitVec.ofNat 8 (n + 2)).setWidth 6 = BitVec.ofNat 6 (n + 2) := by bv_omega
  simp only [Parser.push, if_neg (not_or.mpr ⟨hzero, hmax⟩), hlen, Parser.opened]

/-- A push of the last byte of a block closes it (R157). -/
theorem push_of_last (c : Config) (p : Parser) (b : Byte) (hst : p.st = .block) (hlen : p.len.toNat ≤ 62)
    (hlast : p.cnt.toNat + 1 = p.len.toNat) :
    p.push c b = some ⟨p.closed b, (blockVerdict c p.body b).1, (blockVerdict c p.body b).2⟩ := by
  have hcnt : ¬ 62 ≤ p.cnt.toNat := by omega
  simp [Parser.push, hst, hcnt, hlast]

/-- A body with the tag of a kind, a payload of its length and the CRC8 of both is that record (R158, R168). -/
theorem blockVerdict_record (c : Config) (k : Kind) (d : List Byte) (hok : c.ok = true) (hd : d.length = c.lenOf k) :
    blockVerdict c (c.tagOf k :: d) (crc8 c (c.tagOf k :: d)) = (.record k, some (k, d)) := by
  simp [blockVerdict, kindOf_tagOf c hok k, hd]

/-- A block that has collected all its bytes but the last holds them as its body. -/
theorem body_collected_opened (p : Parser) (a : Byte) (n : Nat) (w : List Byte) (hw : w.length = n + 1) (hn : n ≤ 60)
    (hbuf : p.buf.wf = true) : ((p.opened a n).collected w).body = w := by
  have hlen : ((p.opened a n).collected w).len.toNat - 1 = w.length := by
    rw [hw]; exact congrArg (· - 1) (toNat_len_opened p a n hn)
  rw [Parser.body, hlen]
  exact readN_writeN w p.buf 0 hbuf

/-- The last byte of a message of kind `K` accepts its record. -/
theorem push_crc (c : Config) (p : Parser) (a : Byte) (k : Kind) (d : List Byte) (hok : c.ok = true)
    (hbuf : p.buf.wf = true) (hd : d.length = c.lenOf k) (hd60 : d.length ≤ 60) :
    let q := (p.opened a d.length).collected (c.tagOf k :: d)
    q.push c (crc8 c (c.tagOf k :: d)) = some ⟨q.closed (crc8 c (c.tagOf k :: d)), .record k, some (k, d)⟩ := by
  intro q
  have hlen : q.len.toNat = d.length + 2 := toNat_len_opened p a d.length hd60
  have hcnt : q.cnt.toNat = 0 + (d.length + 1) := toNat_cnt_collected _ _ (by
    rw [toNat_cnt_opened, List.length_cons]; omega)
  rw [push_of_last c q _ rfl (by omega) (by omega), body_collected_opened p a d.length _ rfl hd60 hbuf,
    blockVerdict_record c k d hok hd]

/-- Settles O34: address and length byte begin the block, tag and payload are collected, and the CRC8 closes it. -/
theorem wholeMessageReachesItsSlot : Obligations.WholeMessageReachesItsSlot := by
  intro s a k d hok hst hbuf ha hd hd60
  have hcrc := push_crc s.cfg s.tp a k d hok hbuf hd hd60
  have hlen := toNat_len_opened s.tp a d.length hd60
  have hlast := runSchedule_tpStream_cons (s.withParser _) _ _ [] _ _ hcrc rfl
  have hcollect := runSchedule_collect (s.cfg.tagOf k :: d) _ s _ _ _ rfl (by omega)
    (by rw [toNat_cnt_opened, hlen, List.length_cons]; omega) hlast
  have hlength := runSchedule_tpStream_cons (s.withParser _) _ _ _ _ _ (push_length s.cfg s.tp a d.length hd60) hcollect
  have haddr := runSchedule_tpStream_cons s _ a _ _ _ (push_address s.cfg s.tp a hst ha) hlength
  refine ⟨_, haddr, get_store_same s.ts k d, fun j hj => get_store_other s.ts k j d hj, rfl, rfl, ?_, rfl, rfl, rfl⟩
  simp [Parser.closed, Parser.collected, Parser.opened]

end Sys2Proof.Machine
end

section
/-!
PROOFS. The unpack expressions of the table of R83 are the 11-bit windows of the bitstream (spec 30_encoding.md R82,
R83).
-/
namespace Sys2Proof.Machine

/-- The frame that `DEC` returns is the one its 25 bytes unpack to (R112). -/
theorem eq_unpackFrame_of_decoded (s : State) (w : List Byte) (f : ChannelFrame)
    (h : exec (.dec w) s = .next { s with out := .decoded f }) : f = unpackFrame s.cfg w := by
  have hev : decEvent (decFrame s.cfg w) = .decoded f := congrArg State.out (Host.Outcome.next.inj h)
  revert hev
  fun_cases decFrame s.cfg w with
  | case4 => rintro ⟨⟩; rfl
  | _ => rintro ⟨⟩

/-- Channel `n` of an unpacked wire frame is window `n` of bytes 1..22. -/
theorem chan_unpackFrame (c : Config) (w : List Byte) (n : Nat) (h : n < 16) :
    (unpackFrame c w).chan n = unpackChan (w.drop 1) n :=
  chan_vec16 _ _ _ _ _ n h

theorem byteAt_drop (w : List Byte) (d k : Nat) : byteAt (w.drop d) k = byteAt w (d + k) := by
  simp [byteAt]

/-- Bit `j` of window `n` is bit `(11n + j) mod 8` of byte `1 + (11n + j) div 8`. -/
theorem getLsbD_unpackChan_drop (w : List Byte) (n j : Nat) (hj : j < 11) :
    (unpackChan (w.drop 1) n).getLsbD j = (byteAt w (1 + (11 * n + j) / 8)).getLsbD ((11 * n + j) % 8) := by
  rw [unpackChan, getLsbD_bitsLE, decide_eq_true hj, Bool.true_and, streamBit, byteAt_drop]

/-- Two bytes of a wire frame from byte `k` on, shifted down by `o` bits. -/
def twoBytes (w : List Byte) (k o : Nat) : BitVec 24 :=
  (byteAt w k).setWidth 24 >>> o ||| (byteAt w (k + 1)).setWidth 24 <<< (8 - o)

/-- Three bytes of a wire frame from byte `k` on, shifted down by `o` bits. -/
def threeBytes (w : List Byte) (k o : Nat) : BitVec 24 :=
  twoBytes w k o ||| (byteAt w (k + 2)).setWidth 24 <<< (16 - o)

theorem getLsbD_threeBytes (w : List Byte) (k o i : Nat) (ho : o < 8) (hi : o + i < 24) :
    (threeBytes w k o).getLsbD i = (byteAt w (k + (o + i) / 8)).getLsbD ((o + i) % 8) := by
  have htwo : 8 ≤ o + i → i - (8 - o) = o + i - 8 := by omega
  have hthree : 16 ≤ o + i → i - (16 - o) = o + i - 16 := by omega
  simp only [threeBytes, twoBytes, BitVec.getLsbD_or, BitVec.getLsbD_ushiftRight, BitVec.getLsbD_shiftLeft,
    BitVec.getLsbD_setWidth]
  obtain ⟨q, hq⟩ : ∃ q, q = (o + i) / 8 := ⟨_, rfl⟩
  rw [← hq, show (o + i) % 8 = o + i - 8 * q by omega]
  have hq3 : q < 3 := by omega
  interval_cases q
  · simp (disch := omega) [decide_eq_true]
  · simp (disch := omega) [decide_eq_true, decide_eq_false, BitVec.getLsbD_of_ge, htwo]
  · simp (disch := omega) [decide_eq_true, decide_eq_false, BitVec.getLsbD_of_ge, hthree]

/-- Window `n` begins at bit `o` of byte `k`. -/
theorem unpackChan_eq_threeBytes (w : List Byte) (n k o : Nat) (hstart : 11 * n + 8 = 8 * k + o) (ho : o < 8) :
    unpackChan (w.drop 1) n = (threeBytes w k o).setWidth 11 := by
  refine BitVec.eq_of_getLsbD_eq fun j hj => ?_
  rw [getLsbD_unpackChan_drop w n j hj, BitVec.getLsbD_setWidth, decide_eq_true hj, Bool.true_and,
    getLsbD_threeBytes w k o j ho (by omega), show 1 + (11 * n + j) / 8 = k + (o + j) / 8 by omega,
    show (11 * n + j) % 8 = (o + j) % 8 by omega]

/-- Where the window begins at one of the bits 0..5, it ends before the third byte. -/
theorem unpackChan_eq_twoBytes (w : List Byte) (n k o : Nat) (hstart : 11 * n + 8 = 8 * k + o) (ho : o ≤ 5) :
    unpackChan (w.drop 1) n = (twoBytes w k o).setWidth 11 := by
  rw [unpackChan_eq_threeBytes w n k o hstart (by omega), threeBytes, BitVec.setWidth_or]
  suffices h : ((byteAt w (k + 2)).setWidth 24 <<< (16 - o)).setWidth 11 = 0#11 by rw [h, BitVec.or_zero]
  refine BitVec.eq_of_getLsbD_eq fun j hj => ?_
  simp [show j < 16 - o by omega]

/-- Settles O12: the windows of the sixteen channels begin at bits 0, 3, 6, 1, 4, 7, 2, 5 of their bytes, twice over. -/
theorem unpackedChannelsMatchTheByteExpressions : Obligations.UnpackedChannelsMatchTheByteExpressions := by
  intro s w f h b
  have hchan : ∀ n, n < 16 → f.chan n = unpackChan (w.drop 1) n := fun n hn => by
    rw [eq_unpackFrame_of_decoded s w f h, chan_unpackFrame _ _ _ hn]
  have two : ∀ n k o, n < 16 ∧ 11 * n + 8 = 8 * k + o ∧ o ≤ 5 → f.chan n = (twoBytes w k o).setWidth 11 :=
    fun n k o ⟨hn, hstart, ho⟩ => (hchan n hn).trans (unpackChan_eq_twoBytes w n k o hstart ho)
  have three : ∀ n k o, n < 16 ∧ 11 * n + 8 = 8 * k + o ∧ o < 8 → f.chan n = (threeBytes w k o).setWidth 11 :=
    fun n k o ⟨hn, hstart, ho⟩ => (hchan n hn).trans (unpackChan_eq_threeBytes w n k o hstart ho)
  exact ⟨two 0 1 0 (by decide), two 1 2 3 (by decide), three 2 3 6 (by decide), two 3 5 1 (by decide),
    two 4 6 4 (by decide), three 5 7 7 (by decide), two 6 9 2 (by decide), two 7 10 5 (by decide),
    two 8 12 0 (by decide), two 9 13 3 (by decide), three 10 14 6 (by decide), two 11 16 1 (by decide),
    two 12 17 4 (by decide), three 13 18 7 (by decide), two 14 20 2 (by decide), two 15 21 5 (by decide)⟩

end Sys2Proof.Machine
end

section
/-!
PROOFS. The stops of the model by name (spec 30_encoding.md R101, R103; 60_exceptions.md R283; 20_memory.md R64;
43_telemetry_records.md R180; logs 3, 8, 9, 10): what the decoder of port events answers on the beginning of an event,
and where `exec` and `step` stop.
-/
namespace Sys2Proof.Machine

/-! ## What the decoders answer on a beginning of their bytes -/

theorem takeBytes_cases (n : Nat) (t : List Byte) :
    takeBytes n t = none ∨ ∃ s r, ∀ u, takeBytes n (t ++ u) = some (s, r ++ u) := by
  by_cases hn : n ≤ t.length
  · refine .inr ⟨t.take n, t.drop n, fun u => ?_⟩
    rw [takeBytes, if_pos (by rw [List.length_append]; omega), List.take_append_of_le_length hn,
      List.drop_append_of_le_length hn]
  · exact .inl (if_neg hn)

theorem takeNat_cases (t : List Byte) : takeNat t = none ∨ ∃ n r, ∀ u, takeNat (t ++ u) = some (n, r ++ u) := by
  induction t with
  | nil => exact .inl rfl
  | cons b t ih =>
    by_cases hb : b.toNat < 128
    · exact .inr ⟨b.toNat, t, fun u => if_pos hb⟩
    · rcases ih with ht | ⟨n, r, ht⟩
      · exact .inl (by simp [takeNat, hb, ht])
      · exact .inr ⟨b.toNat - 128 + 128 * n, r, fun u => by simp [takeNat, hb, ht u]⟩

/-- What the decoders of operands have in common: the bytes end too early, or they hold an operation or an operand that
is too wide, whatever follows them. -/
def ReadsOperand (d : List Byte → Except DecodeError (Instr × List Byte)) : Prop :=
  ∀ t, d t = .error .truncated ∨ (∃ i r, ∀ u, d (t ++ u) = .ok (i, r ++ u)) ∨
    ∀ u, d (t ++ u) = .error .operandTooWide

theorem decodeEnc_reads : ReadsOperand decodeEnc := by
  intro t
  rcases takeBytes_cases 33 t with ht | ⟨s, r, ht⟩
  · exact .inl (by rw [decodeEnc, ht])
  · refine .inr ?_
    simp only [decodeEnc, ht]
    split
    · exact .inl ⟨_, r, fun _ => rfl⟩
    · exact .inr fun _ => rfl

theorem decodeDec_reads : ReadsOperand decodeDec := by
  rintro (_ | ⟨n, t⟩)
  · exact .inl rfl
  · rcases takeBytes_cases n.toNat t with ht | ⟨s, r, ht⟩
    · exact .inl (by rw [decodeDec, ht])
    · exact .inr (.inl ⟨.dec s, r, fun u => by rw [List.cons_append, decodeDec, ht]⟩)

theorem decodeFrPush_reads : ReadsOperand decodeFrPush := by
  intro t
  rcases takeNat_cases t with ht | ⟨n, _ | ⟨b, r⟩, ht⟩
  · exact .inl (by rw [decodeFrPush, ht])
  · exact .inl (by rw [decodeFrPush, ← List.append_nil t, ht]; rfl)
  · exact .inr (.inl ⟨.frPush n b, r, fun u => by rw [decodeFrPush, ht]; rfl⟩)

theorem decodeTpPush_reads : ReadsOperand decodeTpPush := by
  rintro (_ | ⟨b, r⟩)
  · exact .inl rfl
  · exact .inr (.inl ⟨.tpPush b, r, fun _ => rfl⟩)

theorem decodeEscTick_reads : ReadsOperand decodeEscTick := by
  rintro (_ | ⟨b0, _ | ⟨b1, _ | ⟨b2, _ | ⟨b3, r⟩⟩⟩⟩)
  · exact .inl rfl
  · exact .inl rfl
  · exact .inl rfl
  · exact .inl rfl
  · by_cases hb : b3.toNat < 16
    · exact .inr (.inl ⟨_, r, fun _ => if_pos hb⟩)
    · exact .inr (.inr fun _ => if_neg hb)

/-- A `PSEL` byte is reserved, or selects a decoder of operands (R101, R103). -/
theorem decodePort_cons_cases (h : Byte) :
    (∀ t, decodePort (h :: t) = .error (.reservedPsel h)) ∨
      ∃ d, ReadsOperand d ∧ ∀ t, decodePort (h :: t) = d t := by
  simp only [decodePort]
  split
  · exact .inr ⟨fun _ => .error .operandTooWide, fun _ => .inr (.inr fun _ => rfl), fun _ => rfl⟩
  split
  · exact .inr ⟨_, decodeEnc_reads, fun _ => rfl⟩
  split
  · exact .inr ⟨_, decodeDec_reads, fun _ => rfl⟩
  split
  · exact .inr ⟨_, decodeFrPush_reads, fun _ => rfl⟩
  split
  · exact .inr ⟨_, decodeTpPush_reads, fun _ => rfl⟩
  split
  · exact .inr ⟨_, decodeEscTick_reads, fun _ => rfl⟩
  split
  · exact .inr ⟨fun t => .ok (.rst, t), fun t => .inr (.inl ⟨.rst, t, fun _ => rfl⟩), fun _ => rfl⟩
  · exact .inl fun _ => rfl

/-- Pending bytes end too early, or they hold a reserved code, an operand that is too wide, or an operation, whatever
follows them. -/
theorem decodePort_cases (w : List Byte) (hw : w ≠ []) :
    decodePort w = .error .truncated ∨ (∃ i r, ∀ u, decodePort (w ++ u) = .ok (i, r ++ u)) ∨
      (∀ u, decodePort (w ++ u) = .error .operandTooWide) ∨
      ∃ h, w.head? = some h ∧ ∀ u, decodePort (w ++ u) = .error (.reservedPsel h) := by
  obtain ⟨h, t, rfl⟩ := List.exists_cons_of_ne_nil hw
  rcases decodePort_cons_cases h with hres | ⟨d, hd, heq⟩
  · exact .inr (.inr (.inr ⟨h, rfl, fun u => hres (t ++ u)⟩))
  · simp only [List.cons_append, heq]
    rcases hd t with ht | ht | ht
    · exact .inl ht
    · exact .inr (.inl ht)
    · exact .inr (.inr (.inl ht))

/-- A proper beginning of the words of a port operation ends too early: any other answer would be that of the whole
words, and they decode to the operation with no byte left. -/
theorem decodePort_of_beginning (c : Config) (i : Instr) (w rest : List Byte) (hport : i.format = .port)
    (hwf : i.wf c = true) (henc : encode c i = w ++ rest) (hw : w ≠ []) (hrest : rest ≠ []) :
    decodePort w = .error .truncated := by
  have hwhole : decodePort (w ++ rest) = .ok (i, []) := by
    rw [← henc, ← List.append_nil (encode c i)]
    exact decodePort_encode c i [] hport hwf
  rcases decodePort_cases w hw with ht | ⟨j, r, ht⟩ | ht | ⟨h, -, ht⟩
  · exact ht
  · have hnil : r ++ rest = [] := congrArg Prod.snd (Except.ok.inj ((ht rest).symm.trans hwhole))
    exact absurd (List.append_eq_nil_iff.mp hnil).2 hrest
  · cases (ht rest).symm.trans hwhole
  · cases (ht rest).symm.trans hwhole

/-- The errors of the decoder on pending bytes. -/
theorem decodePort_error_cases (w : List Byte) (e : DecodeError) (hw : w ≠ []) (h : decodePort w = .error e) :
    e = .truncated ∨ e = .operandTooWide ∨ ∃ b, w.head? = some b ∧ e = .reservedPsel b := by
  have hself : decodePort (w ++ []) = .error e := by rw [List.append_nil, h]
  rcases decodePort_cases w hw with ht | ⟨j, r, ht⟩ | ht | ⟨b, hb, ht⟩
  · cases ht.symm.trans h; exact .inl rfl
  · cases (ht []).symm.trans hself
  · cases (ht []).symm.trans hself; exact .inr (.inl rfl)
  · cases (ht []).symm.trans hself; exact .inr (.inr ⟨b, hb, rfl⟩)

/-! ## Bytes that spell no event -/

theorem decodePort_reserved (h : Byte) (t : List Byte) (hh : h.toNat = 0 ∨ (6 ≤ h.toNat ∧ h.toNat ≤ 14)) :
    decodePort (h :: t) = .error (.reservedPsel h) := by
  have hne : ∀ x : Byte, (1 ≤ x.toNat ∧ x.toNat ≤ 5 ∨ x.toNat = 15) → h ≠ x := by
    rintro x hx rfl
    omega
  rw [decodePort, if_neg (by omega), if_neg (hne _ (by decide)), if_neg (hne _ (by decide)), if_neg (hne _ (by decide)),
    if_neg (hne _ (by decide)), if_neg (hne _ (by decide)), if_neg (hne _ (by decide))]

theorem decodePort_widePsel (h : Byte) (t : List Byte) (hh : 16 ≤ h.toNat) :
    decodePort (h :: t) = .error .operandTooWide := if_pos hh

theorem decodePort_wideTick (b0 b1 b2 b3 : Byte) (t : List Byte) (h : 16 ≤ b3.toNat) :
    decodePort (0x05 :: b0 :: b1 :: b2 :: b3 :: t) = .error .operandTooWide :=
  if_neg (Nat.not_lt.mpr h)

theorem decodePort_wideEnc (w t : List Byte) (hlen : w.length = 33)
    (h : (∃ n, n < 16 ∧ 8 ≤ (byteAt w (2 * n + 1)).toNat) ∨ 16 ≤ (byteAt w 32).toNat) :
    decodePort (0x01 :: (w ++ t)) = .error .operandTooWide := by
  show decodeEnc (w ++ t) = _
  simp only [decodeEnc, takeBytes_append w t 33 hlen]
  refine if_neg fun hall => ?_
  simp only [Bool.and_eq_true, List.all_eq_true, List.mem_range, decide_eq_true_eq] at hall
  obtain ⟨hchan, hflags⟩ := hall
  rcases h with ⟨n, hn, hwide⟩ | hwide
  · exact absurd (hchan n hn) (Nat.not_lt.mpr hwide)
  · exact absurd hflags (Nat.not_lt.mpr hwide)

/-! ## Where a push stops -/

/-- A push to a framer has no answer exactly when `FR_CNT` points outside `FR_BUF` (log 9). -/
theorem framer_push_eq_none_iff (c : Config) (f : Framer) (b : Byte) :
    f.push c b = none ↔ f.st = .accumulating ∧ 25 ≤ f.cnt.toNat := by
  fun_cases Framer.push c f b with
  | case3 hst hout => exact ⟨fun _ => ⟨hst, hout⟩, fun _ => rfl⟩
  | _ => simp [*]

/-- A push to the parser has no answer exactly when `TP_CNT` points outside `TP_BUF` (log 9). -/
theorem parser_push_eq_none_iff (c : Config) (p : Parser) (b : Byte) :
    p.push c b = none ↔ p.st = .block ∧ 62 ≤ p.cnt.toNat := by
  fun_cases Parser.push c p b with
  | case5 hst hout => exact ⟨fun _ => ⟨hst, hout⟩, fun _ => rfl⟩
  | _ => simp [*]

theorem exec_frPush_of_missing (s : State) (n : Nat) (b : Byte) (h : s.fr.length ≤ n) :
    exec (.frPush n b) s = .refused (.noSuchInstance n) := by
  simp [exec, execFrPush, List.getElem?_eq_none_iff.mpr h]

theorem exec_frPush_of_outside (s : State) (n : Nat) (f : Framer) (b : Byte) (hf : s.fr[n]? = some f)
    (hst : f.st = .accumulating) (hcnt : 25 ≤ f.cnt.toNat) :
    exec (.frPush n b) s = .fault (.outsideBuffer f.cnt.toNat) := by
  simp [exec, execFrPush, hf, (framer_push_eq_none_iff s.cfg f b).mpr ⟨hst, hcnt⟩]

theorem exec_tpPush_of_outside (s : State) (b : Byte) (hst : s.tp.st = .block) (hcnt : 62 ≤ s.tp.cnt.toNat) :
    exec (.tpPush b) s = .fault (.outsideBuffer s.tp.cnt.toNat) := by
  rw [exec_tpPush, (parser_push_eq_none_iff s.cfg s.tp b).mpr ⟨hst, hcnt⟩]
  rfl

theorem exec_ofRecord_of_length (s : State) (k : Kind) (p : List Byte) (h : p.length ≠ s.cfg.lenOf k) :
    exec (Instr.ofRecord k p) s = .refused (.payloadLength k p.length) := by
  rw [exec_ofRecord, recordInto, if_neg h]

/-- `FR.PUSH` is refused, faults or completes. -/
theorem exec_frPush_cases (n : Nat) (b : Byte) (s : State) :
    (s.fr.length ≤ n ∧ exec (.frPush n b) s = .refused (.noSuchInstance n)) ∨
    (∃ f, s.fr[n]? = some f ∧ f.st = .accumulating ∧ 25 ≤ f.cnt.toNat ∧
      exec (.frPush n b) s = .fault (.outsideBuffer f.cnt.toNat)) ∨
    ∃ t, exec (.frPush n b) s = .next t := by
  cases hf : s.fr[n]? with
  | none =>
    have hn := List.getElem?_eq_none_iff.mp hf
    exact .inl ⟨hn, exec_frPush_of_missing s n b hn⟩
  | some f =>
    cases hp : f.push s.cfg b with
    | none =>
      obtain ⟨hst, hcnt⟩ := (framer_push_eq_none_iff s.cfg f b).mp hp
      exact .inr (.inl ⟨f, rfl, hst, hcnt, exec_frPush_of_outside s n f b hf hst hcnt⟩)
    | some x => exact .inr (.inr ⟨_, execFrPush_of_push n b s f x.1 x.2 hf hp⟩)

/-- `TP.PUSH` faults or completes. -/
theorem exec_tpPush_stop_cases (b : Byte) (s : State) :
    (s.tp.st = .block ∧ 62 ≤ s.tp.cnt.toNat ∧ exec (.tpPush b) s = .fault (.outsideBuffer s.tp.cnt.toNat)) ∨
    ∃ t, exec (.tpPush b) s = .next t := by
  cases hp : s.tp.push s.cfg b with
  | none =>
    obtain ⟨hst, hcnt⟩ := (parser_push_eq_none_iff s.cfg s.tp b).mp hp
    exact .inl ⟨hst, hcnt, exec_tpPush_of_outside s b hst hcnt⟩
  | some x => exact .inr ⟨s.afterPush x, by rw [exec_tpPush, hp]; rfl⟩

/-- Every operation completes, is refused for one of two reasons, or faults in one of two cases. -/
theorem exec_stop_cases (i : Instr) (s : State) :
    (∃ t, exec i s = .next t) ∨
    (∃ n b, i = .frPush n b ∧ s.fr.length ≤ n ∧ exec i s = .refused (.noSuchInstance n)) ∨
    (∃ k p, i = Instr.ofRecord k p ∧ p.length ≠ s.cfg.lenOf k ∧ exec i s = .refused (.payloadLength k p.length)) ∨
    (∃ n b f, i = .frPush n b ∧ s.fr[n]? = some f ∧ f.st = .accumulating ∧ 25 ≤ f.cnt.toNat ∧
      exec i s = .fault (.outsideBuffer f.cnt.toNat)) ∨
    (∃ b, i = .tpPush b ∧ s.tp.st = .block ∧ 62 ≤ s.tp.cnt.toNat ∧
      exec i s = .fault (.outsideBuffer s.tp.cnt.toNat)) := by
  rcases instr_cases i with ⟨f, rfl⟩ | ⟨w, rfl⟩ | ⟨n, b, rfl⟩ | ⟨b, rfl⟩ | ⟨tw, rfl⟩ | rfl | ⟨k, p, rfl⟩
  · exact .inl ⟨_, exec_enc f s⟩
  · exact .inl ⟨_, exec_dec w s⟩
  · rcases exec_frPush_cases n b s with ⟨hn, h⟩ | ⟨f, hf, hst, hcnt, h⟩ | h
    · exact .inr (.inl ⟨n, b, rfl, hn, h⟩)
    · exact .inr (.inr (.inr (.inl ⟨n, b, f, rfl, hf, hst, hcnt, h⟩)))
    · exact .inl h
  · rcases exec_tpPush_stop_cases b s with ⟨hst, hcnt, h⟩ | h
    · exact .inr (.inr (.inr (.inr ⟨b, rfl, hst, hcnt, h⟩)))
    · exact .inl h
  · exact .inl ⟨_, exec_escTick tw s⟩
  · exact .inl ⟨_, exec_rst s⟩
  · rcases recordInto_cases k p s with ⟨-, h⟩ | ⟨hp, -⟩
    · exact .inl ⟨_, (exec_ofRecord k p s).trans h⟩
    · exact .inr (.inr (.inl ⟨k, p, rfl, hp, exec_ofRecord_of_length s k p hp⟩))

/-- What `exec` refuses. -/
theorem exec_refused (s : State) (i : Instr) (r : Refusal) (h : exec i s = .refused r) :
    (∃ n b, i = .frPush n b ∧ s.fr.length ≤ n ∧ r = .noSuchInstance n) ∨
    (∃ k p, i = Instr.ofRecord k p ∧ p.length ≠ s.cfg.lenOf k ∧ r = .payloadLength k p.length) := by
  rcases exec_stop_cases i s with ⟨t, ht⟩ | ⟨n, b, hi, hn, ht⟩ | ⟨k, p, hi, hp, ht⟩ | ⟨n, b, f, -, -, -, -, ht⟩ |
    ⟨b, -, -, -, ht⟩
  · cases ht.symm.trans h
  · cases ht.symm.trans h; exact .inl ⟨n, b, hi, hn, rfl⟩
  · cases ht.symm.trans h; exact .inr ⟨k, p, hi, hp, rfl⟩
  · cases ht.symm.trans h
  · cases ht.symm.trans h

/-- Where `exec` faults. -/
theorem exec_fault (s : State) (i : Instr) (r : Fault) (h : exec i s = .fault r) :
    (∃ n b f, i = .frPush n b ∧ s.fr[n]? = some f ∧ f.st = .accumulating ∧ 25 ≤ f.cnt.toNat ∧
      r = .outsideBuffer f.cnt.toNat) ∨
    (∃ b, i = .tpPush b ∧ s.tp.st = .block ∧ 62 ≤ s.tp.cnt.toNat ∧ r = .outsideBuffer s.tp.cnt.toNat) := by
  rcases exec_stop_cases i s with ⟨t, ht⟩ | ⟨n, b, -, -, ht⟩ | ⟨k, p, -, -, ht⟩ | ⟨n, b, f, hi, hf, hst, hcnt, ht⟩ |
    ⟨b, hi, hst, hcnt, ht⟩
  · cases ht.symm.trans h
  · cases ht.symm.trans h
  · cases ht.symm.trans h
  · cases ht.symm.trans h; exact .inl ⟨n, b, f, hi, hf, hst, hcnt, rfl⟩
  · cases ht.symm.trans h; exact .inr ⟨b, hi, hst, hcnt, rfl⟩

/-! ## Where a step stops -/

theorem step_of_illegalConfig (s : State) (h : s.cfg.ok = false) : step s = .refused .illegalConfig := by
  simp [step, fetch, h]

theorem step_of_nothing_pending (s : State) (hok : s.cfg.ok = true) (hin : s.input = []) :
    step s = .next (s.emit .none) := by
  simp [step, fetch, hok, hin]

/-- Pending bytes that decode to no event are refused with the decoder's reason. -/
theorem step_of_badEvent (s : State) (e : DecodeError) (hok : s.cfg.ok = true) (hin : s.input ≠ [])
    (hd : decodePort s.input = .error e) : step s = .refused (.badEvent e) := by
  rcases step_cases s with ⟨-, hnil, -⟩ | ⟨i, rest, -, hd', -⟩ | ⟨e', -, hd', hs⟩ | ⟨hbad, -⟩
  · exact absurd hnil hin
  · cases hd'.symm.trans hd
  · cases hd'.symm.trans hd; exact hs
  · cases hbad.symm.trans hok

/-- What `step` refuses: no pending bytes are a record decoder, so of the refusals of `exec` only that of a framer
beyond the last. -/
theorem step_refused (s : State) (r : Refusal) (h : step s = .refused r) :
    (s.cfg.ok = false ∧ r = .illegalConfig) ∨
    (∃ e, s.cfg.ok = true ∧ s.input ≠ [] ∧ decodePort s.input = .error e ∧ r = .badEvent e ∧
      (e = .truncated ∨ e = .operandTooWide ∨ ∃ h, s.input.head? = some h ∧ e = .reservedPsel h)) ∨
    (∃ n b rest, s.cfg.ok = true ∧ decodePort s.input = .ok (.frPush n b, rest) ∧ s.fr.length ≤ n ∧
      r = .noSuchInstance n) := by
  rcases step_cases s with ⟨-, -, hs⟩ | ⟨i, rest, hok, hd, hs⟩ | ⟨e, hok, hd, hs⟩ | ⟨hbad, hs⟩
  · cases hs.symm.trans h
  · rcases exec_refused _ i r (hs.symm.trans h) with ⟨n, b, rfl, hn, rfl⟩ | ⟨k, p, rfl, -, -⟩
    · exact .inr (.inr ⟨n, b, rest, hok, hd, hn, rfl⟩)
    · have hrec := decodePort_record _ _ _ hd
      rw [record?_ofRecord] at hrec
      cases hrec
  · cases hs.symm.trans h
    have hin : s.input ≠ [] := fun hnil => by
      cases (step_of_nothing_pending s hok hnil).symm.trans h
    exact .inr (.inl ⟨e, hok, hin, hd, rfl, decodePort_error_cases s.input e hin hd⟩)
  · cases hs.symm.trans h
    exact .inl ⟨hbad, rfl⟩

/-- A step faults as the operation it runs does. -/
theorem step_fault (s : State) (r : Fault) (h : step s = .fault r) :
    ∃ i rest, s.cfg.ok = true ∧ decodePort s.input = .ok (i, rest) ∧ exec i { s with input := rest } = .fault r := by
  rcases step_cases s with ⟨-, -, hs⟩ | ⟨i, rest, hok, hd, hs⟩ | ⟨e, -, -, hs⟩ | ⟨-, hs⟩
  · cases hs.symm.trans h
  · exact ⟨i, rest, hok, hd, hs.symm.trans h⟩
  · cases hs.symm.trans h
  · cases hs.symm.trans h

/-- Settles O5, clause by clause: the stops of a step on its configuration and its pending bytes, those of `exec`, and
that there are no others. -/
theorem stopsAreByName : Obligations.StopsAreByName := by
  have hbad : ∀ (s : State) (e : DecodeError) (h : Byte) (t : List Byte), s.cfg.ok = true → s.input = h :: t →
      decodePort (h :: t) = .error e → step s = .refused (.badEvent e) := fun s e h t hok hin hd =>
    step_of_badEvent s e hok (by rw [hin]; exact List.cons_ne_nil h t) (by rw [hin, hd])
  refine ⟨step_of_illegalConfig, fun s h t hok hin => ⟨fun hh => ?_, fun hh => ?_⟩,
    fun s b0 b1 b2 b3 t hok hin hb => ?_, fun s w t hok hin hlen hw => ?_,
    fun s i rest hok hport hwf henc hin hrest => ?_, exec_frPush_of_missing, exec_ofRecord_of_length,
    exec_frPush_of_outside, exec_tpPush_of_outside, exec_refused, exec_fault, step_refused, step_fault⟩
  · exact hbad s _ h t hok hin (decodePort_reserved h t hh)
  · exact hbad s _ h t hok hin (decodePort_widePsel h t hh)
  · exact hbad s _ _ _ hok hin (decodePort_wideTick b0 b1 b2 b3 t hb)
  · exact hbad s _ _ _ hok hin (decodePort_wideEnc w t hlen hw)
  · exact step_of_badEvent s _ hok hin (decodePort_of_beginning s.cfg i s.input rest hport hwf henc hin hrest)

end Sys2Proof.Machine
end

section
/-!
PROOFS. The Frame Codec (spec 40_frame_codec.md R110 to R118): what `ENC` writes and what `DEC` answers byte by byte, and
the two round trips.
-/
namespace Sys2Proof.Machine

/-! ## Bytes of a sequence by index -/

theorem byteAt_of_getElem? (w : List Byte) (k : Nat) (x : Byte) (h : w[k]? = some x) : byteAt w k = x := by
  rw [byteAt, List.getD_eq_getElem?_getD, h, Option.getD_some]

theorem getElem?_eq_byteAt (w : List Byte) (k : Nat) (h : k < w.length) : w[k]? = some (byteAt w k) := by
  rw [byteAt, List.getD_eq_getElem _ _ h, List.getElem?_eq_getElem h]

theorem set_eq_self_iff_byteAt (w : List Byte) (k : Nat) (x : Byte) (h : k < w.length) :
    w.set k x = w ↔ x = byteAt w k := by
  constructor
  · intro hset
    have hk : (w.set k x)[k]? = w[k]? := by rw [hset]
    rw [List.getElem?_set_self h, getElem?_eq_byteAt w k h] at hk
    exact Option.some.inj hk
  · rintro rfl
    rw [byteAt, List.getD_eq_getElem _ _ h, List.set_getElem_self]

/-! ## What `DEC` answers -/

theorem decFrame_of_badLength (c : Config) (w : List Byte) (h : w.length ≠ 25) :
    decFrame c w = .error (.badLength w.length) := if_pos h

theorem decFrame_of_badStart (c : Config) (w : List Byte) (hlen : w.length = 25) (h : byteAt w 0 ≠ c.startMark) :
    decFrame c w = .error (.badStart (byteAt w 0)) := by
  rw [decFrame, if_neg (not_not.mpr hlen), if_pos h]

theorem decFrame_of_badEnd (c : Config) (w : List Byte) (hlen : w.length = 25) (hstart : byteAt w 0 = c.startMark)
    (h : byteAt w 24 ≠ c.endMark) : decFrame c w = .error (.badEnd (byteAt w 24)) := by
  rw [decFrame, if_neg (not_not.mpr hlen), if_neg (not_not.mpr hstart), if_pos h]

theorem decFrame_of_marked (c : Config) (w : List Byte) (hlen : w.length = 25) (hstart : byteAt w 0 = c.startMark)
    (hend : byteAt w 24 = c.endMark) : decFrame c w = .ok (unpackFrame c w) := by
  rw [decFrame, if_neg (not_not.mpr hlen), if_neg (not_not.mpr hstart), if_neg (not_not.mpr hend)]

/-- `DEC` of a well-marked wire frame (R112). -/
theorem exec_dec_of_marked (s : State) (w : List Byte) (hlen : w.length = 25) (hstart : w[0]? = some s.cfg.startMark)
    (hend : w[24]? = some s.cfg.endMark) :
    exec (.dec w) s = .next { s with out := .decoded (unpackFrame s.cfg w) } := by
  rw [exec_dec, decFrame_of_marked s.cfg w hlen (byteAt_of_getElem? w 0 _ hstart) (byteAt_of_getElem? w 24 _ hend)]
  rfl

/-- Settles O8, one clause per check of `DEC`. -/
theorem decReportsTheFirstFailedCheck : Obligations.DecReportsTheFirstFailedCheck := by
  refine fun s w => ⟨fun hlen => ?_, fun x hlen h0 hx => ?_, fun x hlen h0 h24 hx => ?_⟩
  · rw [exec_dec, decFrame_of_badLength s.cfg w hlen]
    rfl
  · obtain rfl := byteAt_of_getElem? w 0 x h0
    rw [exec_dec, decFrame_of_badStart s.cfg w hlen hx]
    rfl
  · obtain rfl := byteAt_of_getElem? w 24 x h24
    rw [exec_dec, decFrame_of_badEnd s.cfg w hlen (byteAt_of_getElem? w 0 _ h0) hx]
    rfl

/-! ## The bytes of a wire frame -/

theorem chan_eq_getElem (f : ChannelFrame) (n : Nat) (h : n < 16) : f.chan n = f.ch[n] := dif_pos h

@[simp] theorem length_encFrame (c : Config) (f : ChannelFrame) : (encFrame c f).length = 25 := by simp [encFrame]

theorem encFrame_start (c : Config) (f : ChannelFrame) : (encFrame c f)[0]? = some c.startMark := rfl

theorem encFrame_flags (c : Config) (f : ChannelFrame) : (encFrame c f)[23]? = some (flagsByte c f) := rfl

theorem encFrame_end (c : Config) (f : ChannelFrame) : (encFrame c f)[24]? = some c.endMark := rfl

theorem byteAt_encFrame (c : Config) (f : ChannelFrame) (k : Nat) (h : k < 22) :
    byteAt (encFrame c f) (1 + k) = byteAt (packChans f) k := by
  rw [Nat.add_comm]
  exact byteAt_append_left _ _ _ (by simpa using h)

/-- Stream bit `q` of an encoded frame is bit `q mod 11` of channel `q div 11` (R82, R110). -/
theorem getLsbD_byteAt_encFrame (c : Config) (f : ChannelFrame) (q : Nat) (h : q < 176) :
    (byteAt (encFrame c f) (1 + q / 8)).getLsbD (q % 8) = (f.chan (q / 11)).getLsbD (q % 11) := by
  rw [byteAt_encFrame c f (q / 8) (by omega)]
  exact streamBit_packChans f q h

/-- The stream bits of channel `n`. -/
theorem getLsbD_byteAt_encFrame_chan (c : Config) (f : ChannelFrame) (n j : Nat) (hn : n < 16) (hj : j < 11) :
    (byteAt (encFrame c f) (1 + (11 * n + j) / 8)).getLsbD ((11 * n + j) % 8) = (f.chan n).getLsbD j := by
  rw [getLsbD_byteAt_encFrame c f _ (by omega), show (11 * n + j) / 11 = n by omega,
    show (11 * n + j) % 11 = j by omega]

/-- The rule's example: the frame of sixteen middle values (R110). -/
theorem encFrame_reference_mid :
    encFrame Config.reference ⟨vec16 (fun _ => 992), false, false, false, false⟩ =
      [0x0F, 0xE0, 0x03, 0x1F, 0xF8, 0xC0, 0x07, 0x3E, 0xF0, 0x81, 0x0F, 0x7C, 0xE0,
       0x03, 0x1F, 0xF8, 0xC0, 0x07, 0x3E, 0xF0, 0x81, 0x0F, 0x7C, 0x00, 0x00] := by decide

/-- Settles O7: the wire frame is `encFrame`, read byte by byte. -/
theorem encReturnsTheWireFrame : Obligations.EncReturnsTheWireFrame := by
  refine ⟨fun s f => ⟨encFrame s.cfg f, exec_enc f s, length_encFrame _ _, encFrame_start _ _, encFrame_end _ _,
    encFrame_flags _ _, fun n j hn hj => ?_⟩, fun s hcfg => ?_⟩
  · rw [getLsbD_byteAt_encFrame_chan _ _ _ _ hn hj, chan_eq_getElem f n hn]
  · have hw := encFrame_reference_mid
    rw [← hcfg] at hw
    rw [exec_enc, hw]
    rfl

/-- Bit `j` of channel `n` of an unpacked wire frame (R82, R112). -/
theorem getLsbD_chan_unpackFrame (c : Config) (w : List Byte) (n j : Nat) (hn : n < 16) (hj : j < 11) :
    ((unpackFrame c w).chan n).getLsbD j = (byteAt w (1 + (11 * n + j) / 8)).getLsbD ((11 * n + j) % 8) := by
  rw [chan_unpackFrame c w n hn, getLsbD_unpackChan_drop w n j hj]

/-- Settles O9: the frame is `unpackFrame`, read bit by bit. -/
theorem decReturnsTheFrame : Obligations.DecReturnsTheFrame := by
  refine fun s w hlen hstart hend => ⟨unpackFrame s.cfg w, exec_dec_of_marked s w hlen hstart hend, fun n j hn hj => ?_,
    rfl, rfl, rfl, rfl⟩
  rw [← chan_eq_getElem _ n hn, getLsbD_chan_unpackFrame _ _ _ _ hn hj]

/-! ## The flags byte (R84) -/

theorem getLsbD_flagAt (b : Bool) (pos i : Nat) (hi : i < 8) : (flagAt b pos).getLsbD i = (decide (i = pos) && b) := by
  rcases Nat.lt_trichotomy i pos with h | rfl | h
  · simp [flagAt, h, h.ne]
  · simp [flagAt, hi]
  · simp [flagAt, h.ne', hi, show i - pos ≠ 0 by omega]

/-- Bit `i` of the flags byte is the or of the flags that stand at position `i`. -/
theorem getLsbD_flagsByte (c : Config) (f : ChannelFrame) (i : Nat) (hi : i < 8) :
    (flagsByte c f).getLsbD i = (decide (i = c.fbCh17) && f.ch17 || decide (i = c.fbCh18) && f.ch18 ||
      decide (i = c.fbLost) && f.lost || decide (i = c.fbFs) && f.fs) := by
  simp only [flagsByte, BitVec.getLsbD_or, getLsbD_flagAt _ _ i hi]

/-- Flags that have a bit each are read back from the flags byte. -/
theorem withFlags_flagsByte (c : Config) (f : ChannelFrame) (hok : c.ok = true) (hapart : flagsApart c = true) :
    withFlags c (flagsByte c f) f.ch = f := by
  obtain ⟨h17, h18, hlost, hfs⟩ := ok_flags c hok
  obtain ⟨h1, h2, h3, h4, h5, h6⟩ := (flagsApart_iff c).mp hapart
  rw [withFlags, getLsbD_flagsByte c f _ h17, getLsbD_flagsByte c f _ h18, getLsbD_flagsByte c f _ hlost,
    getLsbD_flagsByte c f _ hfs]
  simp [h1, h2, h3, h4, h5, h6, h1.symm, h2.symm, h3.symm, h4.symm, h5.symm, h6.symm]

/-! ## `DEC` after `ENC` (R117) -/

theorem chan_unpackFrame_encFrame (c : Config) (f : ChannelFrame) (n : Nat) (hn : n < 16) :
    (unpackFrame c (encFrame c f)).chan n = f.chan n :=
  BitVec.eq_of_getLsbD_eq fun j hj => by
    rw [getLsbD_chan_unpackFrame _ _ _ _ hn hj, getLsbD_byteAt_encFrame_chan _ _ _ _ hn hj]

/-- Unpacking an encoded frame gives back its channels, and whatever flags its flags byte holds. -/
theorem unpackFrame_encFrame (c : Config) (f : ChannelFrame) :
    unpackFrame c (encFrame c f) = withFlags c (flagsByte c f) f.ch :=
  ChannelFrame.ext_chan _ _ (fun n hn => chan_unpackFrame_encFrame c f n hn) rfl rfl rfl rfl

/-- Settles O10: the stream bits give the channels back, and a bit for each flag the flags. -/
theorem decodeOfEncodeIsTheFrame : Obligations.DecodeOfEncodeIsTheFrame := by
  intro s f hok
  refine ⟨encFrame s.cfg f, withFlags s.cfg (flagsByte s.cfg f) f.ch, exec_enc f s, ?_, rfl,
    withFlags_flagsByte s.cfg f hok⟩
  rw [exec_dec_of_marked s _ (length_encFrame _ _) (encFrame_start _ _) (encFrame_end _ _), unpackFrame_encFrame]

/-! ## `ENC` after `DEC` (R118) -/

/-- The packed bytes of a decoded frame are the ones it was decoded from (R82). -/
theorem byteAt_encFrame_unpackFrame (c : Config) (w : List Byte) (k : Nat) (hk : k < 22) :
    byteAt (encFrame c (unpackFrame c w)) (1 + k) = byteAt w (1 + k) := by
  refine BitVec.eq_of_getLsbD_eq fun m hm => ?_
  obtain ⟨q, hq⟩ : ∃ q, q = 8 * k + m := ⟨_, rfl⟩
  have hbit := getLsbD_byteAt_encFrame c (unpackFrame c w) q (by omega)
  rw [getLsbD_chan_unpackFrame c w _ _ (by omega) (by omega), Nat.div_add_mod] at hbit
  rwa [show q / 8 = k by omega, show q % 8 = m by omega] at hbit

/-- With the flags in bits 7..4, writing back the flags of a byte keeps its high nibble and clears its low one. -/
theorem flagsByte_withFlags (c : Config) (x : Byte) (ch : Vector Chan 16) (h17 : c.fbCh17 = 7) (h18 : c.fbCh18 = 6)
    (hlost : c.fbLost = 5) (hfs : c.fbFs = 4) : flagsByte c (withFlags c x ch) = x &&& 0xF0 := by
  refine BitVec.eq_of_getLsbD_eq fun i hi => ?_
  rw [getLsbD_flagsByte _ _ i hi, BitVec.getLsbD_and]
  simp only [withFlags, h17, h18, hlost, hfs]
  interval_cases i <;> simp

/-- Byte by byte: the markers are those of the configuration, the packed bytes come back, the flags byte is masked (R118). -/
theorem encFrame_unpackFrame (c : Config) (w : List Byte) (h17 : c.fbCh17 = 7) (h18 : c.fbCh18 = 6)
    (hlost : c.fbLost = 5) (hfs : c.fbFs = 4) (hlen : w.length = 25) (hstart : w[0]? = some c.startMark)
    (hend : w[24]? = some c.endMark) : encFrame c (unpackFrame c w) = w.set 23 (byteAt w 23 &&& 0xF0) := by
  refine List.ext_getElem? fun k => ?_
  have hk : k = 0 ∨ (1 ≤ k ∧ k ≤ 22) ∨ k = 23 ∨ k = 24 ∨ 25 ≤ k := by omega
  rcases hk with rfl | ⟨h1, h22⟩ | rfl | rfl | h25
  · rw [encFrame_start, List.getElem?_set_ne (by decide), hstart]
  · obtain ⟨i, rfl⟩ := Nat.exists_eq_add_of_le h1
    rw [List.getElem?_set_ne (by omega), getElem?_eq_byteAt _ _ (by rw [length_encFrame]; omega),
      getElem?_eq_byteAt w _ (by omega), byteAt_encFrame_unpackFrame c w i (by omega)]
  · rw [encFrame_flags, List.getElem?_set_self (by omega), unpackFrame, flagsByte_withFlags _ _ _ h17 h18 hlost hfs]
  · rw [encFrame_end, List.getElem?_set_ne (by decide), hend]
  · rw [List.getElem?_eq_none (by rw [length_encFrame]; exact h25),
      List.getElem?_eq_none (by rw [List.length_set, hlen]; exact h25)]

/-- Masking with 0xF0 keeps exactly the bytes whose low nibble is 0 (all 256 of them tried). -/
theorem and_F0_eq_self_iff (x : Byte) : x &&& 0xF0 = x ↔ x.extractLsb' 0 4 = 0 := by
  revert x
  decide

/-- Settles O11: every byte but byte 23 comes back, and that one without its low nibble. -/
theorem encodeOfDecodeClearsTheLowNibble : Obligations.EncodeOfDecodeClearsTheLowNibble := by
  intro s w h17 h18 hlost hfs hlen hstart hend
  have hround := encFrame_unpackFrame s.cfg w h17 h18 hlost hfs hlen hstart hend
  refine ⟨unpackFrame s.cfg w, _, exec_dec_of_marked s w hlen hstart hend, exec_enc _ s, hround, ?_⟩
  rw [hround, set_eq_self_iff_byteAt w 23 _ (by omega), and_F0_eq_self_iff]

end Sys2Proof.Machine
end

section
/-!
PROOFS. The Stream Framer, one byte at a time (spec 41_stream_framer.md R131 to R137): what a push answers in each
of the framer's cases, and what `FR.PUSH` then does to the block; no state that keeps the invariant has a `DecodeFail`.
-/
namespace Sys2Proof.Machine

/-! ## The push of a byte, case by case -/

section framerPush
variable {c : Config} {f : Framer} {b : Byte}

theorem framer_push_of_other (hst : f.st = .searching) (hb : b ≠ c.startMark) : f.push c b = some (f, .none) := by
  simp [Framer.push, hst, hb]

theorem framer_push_of_start (hst : f.st = .searching) (hb : b = c.startMark) :
    f.push c b = some ({ f with st := .accumulating, cnt := 1, buf := f.buf.write 0 b }, .none) := by
  simp [Framer.push, hst, hb, stored_searching]

theorem framer_push_of_below (hst : f.st = .accumulating) (hcnt : f.cnt.toNat + 1 < 25) :
    f.push c b = some ({ f with cnt := f.cnt + 1, buf := f.buf.write f.cnt.toNat b }, .none) := by
  have hin : ¬ 25 ≤ f.cnt.toNat := by omega
  simp [Framer.push, hst, hin, hcnt, stored_accumulating]

/-- The 25th byte completes the candidate (R134). -/
theorem framer_push_of_last (hst : f.st = .accumulating) (hcnt : f.cnt.toNat = 24) :
    f.push c b = some (f.complete c b) := by
  simp [Framer.push, hst, hcnt]

/-- The framer when a candidate is dropped: back in `Searching`, the 25th byte stored, `RXF` kept (R136, R137). -/
def Framer.dropped (f : Framer) (b : Byte) : Framer :=
  { f with st := .searching, cnt := 0, buf := f.buf.write 24 b }

theorem framer_push_of_badEnd (hst : f.st = .accumulating) (hcnt : f.cnt.toNat = 24) (hb : b ≠ c.endMark) :
    f.push c b = some (f.dropped b, .dropped b) := by
  rw [framer_push_of_last hst hcnt, Framer.complete, if_pos hb, stored_accumulating c f b hst, hcnt]
  rfl

theorem framer_push_of_frame (fr : ChannelFrame) (hst : f.st = .accumulating) (hcnt : f.cnt.toNat = 24)
    (hb : b = c.endMark) (hdec : decFrame c (f.buf.readN 0 24 ++ [b]) = .ok fr) :
    f.push c b = some ({ f.dropped b with rxf := fr }, .frame fr) := by
  rw [framer_push_of_last hst hcnt, Framer.complete, if_neg (not_not.mpr hb), hdec, stored_accumulating c f b hst, hcnt]
  rfl

theorem framer_push_of_decodeError (e : FormatError) (hst : f.st = .accumulating) (hcnt : f.cnt.toNat = 24)
    (hb : b = c.endMark) (hdec : decFrame c (f.buf.readN 0 24 ++ [b]) = .error e) :
    f.push c b = some (f.dropped b, .decodeFail e) := by
  rw [framer_push_of_last hst hcnt, Framer.complete, if_neg (not_not.mpr hb), hdec, stored_accumulating c f b hst, hcnt]
  rfl

end framerPush

/-! ## `FR.PUSH` -/

theorem setFramer_self (s : State) (i : Nat) (f : Framer) (hf : s.fr[i]? = some f) : s.setFramer i f = s := by
  obtain ⟨hi, rfl⟩ := List.getElem?_eq_some_iff.mp hf
  rw [State.setFramer, List.set_getElem_self]

/-- Settles O13: the framer is put back as it was. -/
theorem searchingFramerDiscardsOtherBytes : Obligations.SearchingFramerDiscardsOtherBytes := by
  intro s i f b hf hst hb
  rw [execFrPush_of_push i b s f f _ hf (framer_push_of_other hst hb), setFramer_self s i f hf]
  rfl

/-- Settles O14: the case of the push itself. -/
theorem startMarkerBeginsACandidate : Obligations.StartMarkerBeginsACandidate :=
  fun s i f b hf hst hb => execFrPush_of_push i b s f _ _ hf (framer_push_of_start hst hb)

/-- Settles O15: the framer stays accumulating. -/
theorem accumulatingFramerAppendsTheByte : Obligations.AccumulatingFramerAppendsTheByte := by
  intro s i f b hf hst hcnt
  rw [execFrPush_of_push i b s f _ _ hf (framer_push_of_below hst hcnt), hst]
  rfl

/-- Settles O17: the end marker is tested before `DEC` is asked. -/
theorem badEndDiscardsTheCandidate : Obligations.BadEndDiscardsTheCandidate :=
  fun s i f b hf hst hcnt hb => execFrPush_of_push i b s f _ _ hf (framer_push_of_badEnd hst hcnt hb)

theorem decEvent_injective : Function.Injective decEvent := by
  intro r r' h
  cases r with
  | ok f => cases r' with
    | ok f' => cases h; rfl
    | error e' => cases h
  | error e => cases r' with
    | ok f' => cases h
    | error e' => cases h; rfl

/-- The event of a `DEC` request tells what `decFrame` answered. -/
theorem decFrame_of_exec_dec (s : State) (w : List Byte) (r : Except FormatError ChannelFrame)
    (h : exec (.dec w) s = .next { s with out := decEvent r }) : decFrame s.cfg w = r :=
  decEvent_injective (congrArg State.out (Host.Outcome.next.inj h))

/-- Settles O16: `RXF` takes the frame that `DEC` answers. -/
theorem goodFrameIsWrittenToTheFrameRegisters : Obligations.GoodFrameIsWrittenToTheFrameRegisters :=
  fun s i f b fr hf hst hcnt hb hdec =>
    execFrPush_of_push i b s f _ _ hf (framer_push_of_frame fr hst hcnt hb (decFrame_of_exec_dec s _ (.ok fr) hdec))

/-- Settles O18: `RXF` is kept, and the event carries the error that `DEC` answers. -/
theorem decodeFailureDropsTheCandidate : Obligations.DecodeFailureDropsTheCandidate :=
  fun s i f b e hf hst hcnt hb hdec =>
    execFrPush_of_push i b s f _ _ hf
      (framer_push_of_decodeError e hst hcnt hb (decFrame_of_exec_dec s _ (.error e) hdec))

/-! ## No `DecodeFail` under the invariant (R137) -/

/-- The start marker at its head and an end marker after them make any 24 buffered bytes a decodable frame. -/
theorem decFrame_buffered (c : Config) (m : Memory) (b : Byte) (hstart : m.read 0 = c.startMark)
    (hb : b = c.endMark) : decFrame c (m.readN 0 24 ++ [b]) = .ok (unpackFrame c (m.readN 0 24 ++ [b])) := by
  refine decFrame_of_marked c _ (by simp) ?_ ?_
  · rw [byteAt_append_left _ _ _ (by simp), byteAt_readN m 0 24 0 (by decide), Nat.add_zero, hstart]
  · rw [byteAt_append_right _ _ _ (by simp), length_readN, hb]
    rfl

theorem framer_push_ne_decodeFail (c : Config) (f g : Framer) (b : Byte) (e : FormatError) (hf : f.wf c = true) :
    f.push c b ≠ some (g, .decodeFail e) := by
  obtain ⟨-, -, hstart, -⟩ := (framer_wf_iff c f).mp hf
  intro h
  rcases push_cases c f b with ⟨-, -, hp⟩ | ⟨-, -, hp⟩ | ⟨-, -, hp⟩ | ⟨-, -, -, hp⟩ | ⟨fr, -, -, -, -, hp⟩ |
    ⟨e', hst, -, hb, hd, -⟩ | ⟨-, -, hp⟩
  on_goal 6 => cases hd.symm.trans (decFrame_buffered c f.buf b (hstart hst) hb)
  all_goals cases hp.symm.trans h

/-- Settles O19: an accumulating framer that keeps the invariant has the start marker at the head of its buffer. -/
theorem decodeFailDoesNotHappen : Obligations.DecodeFailDoesNotHappen := by
  intro s t i b e hs h
  obtain ⟨f, g, ev, hf, hp, rfl⟩ := execFrPush_next i b s t h
  obtain ⟨-, -, hfr, -⟩ := (inv_iff s).mp hs
  rintro rfl
  exact framer_push_ne_decodeFail s.cfg f g b e (hfr f (List.mem_of_getElem? hf)) hp

end Sys2Proof.Machine
end

section
/-!
PROOFS. Streams of bytes to a framer (spec 41_stream_framer.md R141, R143): the run of `FR.STREAM` on one framer alone,
a candidate collected byte by byte, and the bytes of an encoded frame received after noise and before a bad candidate.
-/
namespace Sys2Proof.Machine

/-! ## A stream is the pushes of its bytes -/

/-- The bytes `w` pushed one after another to one framer, with their events; `none` if a push does not answer. -/
def Framer.pushAll (c : Config) (f : Framer) : List Byte → Option (Framer × List Event)
  | [] => some (f, [])
  | b :: w =>
    match f.push c b with
    | none => none
    | some (g, e) => (g.pushAll c w).map (fun r => (r.1, e :: r.2))

@[simp] theorem pushAll_nil (c : Config) (f : Framer) : f.pushAll c [] = some (f, []) := rfl

theorem pushAll_cons_iff {c : Config} {f h : Framer} {b : Byte} {w : List Byte} {es : List Event} :
    f.pushAll c (b :: w) = some (h, es) ↔
      ∃ g e es', f.push c b = some (g, e) ∧ g.pushAll c w = some (h, es') ∧ es = e :: es' := by
  rw [Framer.pushAll]
  cases f.push c b with
  | none => simp
  | some x =>
    constructor
    · intro hall
      obtain ⟨⟨h', es'⟩, hrest, heq⟩ := Option.map_eq_some_iff.mp hall
      cases heq
      exact ⟨x.1, x.2, es', rfl, hrest, rfl⟩
    · rintro ⟨g, e, es', ⟨⟩, hrest, rfl⟩
      exact congrArg (Option.map _) hrest

theorem pushAll_cons {c : Config} {f g h : Framer} {b : Byte} {w : List Byte} {e : Event} {es : List Event}
    (hpush : f.push c b = some (g, e)) (hrest : g.pushAll c w = some (h, es)) :
    f.pushAll c (b :: w) = some (h, e :: es) :=
  pushAll_cons_iff.mpr ⟨g, e, es, hpush, hrest, rfl⟩

theorem pushAll_append {c : Config} {f g h : Framer} {v w : List Byte} {es es' : List Event}
    (hv : f.pushAll c v = some (g, es)) (hw : g.pushAll c w = some (h, es')) :
    f.pushAll c (v ++ w) = some (h, es ++ es') := by
  induction v generalizing f es with
  | nil => cases hv; exact hw
  | cons b v ih =>
    obtain ⟨f', e, es1, hp, hrest, rfl⟩ := pushAll_cons_iff.mp hv
    exact pushAll_cons hp (ih hrest)

/-- `FR.STREAM` to an existing framer pushes its bytes to that framer and writes nothing else but the
last event (log 5). -/
theorem runSchedule_frStream {s : State} {i : Nat} {f g : Framer} {w : List Byte} {es : List Event}
    (hf : s.fr[i]? = some f) (hall : f.pushAll s.cfg w = some (g, es)) :
    runSchedule (frStream i w) s = some ((s.setFramer i g).emit (es.getLastD s.out), es) := by
  induction w generalizing s f es with
  | nil =>
    cases hall
    rw [setFramer_self s i _ hf]
    rfl
  | cons b w ih =>
    obtain ⟨f', e, es1, hp, hrest, rfl⟩ := pushAll_cons_iff.mp hall
    have hi : i < s.fr.length := (List.getElem?_eq_some_iff.mp hf).1
    have hnext := execFrPush_of_push i b s f f' e hf hp
    rw [frStream, List.map_cons, ← frStream, runSchedule_of_next _ _ _ _ hnext,
      ih (s := (s.setFramer i f').emit e) (f := f') (by simp [hi]) hrest, List.getLastD_cons, Option.map_some]
    simp only [State.setFramer, State.emit, List.set_set]

/-! ## Noise and candidates -/

theorem writeN_append (m : Memory) (a : Nat) (v w : List Byte) :
    m.writeN a (v ++ w) = (m.writeN a v).writeN (a + v.length) w := by
  induction v generalizing m a with
  | nil => rfl
  | cons x v ih =>
    rw [List.cons_append, Memory.writeN, ih, Memory.writeN, List.length_cons, Nat.add_assoc, Nat.add_comm 1]

/-- A searching framer passes over bytes other than `START` (R131). -/
theorem pushAll_noise {c : Config} {f : Framer} {w : List Byte} (hst : f.st = .searching)
    (hw : ∀ x ∈ w, x ≠ c.startMark) : f.pushAll c w = some (f, List.replicate w.length .none) := by
  induction w with
  | nil => rfl
  | cons b w ih =>
    obtain ⟨hb, hw⟩ := List.forall_mem_cons.mp hw
    exact pushAll_cons (framer_push_of_other hst hb) (ih hw)

/-- The framer in the middle of a candidate whose bytes so far are `w`, over the buffer and `RXF` of `f`. -/
def Framer.candidate (f : Framer) (w : List Byte) : Framer :=
  { f with st := .accumulating, cnt := BitVec.ofNat 5 w.length, buf := f.buf.writeN 0 w }

section candidate
variable {c : Config} {f : Framer} {b : Byte} {w : List Byte}

theorem toNat_cnt_candidate (h : w.length ≤ 24) : (f.candidate w).cnt.toNat = w.length := by
  rw [Framer.candidate, BitVec.toNat_ofNat]
  omega

theorem readN_candidate (hbuf : f.buf.wf = true) (h : w.length = 24) : (f.candidate w).buf.readN 0 24 = w := by
  rw [← h]
  exact readN_writeN w f.buf 0 hbuf

theorem framer_push_start_candidate (hst : f.st = .searching) :
    f.push c c.startMark = some (f.candidate [c.startMark], .none) :=
  framer_push_of_start hst rfl

theorem framer_push_candidate (h : w.length < 24) :
    (f.candidate w).push c b = some (f.candidate (w ++ [b]), .none) := by
  have hcnt := toNat_cnt_candidate (f := f) (Nat.le_of_lt h)
  rw [framer_push_of_below rfl (by omega), hcnt]
  simp [Framer.candidate, writeN_append, Memory.writeN, BitVec.ofNat_add]

/-- Up to its 24th byte a candidate takes any bytes (R133). -/
theorem pushAll_candidate (v : List Byte) (h : w.length + v.length ≤ 24) :
    (f.candidate w).pushAll c v = some (f.candidate (w ++ v), List.replicate v.length .none) := by
  induction v generalizing w with
  | nil => rw [List.append_nil]; rfl
  | cons b v ih =>
    rw [List.length_cons] at h
    have hrest := ih (w := w ++ [b]) (by rw [List.length_append, List.length_singleton]; omega)
    rw [List.append_assoc, List.singleton_append] at hrest
    exact pushAll_cons (framer_push_candidate (by omega)) hrest

/-- `START` and at most 23 bytes after it are a candidate in the making. -/
theorem pushAll_start (hst : f.st = .searching) (h : w.length ≤ 23) :
    f.pushAll c (c.startMark :: w) =
      some (f.candidate (c.startMark :: w), List.replicate (w.length + 1) .none) :=
  pushAll_cons (framer_push_start_candidate hst) (pushAll_candidate w (by rw [List.length_singleton]; omega))

theorem toNat_cnt_whole (h : w.length = 23) : (f.candidate (c.startMark :: w)).cnt.toNat = 24 := by
  have hlen : (c.startMark :: w).length = 24 := by rw [List.length_cons, h]
  rw [toNat_cnt_candidate hlen.le, hlen]

/-- `START` and 24 bytes after it: the last one decides (R134). -/
theorem pushAll_whole {g : Framer} {e : Event} (hst : f.st = .searching) (h : w.length = 23)
    (hlast : (f.candidate (c.startMark :: w)).push c b = some (g, e)) :
    f.pushAll c (c.startMark :: w ++ [b]) = some (g, List.replicate 24 .none ++ [e]) := by
  have hstart := pushAll_start (c := c) hst h.le
  rw [h] at hstart
  exact pushAll_append hstart (pushAll_cons hlast (pushAll_nil c g))

end candidate

/-! ## A whole frame -/

/-- Between its two markers a wire frame may hold any 23 bytes: one `Frame`, that of `DEC`, goes to `RXF` (R135). -/
theorem pushAll_marked {c : Config} {f : Framer} {w : List Byte} (hst : f.st = .searching) (hbuf : f.buf.wf = true)
    (h : w.length = 23) :
    let wire := c.startMark :: w ++ [c.endMark]
    ∃ g : Framer, f.pushAll c wire = some (g, List.replicate 24 .none ++ [.frame (unpackFrame c wire)]) ∧
      g.st = .searching ∧ g.cnt = 0 ∧ g.rxf = unpackFrame c wire := by
  intro wire
  have hlen : (c.startMark :: w).length = 24 := by rw [List.length_cons, h]
  have hdec : decFrame c ((f.candidate (c.startMark :: w)).buf.readN 0 24 ++ [c.endMark]) =
      .ok (unpackFrame c wire) := by
    rw [readN_candidate hbuf hlen]
    exact decFrame_of_marked c wire (by simp [wire, h]) rfl (by simp [wire, byteAt, h])
  exact ⟨_, pushAll_whole hst h (framer_push_of_frame _ rfl (toNat_cnt_whole h) rfl hdec), rfl, rfl, rfl⟩

/-- The bytes of an encoded frame pushed to a searching framer give one `Frame`, which is then in `RXF` (R143). -/
theorem pushAll_encFrame {c : Config} {f : Framer} (fr : ChannelFrame) (hst : f.st = .searching)
    (hbuf : f.buf.wf = true) :
    ∃ g : Framer, f.pushAll c (encFrame c fr) =
        some (g, List.replicate 24 .none ++ [.frame (withFlags c (flagsByte c fr) fr.ch)]) ∧
      g.st = .searching ∧ g.cnt = 0 ∧ g.rxf = withFlags c (flagsByte c fr) fr.ch := by
  have hwire : encFrame c fr = c.startMark :: (packChans fr ++ [flagsByte c fr]) ++ [c.endMark] := by
    simp [encFrame]
  rw [← unpackFrame_encFrame, hwire]
  exact pushAll_marked hst hbuf (by simp)

/-- Settles O21: an encoded frame is a well-marked wire frame, and the framer answers what `DEC` answers for it. -/
theorem framerReceivesEveryEncodedFrame : Obligations.FramerReceivesEveryEncodedFrame := by
  intro s i f fr hok hf hst hbuf
  obtain ⟨g, hall, hgst, hgcnt, hgrxf⟩ := pushAll_encFrame (c := s.cfg) fr hst hbuf
  refine ⟨_, g, _, runSchedule_frStream hf hall, rfl, hgst, hgcnt, hgrxf, rfl, rfl, rfl, ?_, rfl,
    withFlags_flagsByte s.cfg fr hok⟩
  rw [exec_dec_of_marked s _ (length_encFrame _ _) (encFrame_start _ _) (encFrame_end _ _), unpackFrame_encFrame]

/-! ## A bad candidate -/

/-- Fewer than 25 bytes pushed to a searching framer complete no candidate. -/
theorem pushAll_short {c : Config} {f : Framer} {w : List Byte} (hst : f.st = .searching) (h : w.length < 25) :
    ∃ g : Framer, f.pushAll c w = some (g, List.replicate w.length .none) := by
  induction w with
  | nil => exact ⟨f, rfl⟩
  | cons b w ih =>
    rw [List.length_cons] at h
    by_cases hb : b = c.startMark
    · subst hb
      exact ⟨_, pushAll_start hst (by omega)⟩
    · obtain ⟨g, hg⟩ := ih (by omega)
      exact ⟨g, pushAll_cons (framer_push_of_other hst hb) hg⟩

/-- 25 bytes that do not begin with `START` leave at most 24 for a candidate. -/
theorem pushAll_badStart {c : Config} {f : Framer} {w : List Byte} (hst : f.st = .searching) (hlen : w.length = 25)
    (hstart : w[0]? ≠ some c.startMark) : ∃ g : Framer, f.pushAll c w = some (g, List.replicate 25 .none) := by
  obtain ⟨b, v, rfl⟩ := List.exists_cons_of_length_eq_add_one hlen
  have hv : v.length = 24 := by simpa using hlen
  obtain ⟨g, hg⟩ := pushAll_short (c := c) hst (w := v) (by omega)
  rw [hv] at hg
  exact ⟨g, pushAll_cons (framer_push_of_other hst (by simpa using hstart)) hg⟩

/-- A candidate of 25 bytes with a start marker splits into that marker, 23 bytes, and a last byte. -/
theorem eq_start_append_last {w : List Byte} {a : Byte} (hlen : w.length = 25) (ha : w[0]? = some a) :
    ∃ v x, w = a :: v ++ [x] ∧ v.length = 23 ∧ w[24]? = some x := by
  obtain ⟨b, u, rfl⟩ := List.exists_cons_of_length_eq_add_one hlen
  cases ha
  have hu : u.length = 24 := by simpa using hlen
  obtain ⟨v, x, rfl⟩ := (List.eq_nil_or_concat' u).resolve_left (by rintro rfl; cases hu)
  have hv : v.length = 23 := by simpa using hu
  exact ⟨v, x, rfl, hv, by simp [hv]⟩

/-- A truncated candidate, or one with a corrupted marker, emits no frame. -/
theorem pushAll_badCandidate {c : Config} {f : Framer} {w : List Byte} (hst : f.st = .searching)
    (hw : w.length < 25 ∨ (w.length = 25 ∧ (w[0]? ≠ some c.startMark ∨ w[24]? ≠ some c.endMark))) :
    ∃ (g : Framer) (es : List Event), f.pushAll c w = some (g, es) ∧ es.filter Event.isFrame = [] := by
  have hnone : ∀ n, (List.replicate n Event.none).filter Event.isFrame = [] := fun n => by
    simp [Event.isFrame, Event.code]
  rcases hw with hshort | ⟨hlen, hmark⟩
  · obtain ⟨g, hg⟩ := pushAll_short (c := c) hst hshort
    exact ⟨g, _, hg, hnone _⟩
  · by_cases hstart : w[0]? = some c.startMark
    · obtain ⟨v, x, rfl, hv, hx⟩ := eq_start_append_last hlen hstart
      have hend : x ≠ c.endMark := fun h => hmark.elim (· hstart) (· (h ▸ hx))
      have hdrop := framer_push_of_badEnd rfl (toNat_cnt_whole (c := c) (f := f) hv) hend
      exact ⟨_, _, pushAll_whole hst hv hdrop, by rw [List.filter_append, hnone]; rfl⟩
    · obtain ⟨g, hg⟩ := pushAll_badStart hst hlen hstart
      exact ⟨g, _, hg, hnone 25⟩

/-! ## Resynchronisation (R141) -/

/-- Leaving out the events `None` loses no frame. -/
theorem filter_isFrame_reported (es : List Event) : (reported es).filter Event.isFrame = es.filter Event.isFrame := by
  rw [reported, List.filter_filter]
  refine List.filter_congr fun e _ => ?_
  by_cases h : e = .none
  · rw [h]; rfl
  · rw [decide_eq_true h, Bool.and_true]

/-- Settles O22: the noise and the bad candidate emit no frame, the encoded one emits its own. -/
theorem resynchronisationEmitsExactlyOneFrame : Obligations.ResynchronisationEmitsExactlyOneFrame := by
  intro s i f fr noise tail hok hf hst hbuf hnoise htail
  obtain ⟨g, hframe, hgst, -, -⟩ := pushAll_encFrame (c := s.cfg) fr hst hbuf
  obtain ⟨h, es, htail, hes⟩ := pushAll_badCandidate hgst htail
  have hall := pushAll_append (pushAll_append (pushAll_noise hst hnoise) hframe) htail
  refine ⟨_, _, withFlags s.cfg (flagsByte s.cfg fr) fr.ch,
    runStream_of_run _ _ _ _ (runSchedule_frStream hf hall), ?_, ?_, rfl, withFlags_flagsByte s.cfg fr hok⟩
  · exact fun e he => of_decide_eq_true (List.mem_filter.mp he).2
  · rw [filter_isFrame_reported, List.filter_append, hes]
    simp [Event.isFrame, Event.code]

end Sys2Proof.Machine
end

section
/-!
PROOFS. A single byte pushed to the telemetry parser (spec 42_telemetry_parser.md R152 to R168): what each state of R151
does with it, and that the CRC8 of R159 tells apart two blocks that differ in one byte (R163).
-/
namespace Sys2Proof.Machine

/-! ## The CRC8 tells apart blocks that differ in one byte (R163) -/

theorem crcBit_of_top {poly c : Byte} (h : c.getLsbD 7 = true) : crcBit poly c = (c <<< 1) ^^^ poly := if_pos h

theorem crcBit_of_noTop {poly c : Byte} (h : c.getLsbD 7 = false) : crcBit poly c = c <<< 1 :=
  if_neg (by simp only [h, Bool.false_eq_true, not_false_eq_true])

section crcInjective
variable {poly : Byte} (hpoly : poly.getLsbD 0 = true)
include hpoly

/-- With a constant term in the polynomial, the bit shifted out comes back as bit 0. -/
theorem getLsbD_zero_crcBit (c : Byte) : (crcBit poly c).getLsbD 0 = c.getLsbD 7 := by
  cases htop : c.getLsbD 7 with
  | true => rw [crcBit_of_top htop, BitVec.getLsbD_xor, hpoly]; simp
  | false => rw [crcBit_of_noTop htop]; simp

/-- A bit step loses nothing: bit 0 says whether the polynomial was added, and that undone the shift moved the rest. -/
theorem crcBit_injective : Function.Injective (crcBit poly) := by
  intro c d h
  have htop : c.getLsbD 7 = d.getLsbD 7 := by
    rw [← getLsbD_zero_crcBit hpoly, h, getLsbD_zero_crcBit hpoly]
  have hshift : c <<< 1 = d <<< 1 := by
    cases hd : d.getLsbD 7 with
    | true =>
      rw [crcBit_of_top (htop.trans hd), crcBit_of_top hd] at h
      exact (BitVec.xor_left_inj poly).mp h
    | false => rwa [crcBit_of_noTop (htop.trans hd), crcBit_of_noTop hd] at h
  refine BitVec.eq_of_getLsbD_eq fun i hi => ?_
  obtain rfl | hlt : i = 7 ∨ i < 7 := by omega
  · exact htop
  · have hmove (x : Byte) : (x <<< 1).getLsbD (i + 1) = x.getLsbD i := by
      have hsucc : i + 1 < 8 := by omega
      simp [hi, hsucc]
    rw [← hmove, hshift, hmove]

theorem crcBits_injective (n : Nat) : Function.Injective (crcBits poly n) := by
  induction n with
  | zero => exact fun c d h => h
  | succ n ih => exact fun c d h => crcBit_injective hpoly (ih h)

theorem crcByte_left_injective (x : Byte) : Function.Injective (fun c => crcByte poly c x) :=
  fun _ _ h => (BitVec.xor_left_inj x).mp (crcBits_injective hpoly 8 h)

theorem crcByte_right_injective (c : Byte) : Function.Injective (crcByte poly c) :=
  fun _ _ h => (BitVec.xor_right_inj c).mp (crcBits_injective hpoly 8 h)

/-- The register after a sequence determines the register before it. -/
theorem foldl_crcByte_injective (w : List Byte) : Function.Injective (fun c => w.foldl (crcByte poly) c) := by
  induction w with
  | nil => exact fun c d h => h
  | cons x w ih => exact fun c d h => crcByte_left_injective hpoly x (ih h)

/-- Another byte at one place of a sequence gives another register. -/
theorem foldl_crcByte_set_ne (w : List Byte) (a : Nat) (x y c : Byte) (hx : w[a]? = some x) (hxy : y ≠ x) :
    (w.set a y).foldl (crcByte poly) c ≠ w.foldl (crcByte poly) c := by
  induction w generalizing a c with
  | nil => cases hx
  | cons z w ih =>
    cases a with
    | zero =>
      cases hx
      exact fun h => hxy (crcByte_right_injective hpoly c (foldl_crcByte_injective hpoly w h))
    | succ a => exact ih a (crcByte poly c z) hx

end crcInjective

/-- One changed byte changes the CRC8. -/
theorem crc8_set_ne (c : Config) (hpoly : c.crcPoly.getLsbD 0 = true) (w : List Byte) (a : Nat) (x y : Byte)
    (hx : w[a]? = some x) (hxy : y ≠ x) : crc8 c (w.set a y) ≠ crc8 c w :=
  foldl_crcByte_set_ne hpoly w a x y c.crcInit hx hxy

/-- A flipped bit changes its byte. -/
theorem flipBit_ne (x : Byte) (m : Nat) (hm : m < 8) : x ^^^ ((1 : Byte) <<< m) ≠ x := by
  intro h
  have hbit := congrArg (fun y : Byte => y.getLsbD m) h
  simp [hm] at hbit

/-- A byte written inside the bytes read replaces the one at its place. -/
theorem readN_write_set (m : Memory) (a n : Nat) (v : Byte) (hm : m.wf = true) :
    (m.write a v).readN 0 n = (m.readN 0 n).set a v := by
  refine List.ext_getElem? fun k => ?_
  by_cases hk : k < n
  · rw [getElem?_readN _ _ _ _ hk, Nat.zero_add, read_write m a k v hm, List.getElem?_set, getElem?_readN _ _ _ _ hk,
      Nat.zero_add, length_readN]
    by_cases hak : a = k
    · simp [hak, hk]
    · simp [hak, Ne.symm hak]
  · simp [hk]

/-! ## A push that answers, by the states of R151 -/

theorem exec_tpPush_of_push {s : State} {b : Byte} {x : Parser.Pushed} (h : s.tp.push s.cfg b = some x) :
    exec (.tpPush b) s = .next (s.afterPush x) := by
  rw [exec_tpPush, h]; rfl

/-- A byte that is no address is skipped (R153). -/
theorem push_skipped (c : Config) (p : Parser) (b : Byte) (hst : p.st = .addr) (hb : b ∉ c.addrSet) :
    p.push c b = some ⟨p, .skipped b, none⟩ := by
  simp [Parser.push, hst, hb]

/-- A length byte out of range is rejected (R154). -/
theorem push_badLength (c : Config) (p : Parser) (b : Byte) (hst : p.st = .len) (hb : b = 0 ∨ tlmMaxLen < b.toNat) :
    p.push c b = some ⟨{ p with st := .addr }, .badLength b, none⟩ := by
  simp only [Parser.push, hst, if_pos hb]

/-- A length byte in range opens the block (R155). -/
theorem push_goodLength (c : Config) (p : Parser) (b : Byte) (hst : p.st = .len)
    (hb : ¬ (b = 0 ∨ tlmMaxLen < b.toNat)) :
    p.push c b = some ⟨{ p with len := b.setWidth 6, cnt := 0, st := .block }, .none, none⟩ := by
  simp only [Parser.push, hst, if_neg hb]

/-- Settles O25, by whether the byte is in `ADDR_SET`. -/
theorem addressBytesAreTakenOrSkipped : Obligations.AddressBytesAreTakenOrSkipped := by
  intro s b hst
  exact ⟨fun hb => exec_tpPush_of_push (push_address s.cfg s.tp b hst hb),
    fun hb => exec_tpPush_of_push (push_skipped s.cfg s.tp b hst hb)⟩

/-- Settles O26: in range, the low six bits of a length byte are its value. -/
theorem lengthBytesAreRejectedOrOpenTheBlock : Obligations.LengthBytesAreRejectedOrOpenTheBlock := by
  intro s b hst
  have hzero : b = 0 ↔ b.toNat = 0 := BitVec.toNat_inj.symm
  refine ⟨fun hb => ?_, fun hmin hmax => ?_⟩
  · exact exec_tpPush_of_push (push_badLength s.cfg s.tp b hst (by rwa [hzero]))
  · rw [BitVec.ofNat_toNat]
    exact exec_tpPush_of_push (push_goodLength s.cfg s.tp b hst (by rw [hzero, tlmMaxLen]; omega))

/-- Settles O27: `TP_CNT + 1 < TP_LEN` on six bits keeps the store inside `TP_BUF`. -/
theorem blockBytesAreCollected : Obligations.BlockBytesAreCollected := by
  intro s b hst hlt
  have hlen := s.tp.len.isLt
  have hinside : ¬ tpBufSize ≤ s.tp.cnt.toNat := by simp only [tpBufSize, tlmMaxLen]; omega
  have hpush : s.tp.push s.cfg b = some ⟨{ s.tp.stored b with cnt := s.tp.cnt + 1 }, .none, none⟩ := by
    simp only [Parser.push, hst, if_neg hinside, if_pos hlt]
  rw [exec_tpPush_of_push hpush, parser_stored_block s.tp b hst]
  rfl

/-! ## The last byte of a block (R157, R158) -/

/-- The parser after the last byte of a block, register by register. -/
theorem closed_of_block (p : Parser) (b : Byte) (hst : p.st = .block) :
    p.closed b = { p with buf := p.buf.write p.cnt.toNat b, cnt := 0, st := .addr } := by
  rw [Parser.closed, parser_stored_block p b hst]

/-- The last byte of a block that is accepted as no record closes the parser and gives the event of its verdict. -/
theorem exec_tpPush_of_noRecord {s : State} {b : Byte} {e : Event} (hst : s.tp.st = .block)
    (hlast : s.tp.cnt.toNat + 1 = s.tp.len.toNat) (hlen : s.tp.len.toNat ≤ 62)
    (hv : blockVerdict s.cfg s.tp.body b = (e, none)) :
    exec (.tpPush b) s = .next
      { s with tp := { s.tp with buf := s.tp.buf.write s.tp.cnt.toNat b, cnt := 0, st := .addr }, out := e } := by
  rw [exec_tpPush_of_push (push_of_last s.cfg s.tp b hst hlen hlast), hv, closed_of_block s.tp b hst]
  rfl

/-- The block bytes before the last are the type tag and the payload (R150). -/
theorem body_eq_tag_payload (p : Parser) (n : Nat) (h : p.len.toNat = n + 2) :
    p.body = p.buf.read 0 :: p.buf.readN 1 n := by
  rw [Parser.body, h]
  exact readN_succ p.buf 0 n

theorem blockVerdict_badCrc (c : Config) (body : List Byte) (got : Byte) (h : got ≠ crc8 c body) :
    blockVerdict c body got = (.invalidCrc8 got (crc8 c body), none) := by
  unfold blockVerdict
  exact if_pos h

theorem blockVerdict_empty (c : Config) : blockVerdict c [] (crc8 c []) = (.ignored none, none) := by
  simp [blockVerdict]

theorem blockVerdict_unrecognised (c : Config) (tag : Byte) (d : List Byte) (h : ∀ k, c.tagOf k ≠ tag) :
    blockVerdict c (tag :: d) (crc8 c (tag :: d)) = (.ignored (some tag), none) := by
  have hkind : kindOf c tag = none := Option.eq_none_iff_forall_ne_some.mpr
    fun k hk => h k (tagOf_of_kindOf c tag k hk)
  simp [blockVerdict, hkind]

theorem blockVerdict_wrongLength (c : Config) (k : Kind) (d : List Byte) (hok : c.ok = true)
    (hd : d.length ≠ c.lenOf k) :
    blockVerdict c (c.tagOf k :: d) (crc8 c (c.tagOf k :: d)) = (.frameLength k d.length, none) := by
  simp [blockVerdict, kindOf_tagOf c hok k, hd]

/-- Settles O28: the CRC8 is compared before the tag is read. -/
theorem badCrcIsRejected : Obligations.BadCrcIsRejected := by
  intro s b hst hlast hlen hcrc
  exact exec_tpPush_of_noRecord hst hlast hlen (blockVerdict_badCrc s.cfg s.tp.body b hcrc)

/-- Settles O29: the body is empty, so the byte is compared with `crc8([])`, the start value. -/
theorem blockOfLengthOneChangesNoSlot : Obligations.BlockOfLengthOneChangesNoSlot := by
  intro s b hinit hst hcnt hlen
  have hbody : s.tp.body = [] := by rw [Parser.body, hlen]; rfl
  have hcrc : crc8 s.cfg [] = 0x00 := hinit
  have hverdict : blockVerdict s.cfg s.tp.body b =
      (if b = 0x00 then .ignored none else .invalidCrc8 b 0x00, none) := by
    rw [hbody]
    split
    · next hb => rw [hb, ← hcrc, blockVerdict_empty]
    · next hb => rw [blockVerdict_badCrc s.cfg [] b (hcrc ▸ hb), hcrc]
  have hexec := exec_tpPush_of_noRecord hst (by rw [hcnt, hlen]; rfl) (by rw [hlen]; decide) hverdict
  rwa [hcnt] at hexec

/-- Settles O30: no kind answers to the tag, and the payload length is not read. -/
theorem unrecognisedTagIsIgnored : Obligations.UnrecognisedTagIsIgnored := by
  intro s b hst hlast hmin hmax hcrc htag
  have hbody := body_eq_tag_payload s.tp (s.tp.len.toNat - 2) (by omega)
  refine exec_tpPush_of_noRecord hst hlast hmax ?_
  rw [hcrc, ← Parser.body, hbody, blockVerdict_unrecognised s.cfg _ _ htag]

/-- Settles O31: in a legal configuration the tag is that of kind `K` alone. -/
theorem wrongPayloadLengthIsRejected : Obligations.WrongPayloadLengthIsRejected := by
  intro s b k hok hst hlast hmin hmax hcrc htag hne
  have hbody := body_eq_tag_payload s.tp (s.tp.len.toNat - 2) (by omega)
  refine exec_tpPush_of_noRecord hst hlast hmax ?_
  rw [hcrc, ← Parser.body, hbody, ← htag, blockVerdict_wrongLength s.cfg k _ hok (by rwa [length_readN]),
    length_readN]

/-- Settles O32: the verdict on the block is the record of kind `K`, which is what the decoder `TR.K` writes. -/
theorem acceptedRecordIsWrittenToItsSlot : Obligations.AcceptedRecordIsWrittenToItsSlot := by
  intro s b k hok hst hlast hmax hcrc htag hlen closed p
  have hp : p.length = s.cfg.lenOf k := length_readN _ _ _
  have hverdict : blockVerdict s.cfg s.tp.body b = (.record k, some (k, p)) := by
    rw [hcrc, ← Parser.body, body_eq_tag_payload s.tp _ hlen, ← htag, blockVerdict_record s.cfg k p hok hp]
  have hexec : exec (.tpPush b) s = .next (State.emit { closed with ts := s.ts.put k ⟨true, p⟩ } (.record k)) := by
    rw [exec_tpPush_of_push (push_of_last s.cfg s.tp b hst hmax hlast), hverdict, closed_of_block s.tp b hst]
    rfl
  have hrecord : exec (Instr.ofRecord k p) closed =
      .next (State.emit { closed with ts := s.ts.put k ⟨true, p⟩ } (.record k)) := by
    rw [exec_ofRecord, recordInto, if_pos hp, done_eq]
  exact ⟨hexec.trans hrecord.symm, _, hexec, get_put_same s.ts k _, fun j hj => get_put_other s.ts k j _ hj, rfl⟩

/-- Settles O35: the flipped byte changes the CRC8 that the last byte is compared with. -/
theorem everySingleBitFlipIsRejected : Obligations.EverySingleBitFlipIsRejected := by
  intro s b a m hpoly hbuf hst hlast hmax hcrc ha hm flipped
  have hread : (s.tp.buf.readN 0 (s.tp.len.toNat - 1))[a]? = some (s.tp.buf.read a) := by
    rw [getElem?_readN _ _ _ _ (by omega), Nat.zero_add]
  have hwant : crc8 s.cfg (flipped.tp.buf.readN 0 (s.tp.len.toNat - 1)) ≠ b := by
    rw [hcrc, readN_write_set s.tp.buf a _ _ hbuf]
    exact crc8_set_ne s.cfg hpoly _ a _ _ hread (flipBit_ne _ m hm)
  exact ⟨_, _, badCrcIsRejected flipped b hst hlast hmax hwant.symm, hwant, rfl, rfl⟩

/-! ## The check values of R159 -/

/-- Settles O36: each sequence runs through the eight bit steps of each of its bytes. -/
theorem crcGivesTheCheckValues : Obligations.CrcGivesTheCheckValues := by
  simp [Obligations.CrcGivesTheCheckValues, crc8, crcByte, crcBits, crcBit, Config.reference]

end Sys2Proof.Machine
end

section
/-!
PROOFS. The record decoders and the typed views of their slots (spec 43_telemetry_records.md R180, R181, R193, R198):
what a decoder of a payload of its length answers, the channels window over the packed bytes of a wire frame, the signed
big-endian fields, and the table of TX powers.
-/
namespace Sys2Proof.Machine

/-! ## Channels (R181) -/

/-- Bytes 1..22 of an encoded frame are its packed channels (R81). -/
theorem take_drop_encFrame (c : Config) (f : ChannelFrame) : ((encFrame c f).drop 1).take 22 = packChans f :=
  List.take_left' (length_packChans f)

/-- Bit `j` of window `n` of a bitstream that starts at byte 0 (R63, R82). -/
theorem getLsbD_unpackChan (p : List Byte) (n j : Nat) (hj : j < 11) :
    (unpackChan p n).getLsbD j = streamBit p (11 * n + j) := by
  rw [unpackChan, getLsbD_bitsLE, decide_eq_true hj, Bool.true_and]

/-- Window `n` of the packed channels is channel `n`. -/
theorem unpackChan_packChans (f : ChannelFrame) (n : Nat) (hn : n < 16) : unpackChan (packChans f) n = f.chan n := by
  refine BitVec.eq_of_getLsbD_eq fun j hj => ?_
  rw [getLsbD_unpackChan _ n j hj, streamBit_packChans f _ (by omega), show (11 * n + j) / 11 = n by omega,
    show (11 * n + j) % 11 = j by omega]

theorem chanView_getElem (p : List Byte) (n : Nat) (hn : n < 16) : (chanView p)[n] = unpackChan p n :=
  vec16_getElem _ n hn

theorem chanView_packChans (f : ChannelFrame) : chanView (packChans f) = f.ch :=
  Vector.ext fun n hn => by rw [chanView_getElem _ n hn, unpackChan_packChans f n hn, chan_eq_getElem f n hn]

/-- Settles O42: the view reads the bitstream that `packChans` writes. -/
theorem channelsRecordIsPackedLikeTheWireFrame : Obligations.ChannelsRecordIsPackedLikeTheWireFrame := by
  refine ⟨fun c f => ?_, fun p n j hn hj => ?_⟩
  · rw [take_drop_encFrame, chanView_packChans]
  · rw [chanView_getElem p n hn, getLsbD_unpackChan p n j hj, streamBit]

/-! ## The record decoders (R180) -/

theorem exec_ofRecord_of_fits (s : State) (k : Kind) (p : List Byte) (h : p.length = s.cfg.lenOf k) :
    exec (Instr.ofRecord k p) s = .next { s with ts := s.ts.put k ⟨true, p⟩, out := .record k } := by
  rw [exec_ofRecord, recordInto, if_pos h]
  rfl

/-- Settles O39: the ten decoders are `Instr.ofRecord` at the ten kinds. -/
theorem recordDecodersWriteTheirOwnSlot : Obligations.RecordDecodersWriteTheirOwnSlot := by
  intro s p
  have writes := fun k => exec_ofRecord_of_fits s k p
  exact ⟨writes .chan, writes .gps, writes .vario, writes .batt, writes .baro, writes .link, writes .lrx, writes .ltx,
    writes .att, writes .fmode⟩

/-! ## Attitude (R198) -/

/-- A signed big-endian pair (R89): the first byte counts 256-fold, and its top bit takes 65536 off. -/
theorem toInt_append_bytes (hi lo : Byte) : (hi ++ lo).toInt =
    if 128 ≤ hi.toNat then (hi.toNat * 256 + lo.toNat : Int) - 65536 else (hi.toNat * 256 + lo.toNat : Int) := by
  have hlo : lo.toNat < 2 ^ 8 := lo.isLt
  have hval : (hi ++ lo).toNat = hi.toNat * 256 + lo.toNat := by
    rw [BitVec.toNat_append, ← Nat.shiftLeft_add_eq_or_of_lt hlo, Nat.shiftLeft_eq]
  rw [BitVec.toInt_eq_toNat_cond, hval]
  split <;> split <;> omega

/-- Settles O40: each field is the pair of bytes at its index. -/
theorem attitudeFieldsAreSignedBigEndian : Obligations.AttitudeFieldsAreSignedBigEndian := by
  intro b0 b1 b2 b3 b4 b5
  have hfields : attView [b0, b1, b2, b3, b4, b5] = ⟨(b0 ++ b1).toInt, (b2 ++ b3).toInt, (b4 ++ b5).toInt⟩ := rfl
  rw [hfields, toInt_append_bytes b0 b1, toInt_append_bytes b2 b3, toInt_append_bytes b4 b5]

/-! ## TX power (R193) -/

theorem txPowerMw_eq_none_iff (n : Nat) : txPowerMw n = none ↔ 7 < n :=
  List.getElem?_eq_none_iff

/-- Settles O41: the table has eight entries, and the link decoder tests nothing of a payload but its length. -/
theorem txPowerIsTheTableOrNoValue : Obligations.TxPowerIsTheTableOrNoValue :=
  ⟨rfl, rfl, rfl, rfl, rfl, rfl, rfl, rfl, fun n => (txPowerMw_eq_none_iff n).mpr,
    fun s p h => ⟨_, exec_ofRecord_of_fits s .link p h, rfl⟩⟩

end Sys2Proof.Machine
end

section
/-!
PROOFS. The ESC machine (spec 44_esc_state_machine.md R213 to R236): the selected gear; what each mode computes in each
pedal class (R214), with the drive value inside the legal range so that the clamp of R233 changes nothing; the ticks of
each mode as whole next states; and how `Reverse` is entered, over every step.
-/
namespace Sys2Proof.Machine

/-! ## The selected gear (R213) -/

theorem selectGear_of_first (tw : BitVec 28) (k : Nat) (hk : k < 7) (hact : tw.getLsbD k = true)
    (hbelow : ∀ j, j < k → tw.getLsbD j = false) : selectGear tw = k := by
  have hfind : (List.range 7).find? (gearButton tw) = some k :=
    List.find?_range_eq_some.mpr ⟨hact, List.mem_range.mpr hk, fun j hj => by simp [gearButton, hbelow j hj]⟩
  rw [selectGear, hfind]

theorem selectGear_of_none (tw : BitVec 28) (hnone : ∀ j, j < 7 → tw.getLsbD j = false) :
    selectGear tw = if tw.getLsbD 7 then -1 else 0 := by
  have hfind : (List.range 7).find? (gearButton tw) = none :=
    List.find?_range_eq_none.mpr fun j hj => by simp [gearButton, hnone j hj]
  rw [selectGear, hfind, revButton]

/-- A gear other than neutral is reverse or a forward gear. -/
theorem selectGear_cases (tw : BitVec 28) (h : selectGear tw ≠ 0) : selectGear tw = -1 ∨ 1 ≤ selectGear tw := by
  obtain ⟨hlo, -⟩ := selectGear_range tw
  omega

theorem tickGear_gearAware (c : Config) (old : BitVec 4) (tw : BitVec 28) (hm : c.gearMode = true) :
    tickGear c old tw = BitVec.ofInt 4 (selectGear tw) :=
  if_pos hm

theorem tickGear_gearless (c : Config) (old : BitVec 4) (tw : BitVec 28) (hm : c.gearMode = false) :
    tickGear c old tw = old :=
  if_neg (Bool.eq_false_iff.mp hm)

/-- In gear -1 the 4-bit register holds the two's complement of 1. -/
theorem tickGear_reverse (c : Config) (old : BitVec 4) (tw : BitVec 28) (hm : c.gearMode = true)
    (hgear : selectGear tw = -1) : tickGear c old tw = -1 := by
  rw [tickGear_gearAware c old tw hm, hgear]
  rfl

/-! ## The pedal classes (R214) -/

section pedals
variable {c : Config} {ph : Phase} {g b gear : Nat}

theorem classify_of_idle (hg : g ≤ c.noiseThr) (hb : b ≤ c.noiseThr) : classify c g b = .idle := if_pos ⟨hg, hb⟩

theorem classify_of_brake (hb : c.noiseThr < b) (hgb : g ≤ b) : classify c g b = .brake := by
  rw [classify, if_neg (by omega), if_neg (by omega)]

/-! ## What each mode computes in each class -/

theorem gearlessTick_of_idle (h : classify c g b = .idle) : gearlessTick c g b = (.forward, midI) := by
  rw [gearlessTick, h]

theorem gearlessTick_of_throttle (h : classify c g b = .throttle) :
    gearlessTick c g b = (.forward, midI + scaleUp c g gearMax) := by
  rw [gearlessTick, h]

theorem gearlessTick_of_brake (h : classify c g b = .brake) : gearlessTick c g b = (.brake, midI - scaleDown c b) := by
  rw [gearlessTick, h]

theorem reverseGearTick_of_idle_forward (h : classify c g b = .idle) (hph : ph = .forward) :
    reverseGearTick c ph g b = (.forward, midI) := by
  simp only [reverseGearTick, h, hph]

theorem reverseGearTick_of_idle_other (h : classify c g b = .idle) (hph : ph ≠ .forward) :
    reverseGearTick c ph g b = (.forward, midI + c.nudge) := by
  cases ph with
  | forward => exact absurd rfl hph
  | brake => simp only [reverseGearTick, h]
  | reverse => simp only [reverseGearTick, h]

theorem reverseGearTick_of_throttle_forward (h : classify c g b = .throttle) (hph : ph = .forward) :
    reverseGearTick c ph g b = (.brake, (c.brakePulse : Int)) := by
  simp only [reverseGearTick, h, hph]

theorem reverseGearTick_of_throttle_brake (h : classify c g b = .throttle) (hph : ph = .brake) :
    reverseGearTick c ph g b = (.reverse, midI) := by
  simp only [reverseGearTick, h, hph]

theorem reverseGearTick_of_throttle_reverse (h : classify c g b = .throttle) (hph : ph = .reverse) :
    reverseGearTick c ph g b = (.reverse, midI - scaleDown c g) := by
  simp only [reverseGearTick, h, hph]

theorem reverseGearTick_of_brake (h : classify c g b = .brake) :
    reverseGearTick c ph g b = (.brake, midI + scaleUp c b gearMax) := by
  simp only [reverseGearTick, h]

theorem forwardGearTick_of_idle (h : classify c g b = .idle) :
    forwardGearTick c ph gear g b = (.forward, if ph = .forward then midI else midI + c.nudge) := by
  rw [forwardGearTick, h]

theorem forwardGearTick_of_throttle (h : classify c g b = .throttle) :
    forwardGearTick c ph gear g b = (.forward, midI + scaleUp c g gear) := by
  rw [forwardGearTick, h]

theorem forwardGearTick_of_brake (h : classify c g b = .brake) :
    forwardGearTick c ph gear g b =
      (if midI - scaleDown c b < midI - c.hyst then .brake else ph, midI - scaleDown c b) := by
  rw [forwardGearTick, h]

end pedals

/-! ## The mode of a tick (R216) -/

section mode
variable (c : Config) (ph : Phase) (tw : BitVec 28)

theorem tickTarget_of_gearless (hm : c.gearMode = false) :
    tickTarget c ph tw = gearlessTick c (gasAmount c tw) (brakeAmount c tw) :=
  if_neg (Bool.eq_false_iff.mp hm)

theorem tickTarget_of_neutral (hm : c.gearMode = true) (hgear : selectGear tw = 0) : tickTarget c ph tw = (ph, midI) := by
  rw [tickTarget, if_pos hm, gearAwareTick, if_pos hgear]

theorem tickTarget_of_reverseGear (hm : c.gearMode = true) (hgear : selectGear tw = -1) :
    tickTarget c ph tw = reverseGearTick c ph (gasAmount c tw) (brakeAmount c tw) := by
  rw [tickTarget, if_pos hm, gearAwareTick, if_neg (by omega), if_pos hgear]

theorem tickTarget_of_forwardGear (hm : c.gearMode = true) (hgear : 1 ≤ selectGear tw) :
    tickTarget c ph tw = forwardGearTick c ph (selectGear tw).toNat (gasAmount c tw) (brakeAmount c tw) := by
  rw [tickTarget, if_pos hm, gearAwareTick, if_neg (by omega), if_neg (by omega)]

/-- Every tick is gear-less, or in neutral, gear -1 or a forward gear. -/
theorem tick_mode_cases :
    c.gearMode = false ∨ (c.gearMode = true ∧ selectGear tw = 0) ∨ (c.gearMode = true ∧ selectGear tw = -1) ∨
      (c.gearMode = true ∧ 1 ≤ selectGear tw) := by
  cases hm : c.gearMode with
  | false => exact .inl rfl
  | true =>
    by_cases hgear : selectGear tw = 0
    · exact .inr (.inl ⟨rfl, hgear⟩)
    · rcases selectGear_cases tw hgear with hrev | hfwd
      · exact .inr (.inr (.inl ⟨rfl, hrev⟩))
      · exact .inr (.inr (.inr ⟨rfl, hfwd⟩))

/-- At rest in any gear but neutral, from `Forward` (R218, R219). -/
theorem tickTarget_of_idle_forward (hm : c.gearMode = true) (hgear : selectGear tw ≠ 0) (hph : ph = .forward)
    (h : classify c (gasAmount c tw) (brakeAmount c tw) = .idle) : tickTarget c ph tw = (.forward, midI) := by
  rcases selectGear_cases tw hgear with hrev | hfwd
  · rw [tickTarget_of_reverseGear c _ tw hm hrev, reverseGearTick_of_idle_forward h hph]
  · rw [tickTarget_of_forwardGear c _ tw hm hfwd, forwardGearTick_of_idle h, if_pos hph]

/-- At rest in any gear but neutral, from another phase: the nudge (R219). -/
theorem tickTarget_of_idle_other (hm : c.gearMode = true) (hgear : selectGear tw ≠ 0) (hph : ph ≠ .forward)
    (h : classify c (gasAmount c tw) (brakeAmount c tw) = .idle) :
    tickTarget c ph tw = (.forward, midI + c.nudge) := by
  rcases selectGear_cases tw hgear with hrev | hfwd
  · rw [tickTarget_of_reverseGear c _ tw hm hrev, reverseGearTick_of_idle_other h hph]
  · rw [tickTarget_of_forwardGear c _ tw hm hfwd, forwardGearTick_of_idle h, if_neg hph]

end mode

/-! ## The drive value before the clamp (R233) -/

/-- A drive value that the clamp of R233 leaves as it is. -/
structure LegalDrive (d : Int) : Prop where
  chMin_le : (chMin : Int) ≤ d
  le_chMax : d ≤ chMax

theorem midI_legal : LegalDrive midI := by constructor <;> decide

theorem midI_add_legal (n : Nat) (h : n ≤ chMax - chMid) : LegalDrive (midI + n) := by
  constructor <;> simp only [midI, chMin, chMid, chMax] at * <;> omega

theorem midI_sub_legal (n : Nat) (h : n ≤ chMid - chMin) : LegalDrive (midI - n) := by
  constructor <;> simp only [midI, chMin, chMid, chMax] at * <;> omega

theorem midI_add_scaleUp_legal (c : Config) (a gear : Nat) (ha : a ≤ c.amtMax) (hgear : gear ≤ gearMax) :
    LegalDrive (midI + scaleUp c a gear) :=
  midI_add_legal _ (scaleUp_le c a gear ha hgear)

theorem midI_sub_scaleDown_legal (c : Config) (a : Nat) (ha : a ≤ c.amtMax) : LegalDrive (midI - scaleDown c a) :=
  midI_sub_legal _ (scaleDown_le c a ha)

theorem midI_add_nudge_legal (c : Config) (hok : c.ok = true) : LegalDrive (midI + c.nudge) := by
  obtain ⟨-, -, -, -, -, hnudge, -⟩ := ok_bounds c hok
  exact midI_add_legal _ hnudge

theorem brakePulse_legal (c : Config) (hok : c.ok = true) : LegalDrive (c.brakePulse : Int) := by
  obtain ⟨-, -, hlo, hhi, -⟩ := ok_bounds c hok
  constructor <;> simp only [chMin, chMid, chMax] at * <;> omega

section legal
variable (c : Config) (ph : Phase) (g b : Nat) (hg : g ≤ c.amtMax) (hb : b ≤ c.amtMax)
include hg hb

theorem gearlessTick_legal : LegalDrive (gearlessTick c g b).2 := by
  cases h : classify c g b with
  | idle => rw [gearlessTick_of_idle h]; exact midI_legal
  | throttle => rw [gearlessTick_of_throttle h]; exact midI_add_scaleUp_legal c g gearMax hg le_rfl
  | brake => rw [gearlessTick_of_brake h]; exact midI_sub_scaleDown_legal c b hb

theorem reverseGearTick_legal (hok : c.ok = true) : LegalDrive (reverseGearTick c ph g b).2 := by
  cases h : classify c g b with
  | idle =>
    by_cases hph : ph = .forward
    · rw [reverseGearTick_of_idle_forward h hph]; exact midI_legal
    · rw [reverseGearTick_of_idle_other h hph]; exact midI_add_nudge_legal c hok
  | throttle =>
    cases ph with
    | forward => rw [reverseGearTick_of_throttle_forward h rfl]; exact brakePulse_legal c hok
    | brake => rw [reverseGearTick_of_throttle_brake h rfl]; exact midI_legal
    | reverse => rw [reverseGearTick_of_throttle_reverse h rfl]; exact midI_sub_scaleDown_legal c g hg
  | brake => rw [reverseGearTick_of_brake h]; exact midI_add_scaleUp_legal c b gearMax hb le_rfl

theorem forwardGearTick_legal (gear : Nat) (hgear : gear ≤ gearMax) (hok : c.ok = true) :
    LegalDrive (forwardGearTick c ph gear g b).2 := by
  cases h : classify c g b with
  | idle =>
    rw [forwardGearTick_of_idle h]
    by_cases hph : ph = .forward
    · simpa only [if_pos hph] using midI_legal
    · simpa only [if_neg hph] using midI_add_nudge_legal c hok
  | throttle => rw [forwardGearTick_of_throttle h]; exact midI_add_scaleUp_legal c g gear hg hgear
  | brake => rw [forwardGearTick_of_brake h]; exact midI_sub_scaleDown_legal c b hb

end legal

/-- In a legal configuration the value the rules compute is inside 172..1811, in every mode and phase. -/
theorem tickTarget_legal (c : Config) (ph : Phase) (tw : BitVec 28) (hok : c.ok = true) :
    LegalDrive (tickTarget c ph tw).2 := by
  have hg := gasAmount_le c tw
  have hb := brakeAmount_le c tw
  obtain ⟨-, hmax⟩ := selectGear_range tw
  rcases tick_mode_cases c tw with hm | ⟨hm, hgear⟩ | ⟨hm, hgear⟩ | ⟨hm, hgear⟩
  · rw [tickTarget_of_gearless c ph tw hm]; exact gearlessTick_legal c _ _ hg hb
  · rw [tickTarget_of_neutral c ph tw hm hgear]; exact midI_legal
  · rw [tickTarget_of_reverseGear c ph tw hm hgear]; exact reverseGearTick_legal c ph _ _ hg hb hok
  · rw [tickTarget_of_forwardGear c ph tw hm hgear]
    exact forwardGearTick_legal c ph _ _ hg hb _ (by simp only [gearMax]; omega) hok

/-! ## A tick as a whole next state -/

theorem clampDrive_of_legal (d : Int) (h : LegalDrive d) : clampDrive d = BitVec.ofNat 11 d.toNat := by
  obtain ⟨hlo, hhi⟩ := h
  rw [clampDrive, min_eq_left hhi, max_eq_right hlo]

theorem prioFlag_eq_true_iff (old new : Phase) : prioFlag old new = true ↔ new ≠ old := decide_eq_true_iff

theorem prioFlag_eq_decide (old new : Phase) : prioFlag old new = decide (old ≠ new) :=
  Bool.eq_iff_iff.mpr <| by rw [prioFlag_eq_true_iff, decide_eq_true_iff, ne_comm]

theorem toNat_midI : midI.toNat = 992 := rfl

theorem toNat_midI_add (n : Nat) : (midI + n).toNat = 992 + n := by
  simp only [midI, chMid]; omega

theorem toNat_midI_sub (n : Nat) : (midI - n).toNat = 992 - n := by
  simp only [midI, chMid]; omega

/-- A tick through its target: the drive register takes the computed value unclamped, `ESC_PRIO` says whether the phase
changed, and nothing but the ESC registers is written (R232, R233). -/
theorem exec_escTick_of_target {s : State} {tw : BitVec 28} {ph : Phase} {d : Int} {n : Nat} {gear : BitVec 4}
    {prio : Bool} (hok : s.cfg.ok = true) (htarget : tickTarget s.cfg s.esc.phase tw = (ph, d)) (hd : d.toNat = n)
    (hgear : tickGear s.cfg s.esc.gear tw = gear) (hprio : decide (s.esc.phase ≠ ph) = prio) :
    exec (.escTick tw) s =
      .next { s with esc := ⟨ph, gear, BitVec.ofNat 11 n, prio⟩, out := .tick (BitVec.ofNat 11 n) prio } := by
  have hlegal : LegalDrive d := by simpa only [htarget] using tickTarget_legal s.cfg s.esc.phase tw hok
  have htick : s.esc.tick s.cfg tw = ⟨ph, gear, BitVec.ofNat 11 n, prio⟩ := by
    rw [Esc.tick, htarget, hgear, clampDrive_of_legal d hlegal, hd, prioFlag_eq_decide, hprio]
  rw [exec_escTick, htick]
  rfl

/-! ## The obligations on a single tick -/

/-- Settles O43: the search of R213 stops at the first active button, and the tick writes what it found. -/
theorem gearIsTheFirstActiveButton : Obligations.GearIsTheFirstActiveButton :=
  ⟨selectGear_of_first, selectGear_of_none,
    fun s tw hm => ⟨_, exec_escTick tw s, tickGear_gearAware s.cfg s.esc.gear tw hm⟩⟩

/-- Settles O44: neutral ignores the pedals, and at rest reverse and the forward gears agree. -/
theorem neutralAndIdleTicks : Obligations.NeutralAndIdleTicks := by
  intro s tw hok hm G B gear
  have hgear := tickGear_gearAware s.cfg s.esc.gear tw hm
  refine ⟨fun hneutral => ?_, fun hne hG hB => ⟨fun hph => ?_, fun hph => ?_⟩⟩
  · exact exec_escTick_of_target hok (tickTarget_of_neutral s.cfg _ tw hm hneutral) toNat_midI hgear (by simp)
  · have htarget := tickTarget_of_idle_forward s.cfg _ tw hm hne hph (classify_of_idle hG hB)
    exact exec_escTick_of_target hok htarget toNat_midI hgear (by simp [hph])
  · have htarget := tickTarget_of_idle_other s.cfg _ tw hm hne hph (classify_of_idle hG hB)
    exact exec_escTick_of_target hok htarget (toNat_midI_add _) hgear (by simp [hph])

/-- Settles O45: under throttle the phase decides between pulse, midpoint and inverted throttle; under brake it does
not matter. -/
theorem reverseGearTicks : Obligations.ReverseGearTicks := by
  intro s tw hok hm hrev G B habove pulse back braking
  have hgear := tickGear_reverse s.cfg s.esc.gear tw hm hrev
  have htarget := tickTarget_of_reverseGear s.cfg s.esc.phase tw hm hrev
  refine ⟨fun hBG => ?_, fun hGB => ?_⟩
  · have hclass : classify s.cfg G B = .throttle := classify_of_throttle s.cfg G B (by omega) hBG
    refine ⟨fun hph => ?_, fun hph => ?_, fun hph => ?_⟩
    · exact exec_escTick_of_target hok (htarget.trans (reverseGearTick_of_throttle_forward hclass hph))
        (Int.toNat_natCast _) hgear (by simp [hph])
    · exact exec_escTick_of_target hok (htarget.trans (reverseGearTick_of_throttle_brake hclass hph))
        toNat_midI hgear (by simp [hph])
    · exact exec_escTick_of_target hok (htarget.trans (reverseGearTick_of_throttle_reverse hclass hph))
        (toNat_midI_sub _) hgear (by simp [hph])
  · have hclass : classify s.cfg G B = .brake := classify_of_brake (by omega) hGB
    exact exec_escTick_of_target hok (htarget.trans (reverseGearTick_of_brake hclass)) (toNat_midI_add _) hgear rfl

/-- Settles O46: the phase and the value do not depend on the old phase; only the priority does. -/
theorem forwardGearThrottleTicks : Obligations.ForwardGearThrottleTicks := by
  intro s tw hok hm hfwd G B hG hBG drive
  exact exec_escTick_of_target hok (tickTarget_of_forwardGear_throttle s.cfg _ tw hm hfwd hG hBG) (toNat_midI_add _)
    (tickGear_gearAware s.cfg _ tw hm) rfl

/-- The test of R226 on naturals: `HYST` and the scaled amount both fit the lower half range, so truncated subtraction
compares as the integers do. -/
theorem below_band_iff (c : Config) (a : Nat) (hok : c.ok = true) (ha : a ≤ c.amtMax) :
    midI - scaleDown c a < midI - c.hyst ↔ 992 - scaleDown c a < 992 - c.hyst := by
  obtain ⟨-, -, -, -, -, -, hhyst, -⟩ := ok_bounds c hok
  have hdown := scaleDown_le c a ha
  simp only [midI, chMid, chMin] at *
  omega

/-- Settles O47: the drive value is the same on both sides of the band, which decides the phase alone. -/
theorem forwardGearBrakeTicks : Obligations.ForwardGearBrakeTicks := by
  intro s tw hok hm hfwd G B hB hGB d drive gear
  have hgear := tickGear_gearAware s.cfg s.esc.gear tw hm
  have hband := below_band_iff s.cfg (brakeAmount s.cfg tw) hok (brakeAmount_le s.cfg tw)
  have htarget := (tickTarget_of_forwardGear s.cfg s.esc.phase tw hm hfwd).trans
    (forwardGearTick_of_brake (classify_of_brake hB hGB))
  refine ⟨fun hbelow => ?_, fun hinside => ?_⟩
  · rw [if_pos (hband.mpr hbelow)] at htarget
    exact exec_escTick_of_target hok htarget (toNat_midI_sub _) hgear rfl
  · rw [if_neg (mt hband.mp (Nat.not_lt.mpr hinside))] at htarget
    exact exec_escTick_of_target hok htarget (toNat_midI_sub _) hgear (by simp)

/-- Settles O48: the class of the pedals is all that a gear-less tick asks. -/
theorem gearlessTicks : Obligations.GearlessTicks := by
  intro s tw hok hm G B up down flip brakes
  have hgear := tickGear_gearless s.cfg s.esc.gear tw hm
  have htarget := tickTarget_of_gearless s.cfg s.esc.phase tw hm
  refine ⟨fun hG hB => ?_, fun hG hBG => ?_, fun hB hGB => ?_⟩
  · exact exec_escTick_of_target hok (htarget.trans (gearlessTick_of_idle (classify_of_idle hG hB))) toNat_midI hgear rfl
  · have hclass := classify_of_throttle s.cfg G B hG hBG
    exact exec_escTick_of_target hok (htarget.trans (gearlessTick_of_throttle hclass)) (toNat_midI_add _) hgear rfl
  · have hclass := classify_of_brake hB hGB
    exact exec_escTick_of_target hok (htarget.trans (gearlessTick_of_brake hclass)) (toNat_midI_sub _) hgear rfl

/-- Settles O49: the computed value is legal, so the clamp keeps it, and `ESC_PRIO` compares the two phases. -/
theorem everyTickGivesALegalDriveAndItsPriority : Obligations.EveryTickGivesALegalDriveAndItsPriority := by
  intro s tw hok
  obtain ⟨hlo, hhi⟩ := tickTarget_legal s.cfg s.esc.phase tw hok
  obtain ⟨hmin, hmax⟩ := clampDrive_range (tickTarget s.cfg s.esc.phase tw).2
  exact ⟨_, exec_escTick tw s, toNat_clampDrive_of_range _ hlo hhi, hmin, hmax, prioFlag_eq_true_iff _ _, rfl⟩

/-! ## How `Reverse` is entered (R221, R231, R234, R236) -/

/-- Gear -1 enters `Reverse` from `Brake` alone, at the midpoint. -/
theorem reverseGearTick_enters_reverse (c : Config) (ph : Phase) (g b : Nat)
    (h : (reverseGearTick c ph g b).1 = .reverse) (hph : ph ≠ .reverse) :
    ph = .brake ∧ (reverseGearTick c ph g b).2 = midI := by
  cases hclass : classify c g b with
  | idle =>
    by_cases hf : ph = .forward
    · rw [reverseGearTick_of_idle_forward hclass hf] at h; cases h
    · rw [reverseGearTick_of_idle_other hclass hf] at h; cases h
  | throttle =>
    cases ph with
    | forward => rw [reverseGearTick_of_throttle_forward hclass rfl] at h; cases h
    | brake => exact ⟨rfl, by rw [reverseGearTick_of_throttle_brake hclass rfl]⟩
    | reverse => exact absurd rfl hph
  | brake => rw [reverseGearTick_of_brake hclass] at h; cases h

/-- A forward gear ends in `Forward`, in `Brake` or in the phase it found. -/
theorem forwardGearTick_phase_cases (c : Config) (ph : Phase) (gear g b : Nat) :
    (forwardGearTick c ph gear g b).1 = .forward ∨ (forwardGearTick c ph gear g b).1 = .brake ∨
      (forwardGearTick c ph gear g b).1 = ph := by
  cases h : classify c g b with
  | idle => exact .inl (by rw [forwardGearTick_of_idle h])
  | throttle => exact .inl (by rw [forwardGearTick_of_throttle h])
  | brake =>
    rw [forwardGearTick_of_brake h]
    exact .inr (ite_eq_or_eq _ _ _)

/-- A tick enters `Reverse` from `Brake` alone, in gear -1 of the gear-aware mode, at the midpoint. -/
theorem tickTarget_enters_reverse (c : Config) (ph : Phase) (tw : BitVec 28)
    (h : (tickTarget c ph tw).1 = .reverse) (hph : ph ≠ .reverse) :
    ph = .brake ∧ c.gearMode = true ∧ selectGear tw = -1 ∧ (tickTarget c ph tw).2 = midI := by
  rcases tick_mode_cases c tw with hm | ⟨hm, hgear⟩ | ⟨hm, hgear⟩ | ⟨hm, hgear⟩
  · exact absurd h (tickTarget_gearless c ph tw hm)
  · rw [tickTarget_of_neutral c ph tw hm hgear] at h
    exact absurd h hph
  · rw [tickTarget_of_reverseGear c ph tw hm hgear] at h ⊢
    obtain ⟨hbrake, hmid⟩ := reverseGearTick_enters_reverse c ph _ _ h hph
    exact ⟨hbrake, hm, hgear, hmid⟩
  · rw [tickTarget_of_forwardGear c ph tw hm hgear] at h
    rcases forwardGearTick_phase_cases c ph (selectGear tw).toNat (gasAmount c tw) (brakeAmount c tw)
      with hend | hend | hend
    · cases hend.symm.trans h
    · cases hend.symm.trans h
    · exact absurd (hend.symm.trans h) hph

/-- What an operation that completes does to the ESC registers: only a tick and `RST` write them (R21, R300). -/
theorem exec_esc_cases (i : Instr) (s t : State) (h : exec i s = .next t) :
    t.esc = s.esc ∨ t.esc = Esc.reset ∨ ∃ tw, i = .escTick tw ∧ t.esc = s.esc.tick s.cfg tw := by
  cases i with
  | escTick tw => cases h; exact .inr (.inr ⟨tw, rfl, rfl⟩)
  | rst => cases h; exact .inr (.inl rfl)
  | _ =>
    obtain ⟨w, e, hagent, rfl, -⟩ := exec_next_own _ s t h nofun
    exact .inl (own_esc_of_other s w (hagent ▸ nofun))

/-- What a step does to the ESC registers. -/
theorem step_esc_cases (s t : State) (h : step s = .next t) :
    t.esc = s.esc ∨ t.esc = Esc.reset ∨ ∃ tw, t.esc = s.esc.tick s.cfg tw := by
  rcases step_cases s with ⟨-, -, hstep⟩ | ⟨i, rest, -, -, hstep⟩ | ⟨e, -, -, hstep⟩ | ⟨-, hstep⟩
  · cases hstep.symm.trans h; exact .inl rfl
  · rcases exec_esc_cases i _ t (hstep.symm.trans h) with hkept | hreset | ⟨tw, -, htick⟩
    · exact .inl hkept
    · exact .inr (.inl hreset)
    · exact .inr (.inr ⟨tw, htick⟩)
  · cases hstep.symm.trans h
  · cases hstep.symm.trans h

/-- The ESC registers after a tick that enters `Reverse`. -/
theorem esc_tick_enters_reverse (c : Config) (e : Esc) (tw : BitVec 28) (h : (e.tick c tw).phase = .reverse)
    (hph : e.phase ≠ .reverse) :
    e.phase = .brake ∧ c.gearMode = true ∧ (e.tick c tw).gear = -1 ∧ (e.tick c tw).drive = 992 ∧
      (e.tick c tw).prio = true := by
  obtain ⟨hbrake, hm, hgear, hmid⟩ := tickTarget_enters_reverse c e.phase tw h hph
  have hdrive : clampDrive (tickTarget c e.phase tw).2 = 992 := by rw [hmid]; rfl
  have hchange : (tickTarget c e.phase tw).1 ≠ e.phase := fun heq => hph (heq.symm.trans h)
  exact ⟨hbrake, hm, tickGear_reverse c e.gear tw hm hgear, hdrive, (prioFlag_eq_true_iff _ _).mpr hchange⟩

/-- Settles O50: a step that ends in `Reverse` and did not begin there is a tick, since `RST` ends in `Forward`. -/
theorem reverseIsEnteredOnlyFromBrake : Obligations.ReverseIsEnteredOnlyFromBrake := by
  intro s t hstep ht hs
  rcases step_esc_cases s t hstep with hkept | hreset | ⟨tw, htick⟩
  · exact absurd (hkept ▸ ht) hs
  · rw [hreset] at ht; cases ht
  · rw [htick] at ht ⊢
    exact esc_tick_enters_reverse s.cfg s.esc tw ht hs

end Sys2Proof.Machine
end

section
/-!
PROOFS. A step with nothing pending (spec 60_exceptions.md R288, 70_reset_and_hazards.md R305).
-/
namespace Sys2Proof.Machine

/-- Settles O4: the idle step emits no event, and emitting an event writes the event output alone. -/
theorem stepWithNothingPendingKeepsTheState : Obligations.StepWithNothingPendingKeepsTheState := by
  intro s hok hin
  calc step s
    _ = .next (s.emit .none) := step_of_nothing_pending s hok hin
    _ = .next { s with out := .none } := rfl

end Sys2Proof.Machine
end

section
/-!
PROOFS. The reset operation (spec 70_reset_and_hazards.md R300, R301; 10_state.md R25, R46), and a framer that locks
on a false start marker of a repeated frame (R311).
-/
namespace Sys2Proof.Machine

/-! ## Reset (R300) -/

/-- Settles O53: `State.reset` is by definition the reset state of the reference configuration. -/
theorem resetStateKeepsTheInvariant : Obligations.ResetStateKeepsTheInvariant :=
  ⟨inv_resetAt, rfl, inv_resetAt Config.reference (by decide)⟩

theorem chan_reset (n : Nat) (h : n < 16) : ChannelFrame.reset.chan n = 992 := chan_vec16 _ _ _ _ _ n h

/-- Settles O52: each unit of the next state is the reset value of that unit. -/
theorem resetRestoresEveryRegister : Obligations.ResetRestoresEveryRegister := by
  intro s
  refine ⟨_, exec_rst s, rfl, rfl, List.length_replicate, fun i f hf => ?framers,
    rfl, rfl, rfl, rfl, fun _ => rfl, fun k => ?slots, rfl, rfl, rfl, rfl⟩
  case framers =>
    obtain rfl : f = Framer.reset := List.eq_of_mem_replicate (List.mem_of_getElem? hf)
    exact ⟨rfl, rfl, fun _ => rfl, chan_reset, rfl, rfl, rfl, rfl⟩
  case slots =>
    have hslot : (Slots.reset s.cfg).get k = Slot.reset (s.cfg.lenOf k) := get_reset s.cfg k
    exact ⟨congrArg Slot.v hslot, congrArg Slot.p hslot⟩

/-! ## Persistent mis-lock (R311) -/

section misLock
variable {c : Config} {f : Framer} {b : Byte} {w : List Byte}

/-- `START`, any 23 bytes and a 25th that is not `END`: the candidate is dropped (R136). -/
theorem pushAll_badEnd (hst : f.st = .searching) (h : w.length = 23) (hb : b ≠ c.endMark) :
    f.pushAll c (c.startMark :: w ++ [b]) =
      some ((f.candidate (c.startMark :: w)).dropped b, List.replicate 24 .none ++ [.dropped b]) :=
  pushAll_whole hst h (framer_push_of_badEnd rfl (toNat_cnt_whole h) hb)

/-- Each repetition of such a candidate meets the framer searching again, at the same place of the period. -/
theorem pushAll_replicate_badEnd (n : Nat) (hst : f.st = .searching) (h : w.length = 23) (hb : b ≠ c.endMark) :
    ∃ g : Framer, f.pushAll c (List.replicate n (c.startMark :: w ++ [b])).flatten =
        some (g, (List.replicate n (List.replicate 24 Event.none ++ [.dropped b])).flatten) ∧
      g.st = .searching ∧ g.rxf = f.rxf := by
  induction n generalizing f with
  | zero => exact ⟨f, rfl, hst, rfl⟩
  | succ n ih =>
    obtain ⟨g, hall, hgst, hgrxf⟩ := ih (f := (f.candidate (c.startMark :: w)).dropped b) rfl
    exact ⟨g, pushAll_append (pushAll_badEnd hst h hb) hall, hgst, hgrxf⟩

end misLock

/-- Settles O24: the period begins with the start marker, and its 25th byte 0x81 is not the end marker. -/
theorem misLockedFramerNeverEmitsAFrame : Obligations.MisLockedFramerNeverEmitsAFrame := by
  intro s i f n hstart hend hf hst period
  have hperiod : period = s.cfg.startMark :: (period.drop 1).take 23 ++ [0x81] := by rw [hstart]; rfl
  have hbad : (0x81 : Byte) ≠ s.cfg.endMark := by rw [hend]; decide
  have hlen : ((period.drop 1).take 23).length = 23 := rfl
  obtain ⟨g, hall, hgst, hgrxf⟩ := pushAll_replicate_badEnd n hst hlen hbad
  rw [← hperiod] at hall
  refine ⟨_, g, runSchedule_frStream hf hall, ?_, hgst, hgrxf⟩
  exact List.getElem?_set_self (List.getElem?_eq_some_iff.mp hf).1

end Sys2Proof.Machine
end
